-- ==== Sys2Proof/Word.lean ====
section
/-! DEFINITION. The word types of the engine: 32-bit registers, bytes, node ids and frequencies (00_scope R10). -/

namespace Sys2Proof

/-- A host-visible register, a position, a length or a cursor: 32 bits (R10, R83). -/
abbrev Word := BitVec 32

/-- One byte of `IN` or `OUT` (R80, R81). -/
abbrev Byte := BitVec 8

/-- A node id, 0 (NIL) or 1..1257: 11 bits (R10). -/
abbrev NodeId := BitVec 11

/-- A node frequency: 16 bits (R10). -/
abbrev Freq := BitVec 16

/-- A hash key, 0..16383: 14 bits (R10). -/
abbrev Key := BitVec 14

/-- An entry of the hash head table or a chain link: a position, or NONE (R43, R44). -/
abbrev Link := Option Word

/-- How NONE is written in a register: `0xFFFFFFFF` (R43, R215). -/
def noneWord : Word := 0xFFFFFFFF

end Sys2Proof
end

