-- ==== Sys2Proof/Syntax.lean ====
section
/-! DEFINITION. The commands: one constructor per row of spec/opcode_table.json (30_encoding R112). -/

namespace Sys2Proof

/-- A command. Operands come from ARG0 and ARG1, never from the command word (R110, R111), so no constructor has an
argument. -/
inductive Instr where
  /-- R320. -/
  | nop
  /-- R321. -/
  | init
  /-- R251. -/
  | compress
  /-- R291. -/
  | decompress
  /-- R184. -/
  | mupd
  /-- R179. -/
  | henc
  /-- R180. -/
  | hdec
  /-- R182. -/
  | nread
  /-- R145. -/
  | putf
  /-- R146. -/
  | getf
  /-- R147. -/
  | flsh
  /-- R152. -/
  | rfnd
  /-- R153. -/
  | rrd
  /-- R215. -/
  | hins
  /-- R223. -/
  | fmat
  /-- R232. -/
  | mscan
deriving DecidableEq, Repr

end Sys2Proof
end

