-- ==== Sys2Proof/WellFormed.lean ====
section
/-! DEFINITION. When a command word is well formed (30_encoding R110, R112, R116, R117). A command has no operand field,
so every term of `Instr` is well formed; the checks are on the command word. -/

namespace Sys2Proof

/-- R110: the RSVD field, bits 31:8, is 0. -/
def reservedClear (w : Word) : Bool := w.extractLsb' 8 24 == 0

/-- R112: the OPC field, bits 7:0, is in the opcode map. -/
def opcodeAssigned (w : Word) : Bool :=
  let opc := (w.extractLsb' 0 8).toNat
  opc ≤ 0x03 || (0x10 ≤ opc && opc ≤ 0x13) || (0x20 ≤ opc && opc ≤ 0x24) || (0x30 ≤ opc && opc ≤ 0x32)

/-- A legal command word: both checks of R116 pass. -/
def wordWellFormed (w : Word) : Bool := reservedClear w && opcodeAssigned w

/-- Every command is well formed: it has no field that could hold an illegal value (R111, R117). -/
def Instr.wellFormed (_ : Instr) : Bool := true

end Sys2Proof
end

