-- ==== Sys2Proof/Decode.lean ====
section
/-! DEFINITION. The command word (30_encoding R110, R112, R116): decoding, total on every word and refusing by name, and
the encoder. -/

namespace Sys2Proof

/-- Why a command word is illegal (R116). Both abort with ILLEGAL_COMMAND; RSVD is checked first (R344). -/
inductive DecodeError where
  /-- RSVD is not 0 (R110). -/
  | reservedField
  /-- OPC is not in the opcode map (R112). -/
  | unassignedOpcode
deriving DecidableEq, Repr

/-- OPC: bits 7:0 (R110). -/
def opcField (w : Word) : BitVec 8 := w.extractLsb' 0 8

/-- RSVD: bits 31:8 (R110). -/
def rsvdField (w : Word) : BitVec 24 := w.extractLsb' 8 24

/-- The opcode map of R112. -/
def opcodeMap (opc : BitVec 8) : Option Instr :=
  match opc.toNat with
  | 0x00 => some .nop
  | 0x01 => some .init
  | 0x02 => some .compress
  | 0x03 => some .decompress
  | 0x10 => some .mupd
  | 0x11 => some .henc
  | 0x12 => some .hdec
  | 0x13 => some .nread
  | 0x20 => some .putf
  | 0x21 => some .getf
  | 0x22 => some .flsh
  | 0x23 => some .rfnd
  | 0x24 => some .rrd
  | 0x30 => some .hins
  | 0x31 => some .fmat
  | 0x32 => some .mscan
  | _ => none

/-- R113 step 3, R344: RSVD is checked before OPC. -/
def decode (w : Word) : Except DecodeError Instr :=
  if rsvdField w = 0 then
    match opcodeMap (opcField w) with
    | some i => .ok i
    | none => .error .unassignedOpcode
  else .error .reservedField

/-- The opcode of a command (R112). -/
def opcodeOf : Instr → BitVec 8
  | .nop => 0x00
  | .init => 0x01
  | .compress => 0x02
  | .decompress => 0x03
  | .mupd => 0x10
  | .henc => 0x11
  | .hdec => 0x12
  | .nread => 0x13
  | .putf => 0x20
  | .getf => 0x21
  | .flsh => 0x22
  | .rfnd => 0x23
  | .rrd => 0x24
  | .hins => 0x30
  | .fmat => 0x31
  | .mscan => 0x32

/-- The command word of a command: RSVD 0, OPC as R112 says. -/
def encode (i : Instr) : Word := (opcodeOf i).setWidth 32

/-- The command word whose bits are `w`, of which `nbits` are given and the rest are 0. -/
def tableWord (nbits w : Nat) : Word := BitVec.ofNat 32 (w % 2 ^ nbits)

/-- The instruction the decoder reads from a command word numbered as spec/opcode_table.json numbers it. -/
def decodeTableWord (nbits w : Nat) : Option Instr :=
  match decode (tableWord nbits w) with
  | .ok i => some i
  | .error _ => none

end Sys2Proof
end

