-- ==== Sys2Proof/Config.lean ====
section
/-! DEFINITION. What is fixed for the machine: the parameter bundle (00_scope R6), the derived constants (R7), the open
implementation parameters (R9) and the free values, which the spec leaves open and nothing here gives a value. -/

namespace Sys2Proof.Config

/-! ### The parameter bundle (R6): constants of the hardware. -/

/-- R6. -/
def maxFrequency : Nat := 2000
/-- R6. -/
def minCopy : Nat := 3
/-- R6. -/
def maxCopy : Nat := 64
/-- R6. -/
def copyRanges : Nat := 6
/-- R6: `copyBits = [4,6,8,10,12,14]`. -/
def copyBitsList : List Nat := [4, 6, 8, 10, 12, 14]
/-- R6. -/
def terminateCode : Nat := 256
/-- R6. -/
def firstCode : Nat := 257
/-- R6. -/
def hashSize : Nat := 16384
/-- R6. -/
def binSearch : Nat := 200
/-- R6. -/
def binNext : Nat := 20
/-- R6. -/
def textSearch : Nat := 1000
/-- R6. -/
def textNext : Nat := 50
/-- R6. -/
def shortRange : Nat := 3

/-! ### Derived constants (R7): the formulas, not the source's printed values (90_conflicts C1). -/

/-- R7: 62. -/
def codesPerRange : Nat := maxCopy - minCopy + 1
/-- R7: 628. -/
def maxChar : Nat := firstCode + copyRanges * codesPerRange - 1
/-- R7: 629. -/
def successMax : Nat := maxChar + 1
/-- R7: 1257. -/
def twiceMax : Nat := 2 * maxChar + 1
/-- R7: 67. -/
def lookaheadSize : Nat := minCopy + maxCopy
/-- R7. -/
def root : NodeId := 1
/-- R7: no node. -/
def nil : NodeId := 0

/-- The constant `ID` reads (R2, R31): "SPK" and the revision 7. -/
def idWord : Word := 0x53504B07

/-- The open implementation parameters of R9, fixed by the platform before reset (R375). -/
structure Platform where
  /-- `IN_MEM_BYTES`. -/
  inMemBytes : Nat
  /-- `OUT_MEM_BYTES`. -/
  outMemBytes : Nat
  /-- `ENGINE_BASE`: the host address of the register block. -/
  engineBase : Nat
deriving DecidableEq, Repr

/-- The bounds R9 puts on the parameters: each memory holds 1 to 2^28 bytes. -/
abbrev Platform.wf (c : Platform) : Prop :=
  1 ≤ c.inMemBytes ∧ c.inMemBytes ≤ 2 ^ 28 ∧ 1 ≤ c.outMemBytes ∧ c.outMemBytes ≤ 2 ^ 28

/-- The platform of `State.reset`: the sizes the worked programs use (95_test_vectors part 7), base 0.
DESIGN CHOICE (log 1), unsafe: no statement may rest on it. -/
def defaultPlatform : Platform := { inMemBytes := 4096, outMemBytes := 4096, engineBase := 0 }

/-! ### Free values. They have no body: nothing can be proved of what they are. -/

/-- Whether the n-th drawn read of a result register while BUSY returns the command's end value rather than its start
value (R384, 93 item 9; log 6). -/
opaque busyReadSeesEnd : Nat → Bool

/-- What the n-th drawn read of `OUT[a]` while BUSY returns: `busyOutByte n a` (R98, 93 item 10; log 7). -/
opaque busyOutByte : Nat → Nat → Byte

/-- What `OUT[a]` holds after a reset that ended a command which could have written it: `tornOutByte n a`
(R371, 93 item 15; log 8). -/
opaque tornOutByte : Nat → Nat → Byte

/-- What a `next` link of a position never inserted reads as (R44, 93 item 8; log 3). -/
opaque unwrittenNext : Nat → Link

/-- What a `prev` link of a position never inserted reads as (R44, 93 items 8 and 16; log 3). -/
opaque unwrittenPrev : Nat → Link

end Sys2Proof.Config
end

