-- ==== Sys2Proof/Machine/State.lean ====
section
/-! DEFINITION. The state of the engine as plain data (10_state), the events of the outside world (70_reset R382), the
reasons a step can stop, and the state after reset (R370). -/

namespace Sys2Proof.Machine

/-- The error codes of R341; a code 8..15 is never reported, so it has no constructor. -/
inductive ErrCode where
  | none
  | invalidSymbol
  | streamCorruptionEof
  | streamCorruptionNullChild
  | streamCorruptionBadDistance
  | outputOverflow
  | illegalCommand
  | badArgument
deriving DecidableEq, Repr

/-- The stored field of CTRL (R32); bits 31:1 are reserved. -/
structure Ctrl where
  /-- Completion interrupt enable. -/
  ie : Bool
deriving DecidableEq, Repr

/-- The stored fields of STATUS (R34); bits 7:4 and 31:12 are reserved. -/
structure Status where
  busy : Bool
  done : Bool
  err : Bool
  /-- A host register write arrived while BUSY (R385). -/
  bwi : Bool
  errcode : ErrCode
deriving DecidableEq, Repr

/-- The stored fields of MODE (R46); bits 31:2 are reserved. -/
structure Mode where
  /-- `isBinary` (R230). -/
  bin : Bool
  /-- `hasDictionary` (R231). -/
  dict : Bool
deriving DecidableEq, Repr

/-- One node of the Huffman arena (R40). -/
structure Node where
  parent : NodeId
  left : NodeId
  right : NodeId
  freq : Freq
deriving DecidableEq, Repr

/-- The hidden values of COPY_BACKREF (R290, R294). -/
structure Backref where
  code : Word
  /-- The range index `i`. -/
  range : Word
  length : Word
  field : Word
  distance : Word
  /-- Bytes still to copy. -/
  left : Word
deriving DecidableEq, Repr

/-- The sequencer (R36), with the hidden registers that exist only in its states (R50, R250, R290). -/
inductive Seq where
  | idle
  /-- A started command whose word is `w` (R113). -/
  | run (w : Word)
  | fill
  /-- The encode position (R50). -/
  | decide (p : Word)
  /-- The encode position, the match being consumed and the positions left to consume (R50, R259). -/
  | copy (p len dist rest : Word)
  | flush
  /-- The state DONE of COMPRESS. -/
  | compressDone
  | decodeCode
  | emitLiteral (code : Word)
  | copyBackref (r : Backref)
  /-- The state DONE of DECOMPRESS. -/
  | decompressDone
deriving DecidableEq, Repr

/-- The sixteen registers of R30. -/
inductive Reg where
  | id
  | ctrl
  | cmd
  | status
  | arg0
  | arg1
  | res0
  | res1
  | inLen
  | outLen
  | outBitpos
  | inBitpos
  | errinfo
  | mode
  | symcount
  | bytesRead
deriving DecidableEq, Repr

/-- What the outside world does next (R382): a host access, the reset input, or the engine's turn. The list of them in
`State.agenda` is an input of the machine; the spec gives no order between host accesses and the engine step. -/
inductive Event where
  /-- The engine takes its step. -/
  | engine
  /-- The reset input is asserted and released, as one event with no span (R370, R371; log 19). -/
  | reset
  /-- A bus read of `size` bytes at a host address (R86). -/
  | busRead (addr size : Nat)
  /-- A bus write of `size` bytes at a host address (R86). -/
  | busWrite (addr size : Nat) (v : Word)
  /-- A host read of `IN[a]` (R80). -/
  | inRead (a : Nat)
  /-- A host write of `IN[a]` (R80). -/
  | inWrite (a : Nat) (b : Byte)
  /-- A host read of `OUT[a]` (R81). -/
  | outRead (a : Nat)
  /-- A host write of `OUT[a]` (R81, R98). -/
  | outWrite (a : Nat) (b : Byte)
deriving DecidableEq, Repr

/-- Why the machine stops. No command and no error of the engine is a fault: only host steps that the spec gives no
move. -/
inductive Fault where
  /-- A host write to `IN` or `OUT` while BUSY (R98, R386: "a model gives a host that breaks this duty no move").
  Raised by the host step. Safe. -/
  | memoryWriteWhileBusy
  /-- A host access to a byte outside `IN` or `OUT` (R80, R81: no such byte). Raised by the host step. Safe. -/
  | noSuchByte
  /-- A bus access outside the 256-byte window of the register block (R30, R91): no rule gives it a meaning. Raised by
  the host step. Safe. -/
  | outsideWindow
deriving DecidableEq, Repr

/-- Why an instruction is refused. -/
inductive Refusal where
  /-- An instruction without a meaning, by its mnemonic. Raised by no arm of `exec`. Safe. -/
  | notModelled (mnemonic : String)
deriving DecidableEq, Repr

/-- A byte memory: the listed bytes, addresses strictly rising, none equal to what an unlisted address reads as. -/
abbrev Memory := List Host.Cell

/-- The node arena: the listed nodes by id; an unlisted node is its initial node (R170). -/
abbrev Arena := List (Nat × Node)

/-- A table of positions: the hash head table by key, or a chain link by position. -/
abbrev LinkTable := List (Nat × Link)

/-- Everything the spec gives the machine (10_state), and the model's own input and bookkeeping fields at the end. -/
structure State where
  /-- The open parameters of R9; no step changes them. -/
  cfg : Config.Platform
  ctrl : Ctrl
  status : Status
  arg0 : Word
  arg1 : Word
  res0 : Word
  res1 : Word
  inLen : Word
  outBitpos : Word
  inBitpos : Word
  errinfo : Word
  mode : Mode
  symcount : Word
  bytesRead : Word
  seq : Seq
  /-- The encode path stack (R51), top first. -/
  pathStack : List Bool
  nodes : Arena
  head : LinkTable
  next : LinkTable
  prev : LinkTable
  inMem : Memory
  outMem : Memory
  /-- MODEL: the events to come, oldest first (log 4). -/
  agenda : List Event
  /-- MODEL: what the last host read returned (log 13). -/
  readData : Word
  /-- MODEL: how many free values have been drawn (log 13). -/
  freeCount : Nat
deriving DecidableEq, Repr

/-- The state after reset on a platform (R370): every register at its reset value, IDLE, the initial tree, every head
NONE. `IN` and `OUT` read 0 (DESIGN CHOICE, log 2); no link is written (log 3). -/
def State.resetOn (cfg : Config.Platform) : State where
  cfg := cfg
  ctrl := { ie := false }
  status := { busy := false, done := false, err := false, bwi := false, errcode := .none }
  arg0 := 0
  arg1 := 0
  res0 := 0
  res1 := 0
  inLen := 0
  outBitpos := 0
  inBitpos := 0
  errinfo := 0
  mode := { bin := false, dict := false }
  symcount := 0
  bytesRead := 0
  seq := .idle
  pathStack := []
  nodes := []
  head := []
  next := []
  prev := []
  inMem := []
  outMem := []
  agenda := []
  readData := 0
  freeCount := 0

/-- The machine right after reset (R370), on the platform of log 1. -/
def State.reset : State := State.resetOn Config.defaultPlatform

end Sys2Proof.Machine
end

