-- ==== Sys2Proof/Machine/Sparse.lean ====
section
/-! DEFINITION. Sparse tables: lists of (index, value) pairs with rising indices, in which an unlisted index has a default
value. Memories, the node arena, the hash head table and the chain links are kept so. -/

namespace Sys2Proof.Machine

/-- The listed value at an index, if any. -/
def sparseFind {α : Type} : List (Nat × α) → Nat → Option α
  | [], _ => none
  | (k, v) :: m, a => if k = a then some v else sparseFind m a

/-- The table without any entry at an index. -/
def sparseErase {α : Type} : List (Nat × α) → Nat → List (Nat × α)
  | [], _ => []
  | (k, v) :: m, a => if k = a then sparseErase m a else (k, v) :: sparseErase m a

/-- The table with a value listed at an index, at its place among rising indices. -/
def sparseList {α : Type} : List (Nat × α) → Nat → α → List (Nat × α)
  | [], a, v => [(a, v)]
  | (k, w) :: m, a, v =>
    if a < k then (a, v) :: (k, w) :: m
    else if k = a then (a, v) :: m
    else (k, w) :: sparseList m a v

/-- Reading an index: the listed value, or the default `d`. -/
def sparseGet {α : Type} (d : α) (m : List (Nat × α)) (a : Nat) : α := (sparseFind m a).getD d

/-- Writing an index: writing the default removes the entry, so that equal contents are equal lists. -/
def sparsePut {α : Type} [DecidableEq α] (d : α) (m : List (Nat × α)) (a : Nat) (v : α) : List (Nat × α) :=
  if v = d then sparseErase m a else sparseList m a v

/-- Indices strictly rise. -/
def sparseRising {α : Type} : List (Nat × α) → Bool
  | [] => true
  | [_] => true
  | (k, _) :: (k', v') :: m => decide (k < k') && sparseRising ((k', v') :: m)

/-- The canonical form of a table whose unlisted index `k` has the value `d k`. -/
def sparseWf {α : Type} [DecidableEq α] (d : Nat → α) (m : List (Nat × α)) : Bool :=
  sparseRising m && m.all (fun e => decide (e.2 ≠ d e.1))

end Sys2Proof.Machine
end

