-- ==== Sys2Proof/Machine/Ops.lean ====
section
/-! DEFINITION. The operations the commands share: memory, command start, completion and abort, InitState, and the bit
primitives of the writer and the reader. -/

namespace Sys2Proof.Machine

/-! ### Memory (20_memory R80, R81) -/

/-- What a byte nothing has written reads as. The spec leaves power-up contents to the platform (R370, 93 item 6).
DESIGN CHOICE (log 2), unsafe. -/
def unwrittenByte : Byte := 0

/-- Reading one byte. -/
def memGet (m : Memory) (a : Nat) : Byte := sparseGet unwrittenByte m a

/-- Writing one byte. -/
def memPut (m : Memory) (a : Nat) (b : Byte) : Memory := sparsePut unwrittenByte m a b

/-- The canonical form of a memory. -/
def Memory.wf (m : Memory) : Bool := sparseWf (fun _ => unwrittenByte) m

/-- `MemRead(IN, a, 1)` (R12). -/
def State.inByte (s : State) (a : Nat) : Byte := memGet s.inMem a

/-- `MemRead(OUT, a, 1)` (R12). -/
def State.outByte (s : State) (a : Nat) : Byte := memGet s.outMem a

/-- `MemWrite(OUT, a, 1, b)` (R12). -/
def State.setOutByte (s : State) (a : Nat) (b : Byte) : State := { s with outMem := memPut s.outMem a b }

/-- A host write of `IN[a]` (R80). -/
def State.setInByte (s : State) (a : Nat) (b : Byte) : State := { s with inMem := memPut s.inMem a b }

/-! ### Sub-steps of a command: they answer a value, or abort -/

/-- The result of a sub-step: it goes on with a value and a state, or it raises an error with an info word, in the state
it had reached (R340, R343: no rollback). -/
inductive CmdRes (α : Type) where
  | ok (a : α) (s : State)
  | abort (e : ErrCode) (info : Word) (s : State)

/-- One sub-step after another; an abort ends the command (R343). -/
def CmdRes.bind {α β : Type} (r : CmdRes α) (f : α → State → CmdRes β) : CmdRes β :=
  match r with
  | .ok a s => f a s
  | .abort e info s => .abort e info s

/-- A check that raises `e` with `info` when the condition fails. -/
def require (c : Bool) (e : ErrCode) (info : Word) (s : State) : CmdRes Unit :=
  if c then .ok () s else .abort e info s

/-! ### Command start, completion and abort -/

/-- R113 steps 1 and 2: what a write of the command word `w` to CMD does at once. BWI keeps its value. -/
def State.startCommand (s : State) (w : Word) : State :=
  { s with
    status := { s.status with busy := true, done := false, err := false, errcode := .none }
    errinfo := 0
    seq := .run w }

/-- What a completed command writes to RES0 and RES1 (R115); `none` leaves the register unchanged. -/
structure Results where
  res0 : Option Word := none
  res1 : Option Word := none
deriving DecidableEq, Repr

/-- R114: the results, then `seq <- IDLE`, `BUSY <- 0`, `DONE <- 1`. The path stack holds nothing between commands
(R51). -/
def State.complete (s : State) (r : Results) : State :=
  { s with
    res0 := r.res0.getD s.res0
    res1 := r.res1.getD s.res1
    seq := .idle
    pathStack := []
    status := { s.status with busy := false, done := true } }

/-- R340: the abort. ERRINFO, ERRCODE, ERR, `seq <- IDLE`, `BUSY <- 0`, `DONE <- 1`; RES0 and RES1 are not written and
every effect made before stays (R343). -/
def State.raise (s : State) (e : ErrCode) (info : Word) : State :=
  { s with
    errinfo := info
    seq := .idle
    pathStack := []
    status := { s.status with errcode := e, err := true, busy := false, done := true } }

/-- How a command ends: completion (R114) or abort (R340). Both answer a next state. -/
def finish (r : CmdRes Results) : Host.Outcome State Fault Refusal :=
  match r with
  | .ok res s => .next (s.complete res)
  | .abort e info s => .next (s.raise e info)

/-- R321, `InitState()`: the initial tree, every head NONE, the cursors, MODE and the counters. The links are not
cleared, and `IN`, `OUT`, CTRL, ARG0, ARG1, IN_LEN and BWI are not touched. -/
def State.initState (s : State) : State :=
  { s with
    nodes := []
    head := []
    outBitpos := 0
    inBitpos := 0
    mode := { bin := false, dict := false }
    symcount := 0
    bytesRead := 0 }

/-! ### The bit writer (40_bitcodec R140 to R144) -/

/-- R84: stream bit `b` is bit `7 - (b mod 8)` of its byte. -/
def bitInByte (b : Nat) : Nat := 7 - b % 8

/-- A byte whose bit for stream bit `b` is `v` and whose other bits are 0. -/
def byteWithBit (v : Bool) (b : Nat) : Byte := (BitVec.ofNat 8 v.toNat) <<< (bitInByte b)

/-- R140, `PutBit(v)`: a new byte starts all-zero, then the bit is or-ed in and the cursor moves. -/
def putBit (v : Bool) (s : State) : CmdRes Unit :=
  let b := s.outBitpos.toNat
  let j := b / 8
  if s.cfg.outMemBytes ≤ j then .abort .outputOverflow s.outBitpos s
  else
    let old := if b % 8 = 0 then 0 else s.outByte j
    .ok () { s with outMem := memPut s.outMem j (old ||| byteWithBit v b), outBitpos := s.outBitpos + 1 }

/-- `PutBit` of each bit in turn. -/
def putBits : List Bool → State → CmdRes Unit
  | [], s => .ok () s
  | v :: vs, s => (putBit v s).bind fun _ s1 => putBits vs s1

/-- R141: the bits of a byte in the order `PutByte` writes them, bit 7 first. -/
def byteBits (x : Byte) : List Bool :=
  [x.getLsbD 7, x.getLsbD 6, x.getLsbD 5, x.getLsbD 4, x.getLsbD 3, x.getLsbD 2, x.getLsbD 1, x.getLsbD 0]

/-- R141, `PutByte(x)`. -/
def putByte (x : Byte) (s : State) : CmdRes Unit := putBits (byteBits x) s

/-- R144: the bits of a `w`-bit field, least significant first. -/
def fieldBits (v : Word) (w : Nat) : List Bool := (List.range w).map v.getLsbD

/-- R144, `PutField(v, w)`. -/
def putField (v : Word) (w : Nat) (s : State) : CmdRes Unit := putBits (fieldBits v w) s

/-- R142: how many pad bits `Flush` writes, 0 to 7. -/
def padCount (s : State) : Nat := (8 - s.outBitpos.toNat % 8) % 8

/-- R142, `Flush()`: zero bits up to the next byte boundary; it answers their number. -/
def flush (s : State) : CmdRes Nat :=
  (putBits (List.replicate (padCount s) false) s).bind fun _ s1 => .ok (padCount s) s1

/-! ### The bit reader (R143, R144) -/

/-- R143, `GetBit()`. -/
def getBit (s : State) : CmdRes Bool :=
  let b := s.inBitpos.toNat
  if 8 * s.inLen.toNat ≤ b then .abort .streamCorruptionEof s.inBitpos s
  else .ok ((s.inByte (b / 8)).getLsbD (bitInByte b)) { s with inBitpos := s.inBitpos + 1 }

/-- `w` bits of the stream, in order. -/
def getBits : Nat → State → CmdRes (List Bool)
  | 0, s => .ok [] s
  | w + 1, s => (getBit s).bind fun v s1 => (getBits w s1).bind fun vs s2 => .ok (v :: vs) s2

/-- The number whose bits, least significant first, are these. -/
def natOfBitsLsb : List Bool → Nat
  | [] => 0
  | v :: vs => v.toNat + 2 * natOfBitsLsb vs

/-- The number whose bits, most significant first, are these. -/
def natOfBitsMsb (vs : List Bool) : Nat := vs.foldl (fun n v => 2 * n + v.toNat) 0

/-- R144, `GetField(w)`. -/
def getField (w : Nat) (s : State) : CmdRes Nat :=
  (getBits w s).bind fun vs s1 => .ok (natOfBitsLsb vs) s1

/-- How many stream bits are left before `8 * IN_LEN`: no read can go further (R143, R383). -/
def bitsLeft (s : State) : Nat := 8 * s.inLen.toNat - s.inBitpos.toNat

/-- R38: OUT_LEN is no storage. -/
def State.outLen (s : State) : Word := BitVec.ofNat 32 ((s.outBitpos.toNat + 7) / 8)

end Sys2Proof.Machine
end

