-- ==== Sys2Proof/Machine/Operands.lean ====
section
/-! DEFINITION. Operands: the operand checks of 30_encoding R111, the copy-range table (40_bitcodec R150, R151) and the
copy-code map (R119). -/

namespace Sys2Proof.Machine

/-! ### Operand checks (R111, R344: the IN_LEN check runs before the command's own) -/

/-- `IN_LEN ≤ IN_MEM_BYTES`, else BAD_ARGUMENT with info IN_LEN (R37, R341). -/
def checkInLen (s : State) : CmdRes Unit :=
  require (decide (s.inLen.toNat ≤ s.cfg.inMemBytes)) .badArgument s.inLen s

/-- `code ≤ 628`, else INVALID_SYMBOL with info the operand (R111). -/
def checkSymbol (code : Word) (s : State) : CmdRes Unit :=
  require (decide (code.toNat ≤ Config.maxChar)) .invalidSymbol code s

/-- `1 ≤ k ≤ 1257`, else BAD_ARGUMENT (R111, R182). -/
def checkNodeId (k : Word) (s : State) : CmdRes Unit :=
  require (decide (1 ≤ k.toNat ∧ k.toNat ≤ Config.twiceMax)) .badArgument k s

/-- `w ≤ 16`, else BAD_ARGUMENT (R111, R145, R146). -/
def checkWidth (w : Word) (s : State) : CmdRes Unit :=
  require (decide (w.toNat ≤ 16)) .badArgument w s

/-- `p < IN_LEN`, else BAD_ARGUMENT (R111, R215, R223). -/
def checkPosition (p : Word) (s : State) : CmdRes Unit :=
  require (decide (p.toNat < s.inLen.toNat)) .badArgument p s

/-! ### The copy-range table (R45, R150): a constant -/

/-- The field width of range `i` (R6). -/
def copyBits (i : Nat) : Nat := Config.copyBitsList.getD i 0

/-- R150: `copyMin[0] = 0` and `copyMin[i+1] = copyMax[i] + 1`. -/
def copyMin : Nat → Nat
  | 0 => 0
  | i + 1 => copyMin i + 2 ^ copyBits i

/-- R150: `copyMax[i] = copyMin[i] + 2^copyBits[i] - 1`. -/
def copyMax (i : Nat) : Nat := copyMin i + 2 ^ copyBits i - 1

/-- R150: 21839. -/
def maxDistance : Nat := copyMax (Config.copyRanges - 1)

/-- R151: the range that holds a distance. -/
def rangeOf (d : Nat) : Nat :=
  if d ≤ copyMax 0 then 0
  else if d ≤ copyMax 1 then 1
  else if d ≤ copyMax 2 then 2
  else if d ≤ copyMax 3 then 3
  else if d ≤ copyMax 4 then 4
  else 5

/-- `d ≤ 21839`, else BAD_ARGUMENT (R111, R152). -/
def checkDistance (d : Word) (s : State) : CmdRes Unit :=
  require (decide (d.toNat ≤ maxDistance)) .badArgument d s

/-- `i ≤ 5`, else BAD_ARGUMENT (R111, R153). -/
def checkRange (i : Word) (s : State) : CmdRes Unit :=
  require (decide (i.toNat ≤ 5)) .badArgument i s

/-! ### The copy-code map (R8, R119) -/

/-- R119, encode: `firstCode - minCopy + length + i*codesPerRange`. -/
def copyCode (i len : Nat) : Nat := Config.firstCode - Config.minCopy + len + i * Config.codesPerRange

/-- R119, decode: the range index of a copy code. -/
def copyCodeRange (code : Nat) : Nat := (code - Config.firstCode) / Config.codesPerRange

/-- R119, decode: the length of a copy code. -/
def copyCodeLength (code : Nat) : Nat :=
  code - Config.firstCode + Config.minCopy - copyCodeRange code * Config.codesPerRange

end Sys2Proof.Machine
end

