-- ==== Sys2Proof/Machine/BitCodec.lean ====
section
/-! DEFINITION. The bit-codec commands PUTF, GETF and FLSH, and the copy-range commands RFND and RRD (40_bitcodec). -/

namespace Sys2Proof.Machine

/-- PUTF (R145): `v = ARG0`, `w = ARG1`; bits `v[31:w]` are ignored. -/
def execPutf (s : State) : Host.Outcome State Fault Refusal :=
  finish ((checkWidth s.arg1 s).bind fun _ s1 =>
    (putField s1.arg0 s1.arg1.toNat s1).bind fun _ s2 => .ok { } s2)

/-- GETF (R146): `w = ARG1`; the IN_LEN check runs before the width check (R344). -/
def execGetf (s : State) : Host.Outcome State Fault Refusal :=
  finish ((checkInLen s).bind fun _ s1 =>
    (checkWidth s1.arg1 s1).bind fun _ s2 =>
      (getField s2.arg1.toNat s2).bind fun v s3 => .ok { res0 := some (BitVec.ofNat 32 v) } s3)

/-- FLSH (R147): RES0 is the number of pad bits. -/
def execFlsh (s : State) : Host.Outcome State Fault Refusal :=
  finish ((flush s).bind fun k s1 => .ok { res0 := some (BitVec.ofNat 32 k) } s1)

/-- RFND (R152): the range of a distance and its lower bound. -/
def execRfnd (s : State) : Host.Outcome State Fault Refusal :=
  finish ((checkDistance s.arg0 s).bind fun _ s1 =>
    let i := rangeOf s1.arg0.toNat
    .ok { res0 := some (BitVec.ofNat 32 i), res1 := some (BitVec.ofNat 32 (copyMin i)) } s1)

/-- RRD (R153): one row of the copy-range table. -/
def execRrd (s : State) : Host.Outcome State Fault Refusal :=
  finish ((checkRange s.arg0 s).bind fun _ s1 =>
    let i := s1.arg0.toNat
    .ok { res0 := some (BitVec.ofNat 32 (copyMin i))
          res1 := some (BitVec.ofNat 32 (copyMax i) ||| (BitVec.ofNat 32 (copyBits i) <<< 16)) } s1)

end Sys2Proof.Machine
end

