-- ==== Sys2Proof/Machine/Flags.lean ====
section
/-! DEFINITION. Flags and status: the words STATUS, CTRL and MODE read as (10_state R32, R34, R46), the interrupt line
(60_exceptions R350), and the computation of MODE (42_match R230, R231; 43_compress R257). -/

namespace Sys2Proof.Machine

/-- R341: the 4-bit code of an error. -/
def ErrCode.code : ErrCode → BitVec 4
  | .none => 0
  | .invalidSymbol => 1
  | .streamCorruptionEof => 2
  | .streamCorruptionNullChild => 3
  | .streamCorruptionBadDistance => 4
  | .outputOverflow => 5
  | .illegalCommand => 6
  | .badArgument => 7

/-- A one-bit field at a bit position of a register. -/
def bitAt (b : Bool) (k : Nat) : Word := (BitVec.ofNat 32 b.toNat) <<< k

/-- R34: what STATUS reads as. -/
def Status.word (t : Status) : Word :=
  bitAt t.busy 0 ||| bitAt t.done 1 ||| bitAt t.err 2 ||| bitAt t.bwi 3 ||| (t.errcode.code.setWidth 32 <<< 8)

/-- R32: what CTRL reads as. -/
def Ctrl.word (c : Ctrl) : Word := bitAt c.ie 0

/-- R46: what MODE reads as. -/
def Mode.word (m : Mode) : Word := bitAt m.bin 0 ||| bitAt m.dict 1

/-- R32: what a host write leaves in CTRL. -/
def Ctrl.ofWord (v : Word) : Ctrl := { ie := v.getLsbD 0 }

/-- R46: what a host write leaves in MODE. -/
def Mode.ofWord (v : Word) : Mode := { bin := v.getLsbD 0, dict := v.getLsbD 1 }

/-- R34: a host write to STATUS while idle: a 1 clears DONE or BWI, every other bit is ignored. -/
def Status.clearWritten (t : Status) (v : Word) : Status :=
  { t with done := t.done && !v.getLsbD 1, bwi := t.bwi && !v.getLsbD 3 }

/-- R350: `IRQ = CTRL.IE and STATUS.DONE`. -/
def State.irq (s : State) : Bool := s.ctrl.ie && s.status.done

/-! ### The mode scans (R230, R231) over the first bytes of `IN` -/

/-- R230: some byte among the first `min(64, n)` exceeds 127. -/
def isBinary (s : State) : Bool :=
  (List.range (min Config.maxCopy s.inLen.toNat)).any fun t => decide (127 < (s.inByte t).toNat)

/-- R231, the inner loop: how many bytes from `i` on equal the bytes from `k` on, `k` staying below the window's end.
The first argument is the number of positions left, `window - k`. -/
def lineMatch (s : State) : Nat → Nat → Nat → Nat
  | 0, _, _ => 0
  | left + 1, i, k => if s.inByte i = s.inByte k then lineMatch s left (i + 1) (k + 1) + 1 else 0

/-- R231, the outer loop over line starts `j`; `i` is the start of the previous line. The first argument is the number of
values of `j` left. -/
def lineScan (s : State) (window : Nat) : Nat → Nat → Nat → Nat → Nat
  | 0, _, _, count => count
  | left + 1, j, i, count =>
    if s.inByte (j - 1) = 10 then lineScan s window left (j + 1) j (count + lineMatch s (window - j) i j)
    else lineScan s window left (j + 1) i count

/-- R231: the scan's line-prefix count over the first `min(67, n)` bytes. -/
def lineCount (s : State) : Nat :=
  let window := min Config.lookaheadSize s.inLen.toNat
  lineScan s window (window - 1) 1 0 0

/-- R231: `4 * count ≥ minCopy + maxCopy`. -/
def hasDictionary (s : State) : Bool := decide (Config.minCopy + Config.maxCopy ≤ 4 * lineCount s)

/-- R230, R231: MODE after the scans. -/
def scannedMode (s : State) : Mode := { bin := isBinary s, dict := hasDictionary s }

/-- R257, `DictCheck()`: the check only ever clears DICT. -/
def dictCheck (s : State) : State :=
  let outSize := s.outBitpos.toNat / 8
  if s.mode.dict = true ∧ s.bytesRead.toNat % 64 = 0 ∧ 0 < outSize ∧ s.bytesRead.toNat / outSize < 2 then
    { s with mode := { s.mode with dict := false } }
  else s

end Sys2Proof.Machine
end

