-- ==== Sys2Proof/Machine/Search.lean ====
section
/-! DEFINITION. The match finder's operations (42_match): the hash key, the insertion into a chain, and the search. -/

namespace Sys2Proof.Machine

/-! ### Hash and chain (R210 to R214) -/

/-- R210: the hash key of the three bytes at `p`. -/
def hashKey (s : State) (p : Nat) : Key :=
  ((((s.inByte p).setWidth 32 <<< 6) ^^^ ((s.inByte (p + 1)).setWidth 32 <<< 3) ^^^ (s.inByte (p + 2)).setWidth 32)
    &&& (0x3FFF : Word)).setWidth 14

/-- `head[K]` (R43). -/
def State.headAt (s : State) (k : Key) : Link := sparseGet none s.head k.toNat

/-- `next[c]` (R44); the link of a position never inserted is a free value (log 3). -/
def State.nextAt (s : State) (c : Word) : Link := (sparseFind s.next c.toNat).getD (Config.unwrittenNext c.toNat)

/-- `prev[c]` (R44); no operation of the engine reads it. -/
def State.prevAt (s : State) (c : Word) : Link := (sparseFind s.prev c.toNat).getD (Config.unwrittenPrev c.toNat)

/-- R211: a position with at least `minCopy` bytes left has a key. -/
def hasKey (s : State) (p : Nat) : Bool := decide (p + Config.minCopy ≤ s.inLen.toNat)

/-- R214, the writes of `Insert(p)` for a position with a key. -/
def linkPosition (s : State) (p : Nat) : State :=
  let w : Word := BitVec.ofNat 32 p
  let k := hashKey s p
  let h := s.headAt k
  let prev1 := sparseList s.prev w.toNat none
  { s with
    next := sparseList s.next w.toNat h
    prev := match h with
      | none => prev1
      | some c => sparseList prev1 c.toNat (some w)
    head := sparsePut none s.head k.toNat (some w) }

/-- R214, `Insert(p)`: the key, or `none` for a position that is not inserted (R211). -/
def insertPosition (s : State) (p : Nat) : Option Key × State :=
  if hasKey s p then (some (hashKey s p), linkPosition s p) else (none, s)

/-! ### The search (R221, R222) -/

/-- R222: the bound on the encoder distance, `copyMax[shortRange + MODE.BIN]`. -/
def distanceBound (s : State) : Nat := copyMax (Config.shortRange + s.mode.bin.toNat)

/-- R222, `Accept(q, c, len, best)`. -/
def acceptMatch (s : State) (q c len best : Nat) : Bool :=
  decide (Config.minCopy < len) && decide (best < len) && decide (q - c - len ≤ distanceBound s)
    && (!s.mode.dict || decide (q - c - len ≤ copyMax 0))

/-- R221, the extension: it stays before `q`, before the end of input, and below `maxCopy`. The first argument is
`maxCopy - len`. -/
def extendMatch (s : State) (q c : Nat) : Nat → Nat → Nat
  | 0, len => len
  | left + 1, len =>
    if c + len < q ∧ q + len < s.inLen.toNat ∧ s.inByte (c + len) = s.inByte (q + len) then
      extendMatch s q c left (len + 1)
    else len

/-- R221, the prefix check at the current best length. -/
def prefixAgrees (s : State) (q c best : Nat) : Bool :=
  decide (q + best < s.inLen.toNat) && decide (c + best < s.inLen.toNat)
    && decide (s.inByte (c + best) = s.inByte (q + best))

/-- R221, one candidate: the best match after it. -/
def tryCandidate (s : State) (q c : Nat) (best : Nat × Nat) : Nat × Nat :=
  if prefixAgrees s q c best.1 then
    let len := extendMatch s q c Config.maxCopy 0
    if acceptMatch s q c len best.1 then (len, q - c - len) else best
  else best

/-- R221, the walk of a chain; the first argument is the number of hops left. -/
def searchChain (s : State) (q : Nat) : Nat → Link → Nat × Nat → Nat × Nat
  | 0, _, best => best
  | _ + 1, none, best => best
  | hops + 1, some c, best => searchChain s q hops (s.nextAt c) (tryCandidate s q c.toNat best)

/-- R220, R221, `FindMatch(q, depth)`: the length and the encoder distance, `(0, 0)` for no match. -/
def findMatch (s : State) (q depth : Nat) : Nat × Nat :=
  if hasKey s q then searchChain s q depth (s.headAt (hashKey s q)) (0, 0) else (0, 0)

/-- R225: the depth of COMPRESS's search. -/
def searchDepth (s : State) : Nat := if s.mode.bin then Config.binSearch else Config.textSearch

/-- R225: the depth of COMPRESS's lazy probe. -/
def probeDepth (s : State) : Nat := if s.mode.bin then Config.binNext else Config.textNext

end Sys2Proof.Machine
end

