-- ==== Sys2Proof/Machine/Tree.lean ====
section
/-! DEFINITION. The adaptive Huffman model (41_huffman): the initial tree, the primitives over the node arena, the update,
and the walks that encode and decode a symbol. -/

namespace Sys2Proof.Machine

/-! ### The initial tree (R170) -/

/-- R170: the initial frequency of node `k`, the number of leaves below it. The first argument bounds the depth; a node
lies at depth 10 at most. -/
def initFreq : Nat → Nat → Nat
  | 0, _ => 1
  | d + 1, k => if Config.maxChar < k then 1 else initFreq d (2 * k) + initFreq d (2 * k + 1)

/-- R170: the initial node `k`; an id that names no node has no parent, no child and frequency 0 (log 17). -/
def initNode (k : Nat) : Node :=
  if 1 ≤ k ∧ k ≤ Config.twiceMax then
    { parent := if k = 1 then Config.nil else BitVec.ofNat 11 (k / 2)
      left := if k ≤ Config.maxChar then BitVec.ofNat 11 (2 * k) else Config.nil
      right := if k ≤ Config.maxChar then BitVec.ofNat 11 (2 * k + 1) else Config.nil
      freq := BitVec.ofNat 16 (initFreq 11 k) }
  else { parent := Config.nil, left := Config.nil, right := Config.nil, freq := 0 }

/-! ### Reading and writing the arena (R40) -/

/-- `node[k]` (R12). -/
def Arena.get (m : Arena) (k : NodeId) : Node := sparseGet (initNode k.toNat) m k.toNat

/-- Writing a whole node. -/
def Arena.put (m : Arena) (k : NodeId) (n : Node) : Arena := sparsePut (initNode k.toNat) m k.toNat n

/-- `node[k].freq <- f`. -/
def Arena.setFreq (m : Arena) (k : NodeId) (f : Freq) : Arena := m.put k { m.get k with freq := f }

/-- `node[k].parent <- p`. -/
def Arena.setParent (m : Arena) (k p : NodeId) : Arena := m.put k { m.get k with parent := p }

/-- `node[k].left <- c`. -/
def Arena.setLeft (m : Arena) (k c : NodeId) : Arena := m.put k { m.get k with left := c }

/-- `node[k].right <- c`. -/
def Arena.setRight (m : Arena) (k c : NodeId) : Arena := m.put k { m.get k with right := c }

/-- The canonical form of an arena: only ids 1..1257 are listed, in order, none at its initial value. -/
def Arena.wf (m : Arena) : Bool :=
  sparseWf initNode m && m.all (fun e => decide (1 ≤ e.1 ∧ e.1 ≤ Config.twiceMax))

/-- R171: `leafOf(code)`. -/
def leafOf (code : Nat) : NodeId := BitVec.ofNat 11 (code + Config.successMax)

/-- R171: `symbolOf(k)` of a leaf. -/
def symbolOf (k : NodeId) : Nat := k.toNat - Config.successMax

/-! ### Primitives (R172 to R175) -/

/-- R172: the sibling of a node that is not the root. -/
def Arena.sibling (m : Arena) (k : NodeId) : NodeId :=
  let p := (m.get k).parent
  if (m.get p).left = k then (m.get p).right else (m.get p).left

/-- R172: the uncle, the sibling of the parent. -/
def Arena.uncle (m : Arena) (k : NodeId) : NodeId := m.sibling (m.get k).parent

/-- How many steps a walk towards the root is given: a walk of the tree is shorter (R41 item 4; log 12). -/
def climbBound : Nat := Config.twiceMax

/-- R173, `Recompute(k)`: every node from `k` up to the root gets the sum of its children. -/
def Arena.recomputeFrom : Nat → Arena → NodeId → Arena
  | 0, m, _ => m
  | n + 1, m, k =>
    if k = Config.nil then m
    else
      let node := m.get k
      recomputeFrom n (m.setFreq k ((m.get node.left).freq + (m.get node.right).freq)) node.parent

/-- R173. -/
def Arena.recompute (m : Arena) (k : NodeId) : Arena := Arena.recomputeFrom climbBound m k

/-- R174, for one node. -/
def Arena.halveNode (m : Arena) (k : NodeId) : Arena := m.setFreq k ((m.get k).freq >>> 1)

/-- R174, `Halve()`: every node's frequency, leaf and internal, shifted right by one, with no recompute. -/
def Arena.halve (m : Arena) : Arena :=
  (List.range Config.twiceMax).foldl (fun m i => m.halveNode (BitVec.ofNat 11 (i + 1))) m

/-- Putting `new` in the child slot of `k` that holds `old`: the left one if it does, else the right one (R175). -/
def Arena.replaceChild (m : Arena) (k old new : NodeId) : Arena :=
  if (m.get k).left = old then m.setLeft k new else m.setRight k new

/-- R175, `Exchange(x, u)`: `x` becomes a child of its grandparent in the place of `u`, and `u` a child of `x`'s parent in
the place of `x`. -/
def Arena.exchange (m : Arena) (x u : NodeId) : Arena :=
  let p := (m.get x).parent
  let g := (m.get p).parent
  (((m.replaceChild g u x).replaceChild p x u).setParent u p).setParent x g

/-! ### The update (R176 to R178) -/

/-- R176, one comparison of the walk: exchange on a strictly greater frequency, then recompute from the parent. -/
def Arena.compareUncle (m : Arena) (cur : NodeId) : Arena :=
  let p := (m.get cur).parent
  let u := m.uncle cur
  if (m.get u).freq < (m.get cur).freq then (m.exchange cur u).recompute p else m

/-- R176, R177: the walk; it goes on from the node that was the parent before the exchange. -/
def Arena.rebalanceFrom : Nat → Arena → NodeId → Arena
  | 0, m, _ => m
  | n + 1, m, cur =>
    let p := (m.get cur).parent
    if p = Config.root then m else rebalanceFrom n (m.compareUncle cur) p

/-- R176: the walk from a leaf. -/
def Arena.rebalance (m : Arena) (leaf : NodeId) : Arena := Arena.rebalanceFrom climbBound m leaf

/-- R178: the halving check, once per update, before the walk. -/
def Arena.halveIfFull (m : Arena) : Arena :=
  if Config.maxFrequency ≤ (m.get Config.root).freq.toNat then m.halve else m

/-- R176, first lines: the leaf's increment and the recompute of its ancestors. -/
def Arena.count (m : Arena) (leaf : NodeId) : Arena :=
  let m1 := m.setFreq leaf ((m.get leaf).freq + 1)
  m1.recompute (m1.get leaf).parent

/-- R176 on the arena: what `Update(code)` makes of the tree. -/
def Arena.update (m : Arena) (code : Nat) : Arena :=
  ((m.count (leafOf code)).halveIfFull).rebalance (leafOf code)

/-- R176, `Update(code)`: INVALID_SYMBOL before any change, else the tree's update and SYMCOUNT (R48). -/
def updateModel (code : Nat) (s : State) : CmdRes Unit :=
  if Config.maxChar < code then .abort .invalidSymbol (BitVec.ofNat 32 code) s
  else .ok () { s with nodes := s.nodes.update code, symcount := s.symcount + 1 }

/-! ### Encoding and decoding one symbol (R179, R180) -/

/-- R179, the leaf-to-root walk: it pushes one bit per edge, 1 for a right child, so that the edge at the root ends on
top. -/
def Arena.climb (m : Arena) : Nat → NodeId → List Bool → List Bool
  | 0, _, stack => stack
  | n + 1, k, stack =>
    if k = Config.root then stack
    else
      let p := (m.get k).parent
      climb m n p (decide ((m.get p).right = k) :: stack)

/-- The code of a symbol in the tree as it stands: the root-to-leaf path of its leaf (R118, R179). -/
def Arena.codeOf (m : Arena) (code : Nat) : List Bool := m.climb climbBound (leafOf code) []

/-- R253, `EncodeSym(code)`: the walk fills the path stack (R51), each bit is written from the top, then the model is
updated. It answers the bits written. -/
def encodeSym (code : Nat) (s : State) : CmdRes (List Bool) :=
  let path := s.nodes.codeOf code
  (putBits path { s with pathStack := path }).bind fun _ s1 =>
    (updateModel code { s1 with pathStack := [] }).bind fun _ s2 => .ok path s2

/-- R180, the root-to-leaf walk: it answers the leaf and the number of bits read. The first argument is the number of
stream bits left; when none is left, reading one is the end-of-stream abort of R143. -/
def walkDown : Nat → NodeId → Nat → State → CmdRes (NodeId × Nat)
  | 0, k, n, s =>
    if k.toNat ≤ Config.maxChar then .abort .streamCorruptionEof s.inBitpos s else .ok (k, n) s
  | left + 1, k, n, s =>
    if k.toNat ≤ Config.maxChar then
      (getBit s).bind fun v s1 =>
        let node := s1.nodes.get k
        let k' := if v then node.right else node.left
        if k' = Config.nil then .abort .streamCorruptionNullChild s1.inBitpos s1
        else walkDown left k' (n + 1) s1
    else .ok (k, n) s

/-- R292, `DecodeSym()`: the walk, then the model's update. It answers the symbol and the number of bits read. -/
def decodeSym (s : State) : CmdRes (Nat × Nat) :=
  (walkDown (bitsLeft s) Config.root 0 s).bind fun r s1 =>
    (updateModel (symbolOf r.1) s1).bind fun _ s2 => .ok (symbolOf r.1, r.2) s2

end Sys2Proof.Machine
end

