-- ==== Sys2Proof/Machine/Compress.lean ====
section
/-! DEFINITION. COMPRESS (43_compress): the work of each state of its machine, the transitions of R250, and the command. -/

namespace Sys2Proof.Machine

/-- R256, `ReadAhead(p)`: BYTES_READ is raised one byte at a time, with the dictionary check after each. The first
argument is the number of bytes to read. -/
def readBytes : Nat → State → State
  | 0, s => s
  | n + 1, s => readBytes n (dictCheck { s with bytesRead := s.bytesRead + 1 })

/-- R256: the number of bytes `ReadAhead(p)` reads, up to `min(n, p + 67)`. -/
def aheadCount (s : State) (p : Nat) : Nat := min s.inLen.toNat (p + Config.lookaheadSize) - s.bytesRead.toNat

/-- R256, `ReadAhead(p)`. -/
def readAhead (p : Nat) (s : State) : State := readBytes (aheadCount s p) s

/-- R252, `Fill()`: the lookahead, then the mode flags, once per stream. -/
def fillLookahead (s : State) : State :=
  let s1 := readAhead 0 s
  { s1 with mode := scannedMode s1 }

/-- R254, `Lazy(p)`: a match is given up when the probe one position later finds one at least as long. -/
def lazyMatch (s : State) (p : Nat) : Nat × Nat :=
  let r := findMatch s p (searchDepth s)
  if 0 < r.1 ∧ r.1 ≤ (findMatch s (p + 1) (probeDepth s)).1 then (0, 0) else r

/-- R258, `EmitCopy(len, dist)`: the copy code, then the field, LSB first. -/
def emitCopy (len dist : Nat) (s : State) : CmdRes Unit :=
  let i := rangeOf dist
  (encodeSym (copyCode i len) s).bind fun _ s1 =>
    putField (BitVec.ofNat 32 (dist - copyMin i)) (copyBits i) s1

/-- R255, R260, one DECIDE step at a position below `n`: the position is inserted, then a copy is emitted and consumed in
COPY, or a literal is emitted and the position advances. -/
def decideStep (p : Word) (s : State) : CmdRes Unit :=
  let s1 := (insertPosition s p.toNat).2
  let r := lazyMatch s1 p.toNat
  if 0 < r.1 then
    (emitCopy r.1 r.2 s1).bind fun _ s2 =>
      .ok () { s2 with seq := .copy p (BitVec.ofNat 32 r.1) (BitVec.ofNat 32 r.2) (BitVec.ofNat 32 r.1) }
  else
    (encodeSym (s1.inByte p.toNat).toNat s1).bind fun _ s2 =>
      .ok () { readAhead (p.toNat + 1) s2 with seq := .decide (p + 1) }

/-- R259, `CopyStep()`: one position of the match is consumed; every position inside the match is inserted, the one after
it is left to the next DECIDE. -/
def copyStep (p len dist rest : Word) (s : State) : State :=
  let s1 := readAhead (p.toNat + 1) s
  if rest = 1 then { s1 with seq := .decide (p + 1) }
  else { (insertPosition s1 (p.toNat + 1)).2 with seq := .copy (p + 1) len dist (rest - 1) }

/-- R263, `FlushStream()`: the terminator through the model, then zero padding. -/
def flushStream (s : State) : CmdRes Unit :=
  (encodeSym Config.terminateCode s).bind fun _ s1 => (flush s1).bind fun _ s2 => .ok () s2

/-- One transition of R250. A state that is not one of COMPRESS's, and its DONE, has none. -/
def compressStep (s : State) : CmdRes Unit :=
  match s.seq with
  | .fill =>
    let s1 := fillLookahead s
    .ok () { s1 with seq := if s1.inLen = 0 then .flush else .decide 0 }
  | .decide p => if p.toNat < s.inLen.toNat then decideStep p s else .ok () { s with seq := .flush }
  | .copy p len dist rest => .ok () (copyStep p len dist rest s)
  | .flush => (flushStream s).bind fun _ s1 => .ok () { s1 with seq := .compressDone }
  | _ => .ok () s

/-- A number of transitions, fewer when DONE is reached before. -/
def compressLoop : Nat → State → CmdRes Unit
  | 0, s => .ok () s
  | n + 1, s =>
    if s.seq = .compressDone then .ok () s else (compressStep s).bind fun _ s1 => compressLoop n s1

/-- A bound on the transitions of R250 from FILL: each DECIDE or COPY raises `p` or consumes a position (R262, R383;
log 12). -/
def compressBound (s : State) : Nat := 2 * s.inLen.toNat + 4

/-- COMPRESS from the state of its machine that `seq` names to its end: RES0 is OUT_LEN, RES1 is SYMCOUNT (R251). -/
def runCompress (s : State) : CmdRes Results :=
  (compressLoop (compressBound s) s).bind fun _ s1 => .ok { res0 := some s1.outLen, res1 := some s1.symcount } s1

/-- COMPRESS (R251): the IN_LEN check before anything changes, InitState, then the machine from FILL. -/
def execCompress (s : State) : Host.Outcome State Fault Refusal :=
  finish ((checkInLen s).bind fun _ s1 => runCompress { s1.initState with seq := .fill })

end Sys2Proof.Machine
end

