-- ==== Sys2Proof/Machine/Control.lean ====
section
/-! DEFINITION. The control commands NOP and INIT (45_control). -/

namespace Sys2Proof.Machine

/-- NOP (R320): it starts and completes. -/
def execNop (s : State) : Host.Outcome State Fault Refusal := finish (.ok { } s)

/-- INIT (R321): `InitState(); RES0 <- 0; RES1 <- 0`. -/
def execInit (s : State) : Host.Outcome State Fault Refusal :=
  finish (.ok { res0 := some 0, res1 := some 0 } s.initState)

end Sys2Proof.Machine
end

