-- ==== Sys2Proof/Machine/Decompress.lean ====
section
/-! DEFINITION. DECOMPRESS (44_decompress): the work of each state of its machine, the transitions of R290, and the
command. -/

namespace Sys2Proof.Machine

/-- R290: the state DECODE_CODE goes to on a decoded symbol. -/
def afterDecode (code : Nat) : Seq :=
  if code = Config.terminateCode then .decompressDone
  else if code < Config.terminateCode then .emitLiteral (BitVec.ofNat 32 code)
  else
    .copyBackref { code := BitVec.ofNat 32 code
                   range := BitVec.ofNat 32 (copyCodeRange code)
                   length := BitVec.ofNat 32 (copyCodeLength code)
                   field := 0
                   distance := 0
                   left := BitVec.ofNat 32 (copyCodeLength code) }

/-- R296, the byte-by-byte copy: each step reads the byte `distance` back from the current end of the output, after the
write before it (R93). The first argument is the number of bytes left. -/
def copyBytes : Nat → Backref → State → CmdRes Unit
  | 0, _, s => .ok () s
  | n + 1, r, s =>
    let x := s.outByte (s.outBitpos.toNat / 8 - r.distance.toNat)
    (putByte x s).bind fun _ s1 =>
      let r1 := { r with left := BitVec.ofNat 32 n }
      copyBytes n r1 { s1 with seq := .copyBackref r1 }

/-- R294 to R296, COPY_BACKREF: the field, the distance check, the overflow check for the whole copy, then the bytes. -/
def copyBackrefStep (r : Backref) (s : State) : CmdRes Unit :=
  (getField (copyBits r.range.toNat) s).bind fun field s1 =>
    let distance := field + r.length.toNat + copyMin r.range.toNat
    let r1 := { r with field := BitVec.ofNat 32 field, distance := BitVec.ofNat 32 distance }
    let o := s1.outBitpos.toNat / 8
    (require (decide (distance ≤ o)) .streamCorruptionBadDistance (BitVec.ofNat 32 distance) s1).bind fun _ s2 =>
      (require (decide (o + r.length.toNat ≤ s2.cfg.outMemBytes)) .outputOverflow s2.outBitpos s2).bind fun _ s3 =>
        (copyBytes r.length.toNat r1 { s3 with seq := .copyBackref r1 }).bind fun _ s4 =>
          .ok () { s4 with seq := .decodeCode }

/-- One transition of R290. A state that is not one of DECOMPRESS's, and its DONE, has none. -/
def decompressStep (s : State) : CmdRes Unit :=
  match s.seq with
  | .decodeCode => (decodeSym s).bind fun r s1 => .ok () { s1 with seq := afterDecode r.1 }
  | .emitLiteral code => (putByte (code.setWidth 8) s).bind fun _ s1 => .ok () { s1 with seq := .decodeCode }
  | .copyBackref r => copyBackrefStep r s
  | _ => .ok () s

/-- A number of transitions, fewer when DONE is reached before. -/
def decompressLoop : Nat → State → CmdRes Unit
  | 0, s => .ok () s
  | n + 1, s =>
    if s.seq = .decompressDone then .ok () s else (decompressStep s).bind fun _ s1 => decompressLoop n s1

/-- A bound on the transitions of R290: every DECODE_CODE reads a bit, and one transition stands between two of them
(R383; log 12). -/
def decompressBound (s : State) : Nat := 2 * bitsLeft s + 4

/-- DECOMPRESS from the state of its machine that `seq` names to its end: RES0 is OUT_LEN, RES1 is IN_BITPOS (R291). -/
def runDecompress (s : State) : CmdRes Results :=
  (decompressLoop (decompressBound s) s).bind fun _ s1 => .ok { res0 := some s1.outLen, res1 := some s1.inBitpos } s1

/-- DECOMPRESS (R291): the IN_LEN check before anything changes, InitState, then the machine from DECODE_CODE. -/
def execDecompress (s : State) : Host.Outcome State Fault Refusal :=
  finish ((checkInLen s).bind fun _ s1 => runDecompress { s1.initState with seq := .decodeCode })

end Sys2Proof.Machine
end

