-- ==== Sys2Proof/Machine/Huffman.lean ====
section
/-! DEFINITION. The Huffman commands MUPD, HENC, HDEC and NREAD (41_huffman). -/

namespace Sys2Proof.Machine

/-- MUPD (R184): `Update(code)`; RES0 is the leaf's new frequency, RES1 the root's. -/
def execMupd (s : State) : Host.Outcome State Fault Refusal :=
  finish ((checkSymbol s.arg0 s).bind fun _ s1 =>
    (updateModel s1.arg0.toNat s1).bind fun _ s2 =>
      .ok { res0 := some ((s2.nodes.get (leafOf s2.arg0.toNat)).freq.setWidth 32)
            res1 := some ((s2.nodes.get Config.root).freq.setWidth 32) } s2)

/-- HENC (R179): the symbol's code is written and the model updated; RES0 is the length, RES1 the last
`min(L, 32)` bits, last bit in bit 0. -/
def execHenc (s : State) : Host.Outcome State Fault Refusal :=
  finish ((checkSymbol s.arg0 s).bind fun _ s1 =>
    (encodeSym s1.arg0.toNat s1).bind fun path s2 =>
      .ok { res0 := some (BitVec.ofNat 32 path.length), res1 := some (BitVec.ofNat 32 (natOfBitsMsb path)) } s2)

/-- HDEC (R180): one symbol is read and the model updated; RES0 is the symbol, RES1 the number of bits. -/
def execHdec (s : State) : Host.Outcome State Fault Refusal :=
  finish ((checkInLen s).bind fun _ s1 =>
    (decodeSym s1).bind fun r s2 =>
      .ok { res0 := some (BitVec.ofNat 32 r.1), res1 := some (BitVec.ofNat 32 r.2) } s2)

/-- NREAD (R182): one node; it changes no state but the results. -/
def execNread (s : State) : Host.Outcome State Fault Refusal :=
  finish ((checkNodeId s.arg0 s).bind fun _ s1 =>
    let n := s1.nodes.get (s1.arg0.setWidth 11)
    .ok { res0 := some (n.freq.setWidth 32 ||| (n.parent.setWidth 32 <<< 16))
          res1 := some (n.left.setWidth 32 ||| (n.right.setWidth 32 <<< 16)) } s1)

end Sys2Proof.Machine
end

