-- ==== Sys2Proof/Machine/MatchFinder.lean ====
section
/-! DEFINITION. The match-finder commands HINS, FMAT and MSCAN (42_match). -/

namespace Sys2Proof.Machine

/-- What HINS writes to RES0 (R215): the key, or `0xFFFFFFFF` for a position that was not inserted. -/
def keyWord : Option Key → Word
  | some k => k.setWidth 32
  | none => noneWord

/-- HINS (R215): `p = ARG0`. -/
def execHins (s : State) : Host.Outcome State Fault Refusal :=
  finish ((checkInLen s).bind fun _ s1 =>
    (checkPosition s1.arg0 s1).bind fun _ s2 =>
      let r := insertPosition s2 s2.arg0.toNat
      .ok { res0 := some (keyWord r.1) } r.2)

/-- FMAT (R223): `q = ARG0`, `depth = ARG1`; it writes no state but the results. -/
def execFmat (s : State) : Host.Outcome State Fault Refusal :=
  finish ((checkInLen s).bind fun _ s1 =>
    (checkPosition s1.arg0 s1).bind fun _ s2 =>
      let r := findMatch s2 s2.arg0.toNat s2.arg1.toNat
      .ok { res0 := some (BitVec.ofNat 32 r.1), res1 := some (BitVec.ofNat 32 r.2) } s2)

/-- MSCAN (R232): the mode scans; RES0 is MODE after them, RES1 the line-prefix count. -/
def execMscan (s : State) : Host.Outcome State Fault Refusal :=
  finish ((checkInLen s).bind fun _ s1 =>
    .ok { res0 := some (scannedMode s1).word, res1 := some (BitVec.ofNat 32 (lineCount s1)) }
      { s1 with mode := scannedMode s1 })

end Sys2Proof.Machine
end

