-- ==== Sys2Proof/Machine/Dispatch.lean ====
section
/-! DEFINITION. Which meaning each command has. -/

namespace Sys2Proof.Machine

def exec (i : Instr) (s : State) : Host.Outcome State Fault Refusal :=
  match i with
  | .nop => Sys2Proof.Machine.execNop s
  | .init => Sys2Proof.Machine.execInit s
  | .compress => Sys2Proof.Machine.execCompress s
  | .decompress => Sys2Proof.Machine.execDecompress s
  | .mupd => Sys2Proof.Machine.execMupd s
  | .henc => Sys2Proof.Machine.execHenc s
  | .hdec => Sys2Proof.Machine.execHdec s
  | .nread => Sys2Proof.Machine.execNread s
  | .putf => Sys2Proof.Machine.execPutf s
  | .getf => Sys2Proof.Machine.execGetf s
  | .flsh => Sys2Proof.Machine.execFlsh s
  | .rfnd => Sys2Proof.Machine.execRfnd s
  | .rrd => Sys2Proof.Machine.execRrd s
  | .hins => Sys2Proof.Machine.execHins s
  | .fmat => Sys2Proof.Machine.execFmat s
  | .mscan => Sys2Proof.Machine.execMscan s

end Sys2Proof.Machine
end

