-- ==== Sys2Proof/Machine/Bus.lean ====
section
/-! DEFINITION. The engine step and the host steps (70_reset R382): the register block (10_state R30 to R39, R46 to R49),
accesses while BUSY (R384 to R386), the memories as the host sees them, and the reset input (R370, R371). -/

namespace Sys2Proof.Machine

/-! ### The engine step -/

/-- R382: the whole effect of the running command, to its completion or abort. An idle engine waits (R362, R372). An
illegal word aborts with ILLEGAL_COMMAND and the word as info (R116). A state inside COMPRESS or DECOMPRESS, which no step
leaves behind, goes on to its end (log 14). -/
def engineStep (s : State) : Host.Outcome State Fault Refusal :=
  match s.seq with
  | .idle => .next s
  | .run w =>
    match decode w with
    | .ok i => exec i s
    | .error _ => .next (s.raise .illegalCommand w)
  | .fill => finish (runCompress s)
  | .decide _ => finish (runCompress s)
  | .copy _ _ _ _ => finish (runCompress s)
  | .flush => finish (runCompress s)
  | .compressDone => finish (runCompress s)
  | .decodeCode => finish (runDecompress s)
  | .emitLiteral _ => finish (runDecompress s)
  | .copyBackref _ => finish (runDecompress s)
  | .decompressDone => finish (runDecompress s)

/-- The state the running command ends in. -/
def afterEngine (s : State) : State :=
  match engineStep s with
  | .next t => t
  | .fault _ => s
  | .refused _ => s

/-! ### The register block -/

/-- R30: the byte offset of a register. -/
def Reg.offset : Reg → Nat
  | .id => 0x00
  | .ctrl => 0x04
  | .cmd => 0x08
  | .status => 0x0C
  | .arg0 => 0x10
  | .arg1 => 0x14
  | .res0 => 0x18
  | .res1 => 0x1C
  | .inLen => 0x20
  | .outLen => 0x24
  | .outBitpos => 0x28
  | .inBitpos => 0x2C
  | .errinfo => 0x30
  | .mode => 0x34
  | .symcount => 0x38
  | .bytesRead => 0x3C

/-- R30: the register at a byte offset; none at the reserved offsets. -/
def regAt (offset : Nat) : Option Reg :=
  match offset with
  | 0x00 => some .id
  | 0x04 => some .ctrl
  | 0x08 => some .cmd
  | 0x0C => some .status
  | 0x10 => some .arg0
  | 0x14 => some .arg1
  | 0x18 => some .res0
  | 0x1C => some .res1
  | 0x20 => some .inLen
  | 0x24 => some .outLen
  | 0x28 => some .outBitpos
  | 0x2C => some .inBitpos
  | 0x30 => some .errinfo
  | 0x34 => some .mode
  | 0x38 => some .symcount
  | 0x3C => some .bytesRead
  | _ => none

/-- What a register reads as; a read has no side effect (R90). -/
def State.readReg (s : State) : Reg → Word
  | .id => Config.idWord
  | .ctrl => s.ctrl.word
  | .cmd => 0
  | .status => s.status.word
  | .arg0 => s.arg0
  | .arg1 => s.arg1
  | .res0 => s.res0
  | .res1 => s.res1
  | .inLen => s.inLen
  | .outLen => s.outLen
  | .outBitpos => s.outBitpos
  | .inBitpos => s.inBitpos
  | .errinfo => s.errinfo
  | .mode => s.mode.word
  | .symcount => s.symcount
  | .bytesRead => s.bytesRead

/-- A host write while idle: RW registers take the value, CMD starts the command, STATUS clears its W1C bits, a
read-only register is unchanged (R30 to R35, R37, R46). -/
def State.writeReg (s : State) (r : Reg) (v : Word) : State :=
  match r with
  | .id => s
  | .ctrl => { s with ctrl := Ctrl.ofWord v }
  | .cmd => s.startCommand v
  | .status => { s with status := s.status.clearWritten v }
  | .arg0 => { s with arg0 := v }
  | .arg1 => { s with arg1 := v }
  | .res0 => s
  | .res1 => s
  | .inLen => { s with inLen := v }
  | .outLen => s
  | .outBitpos => s
  | .inBitpos => s
  | .errinfo => s
  | .mode => { s with mode := Mode.ofWord v }
  | .symcount => s
  | .bytesRead => s

/-- R384: the registers whose read while BUSY returns the command's start value or its end value. -/
def Reg.openWhileBusy : Reg → Bool
  | .res0 => true
  | .res1 => true
  | .errinfo => true
  | .outLen => true
  | .outBitpos => true
  | .inBitpos => true
  | .mode => true
  | .symcount => true
  | .bytesRead => true
  | .id => false
  | .ctrl => false
  | .cmd => false
  | .status => false
  | .arg0 => false
  | .arg1 => false
  | .inLen => false

/-- R30, R91: the offset of a host address inside the 256-byte window at ENGINE_BASE. -/
def windowOffset (c : Config.Platform) (addr : Nat) : Option Nat :=
  if c.engineBase ≤ addr ∧ addr < c.engineBase + 256 then some (addr - c.engineBase) else none

/-- R86: an aligned 32-bit access. -/
def alignedWord (offset size : Nat) : Bool := decide (size = 4) && decide (offset % 4 = 0)

/-- The host read returns `v`. -/
def State.returns (s : State) (v : Word) : State := { s with readData := v }

/-- R384: a read while BUSY of a register the command may write returns its start value or its end value; which one is a
free value (log 6). -/
def State.readOpen (s : State) (r : Reg) : State :=
  let v := if Config.busyReadSeesEnd s.freeCount then (afterEngine s).readReg r else s.readReg r
  { s with readData := v, freeCount := s.freeCount + 1 }

/-- A read of a register, idle or while BUSY. -/
def State.hostReadReg (s : State) (r : Reg) : State :=
  if s.status.busy && r.openWhileBusy then s.readOpen r else s.returns (s.readReg r)

/-- A bus read: an access that is not an aligned word reads 0, as a reserved offset does (R30, R86). -/
def hostBusRead (addr size : Nat) (s : State) : Host.Outcome State Fault Refusal :=
  match windowOffset s.cfg addr with
  | none => .fault .outsideWindow
  | some offset =>
    if alignedWord offset size then
      match regAt offset with
      | some r => .next (s.hostReadReg r)
      | none => .next (s.returns 0)
    else .next (s.returns 0)

/-- A register write at an aligned offset: while BUSY it is dropped and BWI is set, at any offset (R385); while idle a
reserved offset ignores it (R30). -/
def State.hostWriteOffset (s : State) (offset : Nat) (v : Word) : State :=
  if s.status.busy then { s with status := { s.status with bwi := true } }
  else
    match regAt offset with
    | some r => s.writeReg r v
    | none => s

/-- A bus write: an access that is not an aligned word is ignored and has no other effect (R86, log 11). -/
def hostBusWrite (addr size : Nat) (v : Word) (s : State) : Host.Outcome State Fault Refusal :=
  match windowOffset s.cfg addr with
  | none => .fault .outsideWindow
  | some offset => if alignedWord offset size then .next (s.hostWriteOffset offset v) else .next s

/-! ### The memories as the host sees them -/

/-- A host read of `IN[a]` (R80, R90); the engine never writes `IN`, so BUSY does not matter. -/
def hostInRead (a : Nat) (s : State) : Host.Outcome State Fault Refusal :=
  if a < s.cfg.inMemBytes then .next (s.returns ((s.inByte a).setWidth 32)) else .fault .noSuchByte

/-- A host write of `IN[a]`; while BUSY there is no such step (R386, log 9). -/
def hostInWrite (a : Nat) (b : Byte) (s : State) : Host.Outcome State Fault Refusal :=
  if s.cfg.inMemBytes ≤ a then .fault .noSuchByte
  else if s.status.busy then .fault .memoryWriteWhileBusy
  else .next (s.setInByte a b)

/-- A host read of `OUT[a]`; while BUSY it returns a free value (R98, log 7). -/
def hostOutRead (a : Nat) (s : State) : Host.Outcome State Fault Refusal :=
  if s.cfg.outMemBytes ≤ a then .fault .noSuchByte
  else if s.status.busy then
    .next { s with readData := (Config.busyOutByte s.freeCount a).setWidth 32, freeCount := s.freeCount + 1 }
  else .next (s.returns ((s.outByte a).setWidth 32))

/-- A host write of `OUT[a]`; while BUSY there is no such step (R386, log 9). -/
def hostOutWrite (a : Nat) (b : Byte) (s : State) : Host.Outcome State Fault Refusal :=
  if s.cfg.outMemBytes ≤ a then .fault .noSuchByte
  else if s.status.busy then .fault .memoryWriteWhileBusy
  else .next (s.setOutByte a b)

/-! ### The reset input (R370, R371) -/

/-- Where the bit writer stood when the running command began to write: COMPRESS and DECOMPRESS start at 0 once their
operand check has passed (R251, R291). -/
def writerStart (s : State) : Nat :=
  match s.seq with
  | .run w =>
    if (decode w = .ok .compress ∨ decode w = .ok .decompress) ∧ s.inLen.toNat ≤ s.cfg.inMemBytes then 0
    else s.outBitpos.toNat
  | _ => s.outBitpos.toNat

/-- The bytes of `OUT` from the first on, as many as said, become free values. -/
def tearOut (draw first : Nat) : Nat → Memory → Memory
  | 0, m => m
  | n + 1, m => tearOut draw (first + 1) n (memPut m first (Config.tornOutByte draw first))

/-- R371, 93 item 15: after a reset during a command, `OUT` holds any value in the bytes the command could have written
(log 8), and what it held elsewhere. -/
def outAfterReset (s : State) : Memory :=
  if s.status.busy then
    let first := writerStart s / 8
    let stop := ((afterEngine s).outBitpos.toNat + 7) / 8
    if writerStart s < (afterEngine s).outBitpos.toNat then tearOut s.freeCount first (stop - first) s.outMem
    else s.outMem
  else s.outMem

/-- R370, R371: reset ends the running command at once. Memory contents are not engine state; the links are unspecified
after it and keep what they held (log 3). -/
def State.hardwareReset (s : State) : State :=
  { State.resetOn s.cfg with
    next := s.next
    prev := s.prev
    inMem := s.inMem
    outMem := outAfterReset s
    agenda := s.agenda
    readData := s.readData
    freeCount := s.freeCount + 1 }

/-- One event of the agenda (R382). R370 gives reset a span and is silent on host accesses inside it; DESIGN CHOICE
(log 19): reset is one event, with no span and no access inside it. -/
def takeEvent (e : Event) (s : State) : Host.Outcome State Fault Refusal :=
  match e with
  | .engine => engineStep s
  | .reset => .next s.hardwareReset
  | .busRead addr size => hostBusRead addr size s
  | .busWrite addr size v => hostBusWrite addr size v s
  | .inRead a => hostInRead a s
  | .inWrite a b => hostInWrite a b s
  | .outRead a => hostOutRead a s
  | .outWrite a b => hostOutWrite a b s

end Sys2Proof.Machine
end

