-- ==== Sys2Proof/Machine/Step.lean ====
section
/-! DEFINITION. One step of the machine (70_reset R382): the next event of the agenda, or the engine's step when no event
is left; and where the next instruction stands. -/

namespace Sys2Proof.Machine

/-- One step: a host step or the engine step, as the agenda says (log 4). With nothing on the agenda the engine moves. -/
def step (s : State) : Host.Outcome State Fault Refusal :=
  match s.agenda with
  | [] => engineStep s
  | e :: rest => takeEvent e { s with agenda := rest }

/-- The command word is where the engine takes its next command from: `seq = RUN(w)` after the start actions of R113, with
the engine's turn first on the agenda (log 5). -/
def State.withFetchWord (s : State) (nbits w : Nat) : State :=
  { s.startCommand (tableWord nbits w) with agenda := .engine :: s.agenda }

end Sys2Proof.Machine
end

