-- ==== Sys2Proof/Machine/Stream.lean ====
section
/-! DEFINITION. The compressed stream as data: the grammar of 30_encoding R118, the bits it stands for, and the bytes it
decodes to. The engine does not use this file; claims about COMPRESS and DECOMPRESS are stated with it. -/

namespace Sys2Proof.Machine

/-- One item of the stream (R118): a literal byte, or a copy with its range, length and field. -/
inductive Item where
  | literal (b : Byte)
  | copy (range len field : Nat)
deriving DecidableEq, Repr

/-- The symbol that codes an item (R8, R119). -/
def Item.symbol : Item → Nat
  | .literal b => b.toNat
  | .copy range len _ => copyCode range len

/-- The bits that follow an item's code: a copy's field, LSB first (R118, R144). -/
def Item.fieldPart : Item → List Bool
  | .literal _ => []
  | .copy range _ field => fieldBits (BitVec.ofNat 32 field) (copyBits range)

/-- The back-offset of a copy: `field + length + copyMin[i]` (R120, R294). -/
def Item.backOffset : Item → Nat
  | .literal _ => 0
  | .copy range len field => field + len + copyMin range

/-- R118: every code is the one of the model's state, which the item's symbol then updates; the terminator's code ends
the stream. -/
def streamBits : Arena → List Item → List Bool
  | m, [] => m.codeOf Config.terminateCode
  | m, it :: its => m.codeOf it.symbol ++ it.fieldPart ++ streamBits (m.update it.symbol) its

/-- The bytes after an item, from the bytes before it (R293, R296). A back-offset is never smaller than the length, so the
source bytes all lie before the copy. -/
def Item.extend (out : List Byte) : Item → List Byte
  | .literal b => out ++ [b]
  | .copy range len field => out ++ (out.drop (out.length - (field + len + copyMin range))).take len

/-- The bytes a list of items decodes to, after `out`. -/
def expandItems : List Byte → List Item → List Byte
  | out, [] => out
  | out, it :: its => expandItems (it.extend out) its

/-- A legal item after `out`: a copy has a range 0..5, a length 3..64, a field of its range's width, and its source lies
inside the output (R8, R294, R295). -/
def Item.legal (out : List Byte) : Item → Bool
  | .literal _ => true
  | .copy range len field =>
    decide (range < Config.copyRanges) && decide (Config.minCopy ≤ len) && decide (len ≤ Config.maxCopy)
      && decide (field < 2 ^ copyBits range) && decide (field + len + copyMin range ≤ out.length)

/-- Every item is legal where it stands. -/
def legalItems : List Byte → List Item → Bool
  | _, [] => true
  | out, it :: its => it.legal out && legalItems (it.extend out) its

end Sys2Proof.Machine
end

