-- ==== Sys2Proof/Safety.lean ====
section
/-! DEFINITION. The terms claims are stated in: stream bits, the exchange walk, what COMPRESS chooses, the invariants of the
state, what a host may do, and which errors a command may report. -/

namespace Sys2Proof.Machine

/-! ### Streams as a host sees them -/

/-- R84: stream bit `b` of `OUT`. -/
def State.outBit (s : State) (b : Nat) : Bool := (s.outByte (b / 8)).getLsbD (7 - b % 8)

/-- R84: stream bit `b` of `IN`. -/
def State.inBit (s : State) (b : Nat) : Bool := (s.inByte (b / 8)).getLsbD (7 - b % 8)

/-- The stream bits of `IN` from bit `b` on, as many as said. -/
def State.inBits (s : State) (b n : Nat) : List Bool := (List.range n).map fun k => s.inBit (b + k)

/-- The first `n` bytes of `IN`. -/
def State.inBytes (s : State) (n : Nat) : List Byte := (List.range n).map s.inByte

/-- What stands at stream bit `b` of the writer's partial byte, the byte that holds both written and unwritten bits. The
writer or-s its bits in (R140), so a 1 that the host left there stays. -/
def State.staleBit (s : State) (b : Nat) : Bool :=
  decide (s.outBitpos.toNat % 8 ≠ 0 ∧ b / 8 = s.outBitpos.toNat / 8) && s.outBit b

/-- From `s` to `t` the bit writer has written the bits `vs` at the cursor (R140): the cursor moves past them; in the bytes
it touches they stand at their places and the bits after them are 0 (a stale 1 of the first, partial byte apart); the bits
before the cursor and every byte after the last touched one read as before. -/
def WritesBits (s t : State) (vs : List Bool) : Prop :=
  let pos := s.outBitpos.toNat
  t.outBitpos.toNat = pos + vs.length
    ∧ (∀ b, pos ≤ b → b < 8 * ((pos + vs.length + 7) / 8) → t.outBit b = (vs.getD (b - pos) false || s.staleBit b))
    ∧ (∀ b, b < pos → t.outBit b = s.outBit b)
    ∧ (∀ a, (pos + vs.length + 7) / 8 ≤ a → t.outByte a = s.outByte a)

/-- `OUT` holds the bytes `bs` from its start on, and from there on what it held in `s`. -/
def HoldsBytes (s t : State) (bs : List Byte) : Prop :=
  ∀ a, t.outByte a = if a < bs.length then bs.getD a 0 else s.outByte a

/-- The bits of a partial last output byte that the writer has not reached are 0 (R99, R140). -/
def TailClear (s : State) : Prop :=
  ∀ b, s.outBitpos.toNat ≤ b → b < 8 * ((s.outBitpos.toNat + 7) / 8) → s.outBit b = false

/-! ### How a command ends -/

/-- A completed command (R114): IDLE, not BUSY, DONE, and nothing left on the path stack (R51). -/
def State.afterCompletion (s : State) : State :=
  { s with seq := .idle, pathStack := [], status := { s.status with busy := false, done := true } }

/-- An aborted command (R340): the report, then as a completed one. -/
def State.afterAbort (s : State) (e : ErrCode) (info : Word) : State :=
  { s with
    errinfo := info
    seq := .idle
    pathStack := []
    status := { s.status with errcode := e, err := true, busy := false, done := true } }

/-! ### The Huffman tree, the match search and the stream in the words of the rules -/

/-- The node a list of bits leads to: 1 to the right child, 0 to the left one (R118, R180). -/
def Arena.descend (m : Arena) : NodeId → List Bool → NodeId
  | k, [] => k
  | k, v :: vs => Arena.descend m (if v then (m.get k).right else (m.get k).left) vs

/-- The positions a chain walk of at most `hops` hops meets, in order (R212, R221). -/
def chainFrom (s : State) : Nat → Link → List Word
  | 0, _ => []
  | _ + 1, none => []
  | hops + 1, some c => c :: chainFrom s hops (s.nextAt c)

/-- The candidates of a search from `q`: none from a position without a key (R211, R221). -/
def candidates (s : State) (q depth : Nat) : List Word :=
  if q + 3 ≤ s.inLen.toNat then chainFrom s depth (s.headAt (hashKey s q)) else []

/-- The bytes from `c` on agree with those from `q` on over `len` bytes and no further, within 64 bytes, before `q`, and
before the end of input (R221). -/
def IsMatchLength (s : State) (q c len : Nat) : Prop :=
  len ≤ 64 ∧ c + len ≤ q ∧ q + len ≤ s.inLen.toNat ∧ (∀ t, t < len → s.inByte (c + t) = s.inByte (q + t))
    ∧ (len = 64 ∨ c + len = q ∨ q + len = s.inLen.toNat ∨ s.inByte (c + len) ≠ s.inByte (q + len))

/-- A match that R222 accepts in a mode when nothing better is known: at least 4 bytes, the gap inside the mode's bound,
and inside the first range in dictionary mode. -/
def IsMatch (s : State) (mode : Mode) (q c len : Nat) : Prop :=
  IsMatchLength s q c len ∧ 4 ≤ len ∧ q - c - len ≤ (if mode.bin then 5455 else 1359)
    ∧ (mode.dict = true → q - c - len ≤ 15)

/-- What a search from `q` over a chain finds (R220 to R224): the length and the gap of the longest match, of the earliest
candidate among equals, or `(0, 0)` when no candidate has one. -/
def BestMatch (s : State) (mode : Mode) (q : Nat) (chain : List Nat) (len dist : Nat) : Prop :=
  (len = 0 ∧ dist = 0 ∧ ∀ c ∈ chain, ∀ l, ¬ IsMatch s mode q c l)
    ∨ (4 ≤ len ∧ len ≤ 64 ∧ ∃ j c : Nat, chain[j]? = some c ∧ IsMatch s mode q c len ∧ dist = q - c - len
      ∧ ∀ j' c' l : Nat, chain[j']? = some c' → IsMatch s mode q c' l → l < len ∨ (l = len ∧ j ≤ j'))

/-- The line starts after position 0 in the first `min(67, n)` bytes of `IN` (R231). -/
def lineStarts (s : State) : List Nat :=
  (List.range (min 67 s.inLen.toNat)).filter fun j => decide (1 ≤ j) && decide (s.inByte (j - 1) = 10)

/-- How many bytes from `i` on equal the bytes from `j` on, inside the first `min(67, n)` bytes (R231). -/
def commonPrefix (s : State) (i j : Nat) : Nat :=
  ((List.range (min 67 s.inLen.toNat - j)).takeWhile fun m => decide (s.inByte (i + m) = s.inByte (j + m))).length

/-- The count of R231: over the line starts, how far each line agrees with the one before it. -/
def lineAgreement (s : State) : Nat :=
  (((0 :: lineStarts s).zip (lineStarts s)).map fun e => commonPrefix s e.1 e.2).sum

/-- MODE after the scans of R230 and R231. -/
def startMode (s : State) : Mode where
  bin := (List.range (min 64 s.inLen.toNat)).any fun k => decide (127 < (s.inByte k).toNat)
  dict := decide (67 ≤ 4 * lineAgreement s)

/-- The bits of a list of items, without a terminator, each code in the model as it stands (R118). -/
def itemBits : Arena → List Item → List Bool
  | _, [] => []
  | m, it :: its => m.codeOf it.symbol ++ it.fieldPart ++ itemBits (m.update it.symbol) its

/-- The model after a list of items (R118, R300). -/
def itemsModel (m : Arena) (its : List Item) : Arena := its.foldl (fun m it => m.update it.symbol) m

/-- `IN` begins with these stream bits. -/
def InBeginsWith (s : State) (bits : List Bool) : Prop := ∀ b, b < bits.length → s.inBit b = bits.getD b false

/-! ### A stream that stops after a number of bits -/

/-- A copy that the grammar can write, wherever its source lies: a range 0..5, a length 3..64, a field of its range's width
(R8, R118, R119). -/
def Item.Codable : Item → Prop
  | .literal _ => True
  | .copy range len field => range ≤ 5 ∧ 3 ≤ len ∧ len ≤ 64 ∧ field < 2 ^ copyBits range

/-- What may come next in a stream, an item or the terminator: its code, in the model as it stands. -/
def nextCode (m : Arena) : Option Item → List Bool
  | none => m.codeOf 256
  | some it => m.codeOf it.symbol

/-- Its code and, for a copy, its field (R118). -/
def nextBits (m : Arena) : Option Item → List Bool
  | none => nextCode m none
  | some it => nextCode m (some it) ++ it.fieldPart

/-- The items whose symbols are counted when a stream of these items stops at bit `stop`, before the end of what comes next:
what comes next is among them only when the stop lies in its field, past its whole code (R343). -/
def countedItems (items : List Item) (next : Option Item) (stop : Nat) : List Item :=
  if (itemBits [] items).length + (nextCode (itemsModel [] items) next).length ≤ stop then items ++ next.toList else items

/-- Of the items of a stream of which `stop` bits are there, the first `k` lie whole before the cut, and no more. -/
def CutAfter (items : List Item) (stop k : Nat) : Prop :=
  k ≤ items.length ∧ (itemBits [] (items.take k)).length ≤ stop
    ∧ (k = items.length ∨ stop < (itemBits [] (items.take (k + 1))).length)

/-- Where the code of item `k` ends, its field not counted. -/
def codeEnd (items : List Item) (k : Nat) : Nat :=
  match items[k]? with
  | some it => (itemBits [] (items.take k)).length + ((itemsModel [] (items.take k)).codeOf it.symbol).length
  | none => (itemBits [] items).length

/-- How many symbols are counted when the stream stops inside item `k`: those of the items before it, and its own when its
code lies whole before the cut, which is then in its field (R343). -/
def symbolsBefore (items : List Item) (stop k : Nat) : Nat :=
  if k < items.length ∧ codeEnd items k ≤ stop then k + 1 else k

/-! ### What COMPRESS chooses -/

/-- The positions below `m` that have the key, most recent first: the key's chain when they have been inserted in order
(R211, R212, R261). -/
def keyedBelow (s : State) (m : Nat) (key : Key) : List Nat :=
  (List.range m).reverse.filter fun c => decide (c + 3 ≤ s.inLen.toNat) && decide (hashKey s c = key)

/-- The candidates of a search from `q` when the positions below `m` have been inserted (R221). -/
def candidatesBelow (s : State) (m q depth : Nat) : List Nat :=
  if q + 3 ≤ s.inLen.toNat then (keyedBelow s m (hashKey s q)).take depth else []

/-- R254 and R225, `Lazy(p)` with the positions up to `p` inserted: the best match from `p` is kept when the best match from
`p + 1` is shorter, and given up else. -/
def LazyChoice (s : State) (mode : Mode) (p len dist : Nat) : Prop :=
  ∃ l d l' d' : Nat,
    BestMatch s mode p (candidatesBelow s (p + 1) p (if mode.bin then 200 else 1000)) l d
      ∧ BestMatch s mode (p + 1) (candidatesBelow s (p + 1) (p + 1) (if mode.bin then 20 else 50)) l' d'
      ∧ (if 0 < l ∧ l' < l then len = l ∧ dist = d else len = 0 ∧ dist = 0)

/-- R255, R258, R260: the item of a DECIDE step at `p`: the copy that `Lazy` gives, in the range that holds its gap, or the
literal. -/
def ChosenItem (s : State) (mode : Mode) (p : Nat) (it : Item) : Prop :=
  ∃ len dist : Nat, LazyChoice s mode p len dist
    ∧ (if 0 < len then
        ∃ i, i ≤ 5 ∧ copyMin i ≤ dist ∧ dist ≤ copyMax i ∧ it = .copy i len (dist - copyMin i)
      else it = .literal (s.inByte p))

/-- How many input bytes an item stands for. -/
def Item.width : Item → Nat
  | .literal _ => 1
  | .copy _ len _ => len

/-- R256, R257: MODE.DICT after the position has moved from `p` over `width` positions with `out` output bytes complete. A
move to `p + j + 1` reads byte number `p + j + 68`, if there is one, and the check clears DICT when that number is a multiple
of 64 and less than twice `out`. -/
def dictAfter (s : State) (out p width : Nat) (dict : Bool) : Bool :=
  dict && !(List.range width).any fun j =>
    decide (p + j + 68 ≤ s.inLen.toNat ∧ (p + j + 68) % 64 = 0 ∧ 0 < out ∧ (p + j + 68) / out < 2)

/-- COMPRESS's DECIDE steps, from position `p`, with DICT, `b` bits written and a model, choose these items and lead to
position `pEnd` with DICT `dictEnd` (R250, R255, R259, R260). -/
def ChoosesFrom (s : State) (bin : Bool) (pEnd : Nat) (dictEnd : Bool) : Nat → Bool → Nat → Arena → List Item → Prop
  | p, dict, _, _, [] => p = pEnd ∧ dict = dictEnd
  | p, dict, b, m, it :: its =>
    let b' := b + (m.codeOf it.symbol ++ it.fieldPart).length
    p < s.inLen.toNat ∧ ChosenItem s { bin := bin, dict := dict } p it
      ∧ ChoosesFrom s bin pEnd dictEnd (p + it.width) (dictAfter s (b' / 8) p it.width dict) b' (m.update it.symbol) its

/-- COMPRESS's DECIDE steps from the start of the input choose these items and lead to position `p` with DICT `dict`. -/
def Chooses (s : State) (items : List Item) (p : Nat) (dict : Bool) : Prop :=
  ChoosesFrom s (startMode s).bin p dict 0 (startMode s).dict 0 [] items

/-- Every key's chain lists exactly the positions below `m` with that key, most recent first (R212, R261). -/
def ChainsHold (s : State) (m : Nat) : Prop :=
  ∀ key, chainFrom s (s.inLen.toNat + 1) (s.headAt key) = (keyedBelow s m key).map (BitVec.ofNat 32)

/-! ### The exchange walk -/

/-- R176, R177: the walk of an update from a node, on the tree after the count and the halving check. It stops at a node
whose parent is the root. Else, with `p` the parent and `u` the parent's sibling, the node and `u` are exchanged and the sums
recomputed from `p` when the node's frequency is strictly above `u`'s, and nothing changes otherwise; in both cases the walk
goes on from `p`. -/
inductive Walk : Arena → NodeId → Arena → Prop where
  | stop (m : Arena) (cur : NodeId) (h : (m.get cur).parent = Config.root) : Walk m cur m
  | move (m m' m'' : Arena) (cur p g u : NodeId) (hp : p = (m.get cur).parent) (hr : p ≠ Config.root)
      (hg : g = (m.get p).parent) (hu : u = if (m.get g).left = p then (m.get g).right else (m.get g).left)
      (hm : m' = if (m.get u).freq < (m.get cur).freq then (m.exchange cur u).recompute p else m)
      (hw : Walk m' p m'') : Walk m cur m''

/-! ### The register block (R30) -/

/-- The registers and their byte offsets, as the table of R30 lists them. -/
def registerTable : List (Nat × Reg) :=
  [(0x00, .id), (0x04, .ctrl), (0x08, .cmd), (0x0C, .status), (0x10, .arg0), (0x14, .arg1), (0x18, .res0), (0x1C, .res1),
    (0x20, .inLen), (0x24, .outLen), (0x28, .outBitpos), (0x2C, .inBitpos), (0x30, .errinfo), (0x34, .mode),
    (0x38, .symcount), (0x3C, .bytesRead)]

/-- The error codes as the table of R341 numbers them. -/
def errorNumber : ErrCode → Nat
  | .none => 0
  | .invalidSymbol => 1
  | .streamCorruptionEof => 2
  | .streamCorruptionNullChild => 3
  | .streamCorruptionBadDistance => 4
  | .outputOverflow => 5
  | .illegalCommand => 6
  | .badArgument => 7

/-- What each register reads as, in the words of R31 to R39 and R46 to R49. -/
def registerValue (s : State) : Reg → Word
  | .id => 0x53504B07
  | .ctrl => BitVec.ofNat 32 s.ctrl.ie.toNat
  | .cmd => 0
  | .status => BitVec.ofNat 32 (s.status.busy.toNat + 2 * s.status.done.toNat + 4 * s.status.err.toNat
      + 8 * s.status.bwi.toNat + 256 * errorNumber s.status.errcode)
  | .arg0 => s.arg0
  | .arg1 => s.arg1
  | .res0 => s.res0
  | .res1 => s.res1
  | .inLen => s.inLen
  | .outLen => BitVec.ofNat 32 ((s.outBitpos.toNat + 7) / 8)
  | .outBitpos => s.outBitpos
  | .inBitpos => s.inBitpos
  | .errinfo => s.errinfo
  | .mode => BitVec.ofNat 32 (s.mode.bin.toNat + 2 * s.mode.dict.toNat)
  | .symcount => s.symcount
  | .bytesRead => s.bytesRead

/-! ### Invariants -/

/-- Every table has its canonical form, and the memories list only bytes that exist (R80, R81). -/
def CanonicalStores (s : State) : Prop :=
  Memory.wf s.inMem = true ∧ Memory.wf s.outMem = true
    ∧ (∀ e ∈ s.inMem, e.1 < s.cfg.inMemBytes) ∧ (∀ e ∈ s.outMem, e.1 < s.cfg.outMemBytes)
    ∧ sparseWf initNode s.nodes = true ∧ sparseWf (fun _ => none) s.head = true
    ∧ sparseRising s.next = true ∧ sparseRising s.prev = true

/-- Between steps the sequencer is IDLE or RUN (R382); BUSY is 1 exactly when it is not IDLE (R36); a running command has
no report yet (R113); ERR is 1 exactly when ERRCODE is not 0, and ERRINFO is 0 when ERR is (R341); the path stack is empty
(R51). -/
def ControlConsistent (s : State) : Prop :=
  (s.seq = .idle ∨ ∃ w, s.seq = .run w)
    ∧ (s.status.busy = true ↔ s.seq ≠ .idle)
    ∧ (s.status.busy = true → s.status.done = false ∧ s.status.err = false)
    ∧ (s.status.err = true ↔ s.status.errcode ≠ .none)
    ∧ (s.status.err = false → s.errinfo = 0)
    ∧ s.pathStack = []

/-- The node a number of parent steps above a node. -/
def Arena.ancestor (m : Arena) : Nat → NodeId → NodeId
  | 0, k => k
  | n + 1, k => Arena.ancestor m n (m.get k).parent

/-- Node `j` is `k` itself or one of the nodes from `k` to the root. -/
def Arena.IsAtOrAbove (m : Arena) (k j : NodeId) : Prop :=
  ∃ d, m.ancestor d k = j ∧ ∀ e, e ≤ d → m.ancestor e k ≠ Config.nil

/-- An id of an internal node (R40). -/
def isInternal (k : NodeId) : Prop := 1 ≤ k.toNat ∧ k.toNat ≤ Config.maxChar

/-- An id of a leaf (R40). -/
def isLeaf (k : NodeId) : Prop := Config.successMax ≤ k.toNat ∧ k.toNat ≤ Config.twiceMax

/-- An id of a node that is not the root. -/
def isBelowRoot (k : NodeId) : Prop := 2 ≤ k.toNat ∧ k.toNat ≤ Config.twiceMax

/-- The structural invariants of R41. -/
structure TreeShape (m : Arena) : Prop where
  /-- Item 2: the root has no parent. -/
  rootParent : (m.get Config.root).parent = Config.nil
  /-- Item 1: a leaf has no child. -/
  leafChildren : ∀ k, isLeaf k → (m.get k).left = Config.nil ∧ (m.get k).right = Config.nil
  /-- Item 1: an internal node has two children, which are different nodes below the root. -/
  internalChildren : ∀ k, isInternal k →
    isBelowRoot (m.get k).left ∧ isBelowRoot (m.get k).right ∧ (m.get k).left ≠ (m.get k).right
  /-- A child's parent is the node it is a child of. -/
  childParent : ∀ k, isInternal k → (m.get (m.get k).left).parent = k ∧ (m.get (m.get k).right).parent = k
  /-- Item 2: a node below the root is a child of its parent, an internal node. -/
  parentChild : ∀ k, isBelowRoot k → isInternal (m.get k).parent ∧
    ((m.get (m.get k).parent).left = k ∨ (m.get (m.get k).parent).right = k)
  /-- Items 3 and 4: every node reaches the root in at most 628 steps. -/
  reachesRoot : ∀ k, isBelowRoot k → ∃ d, 1 ≤ d ∧ d ≤ Config.maxChar ∧ m.ancestor d k = Config.root

/-- The frequency relation of R42 and the bound of R183. -/
structure FrequencyBound (m : Arena) : Prop where
  /-- R42. -/
  childSum : ∀ k, isInternal k →
    (m.get (m.get k).left).freq.toNat + (m.get (m.get k).right).freq.toNat ≤ (m.get k).freq.toNat
  /-- R183. -/
  rootBound : (m.get Config.root).freq.toNat ≤ 1999

/-- The cursors stay inside the memories, so that no 32-bit cursor wraps (R9, R140, R143, R262). -/
def CursorsBounded (s : State) : Prop :=
  s.cfg.wf ∧ (s.seq = .idle ∨ ∃ w, s.seq = .run w)
    ∧ s.outBitpos.toNat ≤ 8 * s.cfg.outMemBytes ∧ s.inBitpos.toNat ≤ 8 * s.cfg.inMemBytes

/-- Every position a chain can reach has had its `next` link written since reset, so that no search reads a link that
nothing has written (R44). -/
def LinksWritten (s : State) : Prop :=
  (∀ k c, s.headAt k = some c → sparseFind s.next c.toNat ≠ none)
    ∧ (∀ a c, sparseFind s.next a = some (some c) → sparseFind s.next c.toNat ≠ none)

/-! ### The host's duties -/

/-- A host access the spec gives a step: inside the 256-byte register window or a memory, and no memory write while BUSY
(R30, R80, R81, R386). -/
def eventAllowed (s : State) : Event → Prop
  | .engine => True
  | .reset => True
  | .busRead addr _ => s.cfg.engineBase ≤ addr ∧ addr < s.cfg.engineBase + 256
  | .busWrite addr _ _ => s.cfg.engineBase ≤ addr ∧ addr < s.cfg.engineBase + 256
  | .inRead a => a < s.cfg.inMemBytes
  | .inWrite a _ => a < s.cfg.inMemBytes ∧ s.status.busy = false
  | .outRead a => a < s.cfg.outMemBytes
  | .outWrite a _ => a < s.cfg.outMemBytes ∧ s.status.busy = false

/-! ### Errors -/

/-- R342: the error codes a command may report, ILLEGAL_COMMAND apart, which a well-formed word never gives. -/
def possibleErrors : Instr → List ErrCode
  | .nop => []
  | .init => []
  | .compress => [.outputOverflow, .badArgument]
  | .decompress => [.streamCorruptionEof, .streamCorruptionBadDistance, .outputOverflow, .badArgument]
  | .mupd => [.invalidSymbol]
  | .henc => [.invalidSymbol, .outputOverflow]
  | .hdec => [.streamCorruptionEof, .badArgument]
  | .nread => [.badArgument]
  | .putf => [.outputOverflow, .badArgument]
  | .getf => [.streamCorruptionEof, .badArgument]
  | .flsh => []
  | .rfnd => [.badArgument]
  | .rrd => [.badArgument]
  | .hins => [.badArgument]
  | .fmat => [.badArgument]
  | .mscan => [.badArgument]

end Sys2Proof.Machine
end

