-- ==== Sys2Proof/Certificates/Slice0/Obligations.lean ====
section
/-! DEFINITION. The statements for the provers, in the order of OBLIGATIONS.json. -/

section

open Sys2Proof Sys2Proof.Machine

/-! ### Encoding -/

/-- R110, R112, R116: a word decodes to a command exactly when it is that command's encoding, and the words that decode
are the well-formed ones. -/
def Obligations.DecodeInvertsEncode : Prop :=
  (∀ w i, decode w = .ok i ↔ w = encode i) ∧ ∀ w, wordWellFormed w = true ↔ ∃ i, decode w = .ok i

/-- R112: some words of the opcode map, and two illegal ones. -/
def Obligations.KnownCommandWords : Prop :=
  decode 0x00000000 = .ok .nop ∧ decode 0x00000002 = .ok .compress ∧ decode 0x00000011 = .ok .henc
    ∧ decode 0x00000020 = .ok .putf ∧ decode 0x00000032 = .ok .mscan
    ∧ decode 0x00000004 = .error .unassignedOpcode ∧ decode 0x00000102 = .error .reservedField

/-- R116: the illegal words abort and change nothing else; every other word is a command's. -/
def Obligations.IllegalWordsAbort : Prop :=
  ∀ (s : State) (w : Word), s.seq = .run w →
    let opc := w.toNat % 256
    let illegal := 256 ≤ w.toNat ∨ (0x04 ≤ opc ∧ opc ≤ 0x0F) ∨ (0x14 ≤ opc ∧ opc ≤ 0x1F) ∨ (0x25 ≤ opc ∧ opc ≤ 0x2F)
      ∨ 0x33 ≤ opc
    (illegal → engineStep s = .next (s.afterAbort .illegalCommand w))
      ∧ (¬ illegal → ∃ i, w = encode i ∧ engineStep s = exec i s)

/-- R113, R382: the engine's step runs the command whose word the sequencer holds, whether its turn comes from the agenda or
because nothing is left on it; an idle engine stays as it is. -/
def Obligations.StepRunsDecodedCommand : Prop :=
  (∀ (s : State) (w : Word) (i : Instr), s.seq = .run w → decode w = .ok i →
      (s.agenda = [] → step s = exec i s)
        ∧ ∀ rest, s.agenda = .engine :: rest → step s = exec i { s with agenda := rest })
    ∧ (∀ s : State, s.seq = .idle → s.agenda = [] → step s = .next s)
    ∧ ∀ (s : State) (i : Instr), step (s.withFetchWord 32 (encode i).toNat) = exec i (s.startCommand (encode i))

/-- R33 (with R113 steps 1 and 2, and R350): a write of CMD starts a command while idle, which clears DONE and so IRQ, whatever
CTRL.IE is; it is dropped while BUSY, which leaves IRQ as it was; and CMD reads 0. -/
def Obligations.CmdRegisterStartsCommands : Prop :=
  ∀ (s : State) (rest : List Event) (v : Word),
    (s.agenda = .busWrite (s.cfg.engineBase + 0x08) 4 v :: rest →
      (s.status.busy = false → ∃ t, step s = .next t
        ∧ t = { s with
            agenda := rest
            status := { s.status with busy := true, done := false, err := false, errcode := .none }
            errinfo := 0
            seq := .run v }
        ∧ t.irq = false)
        ∧ (s.status.busy = true → ∃ t, step s = .next t
          ∧ t = { s with agenda := rest, status := { s.status with bwi := true } } ∧ t.irq = s.irq))
      ∧ (s.agenda = .busRead (s.cfg.engineBase + 0x08) 4 :: rest →
        step s = .next { s with agenda := rest, readData := 0 })

/-! ### Control commands and reset -/

/-- R320: NOP completes and changes nothing else; from its start on it has cleared the report; its word with RSVD not 0 is
illegal. -/
def Obligations.NopCompletes : Prop :=
  encode .nop = 0x00000000
    ∧ (∀ s : State, exec .nop s = .next s.afterCompletion)
    ∧ (∀ s : State, engineStep (s.startCommand 0x00000000) = .next
        { s with errinfo := 0, status := { s.status with err := false, errcode := .none } }.afterCompletion)
    ∧ (∀ s t : State, engineStep (s.startCommand 0x00000000) = .next t →
        t.irq = s.ctrl.ie ∧ (s.status.bwi = false → t.readReg .status = 0x00000002))
    ∧ ∀ (s : State) (w : Word), w.toNat % 256 = 0 → w ≠ 0 →
        engineStep { s with seq := .run w } = .next ({ s with seq := .run w }.afterAbort .illegalCommand w)

/-- R321: INIT. The links after it are unspecified, so nothing is said of them. -/
def Obligations.InitReinitialises : Prop :=
  encode .init = 0x00000001 ∧ ∀ s : State, ∃ t, exec .init s = .next t
    ∧ t = { s with
        nodes := t.nodes
        head := t.head
        next := t.next
        prev := t.prev
        outBitpos := 0
        inBitpos := 0
        mode := { bin := false, dict := false }
        symcount := 0
        bytesRead := 0
        res0 := 0
        res1 := 0 }.afterCompletion
    ∧ (∀ k : NodeId, 1 ≤ k.toNat → k.toNat ≤ 1257 → t.nodes.get k = initNode k.toNat)
    ∧ (∀ key, t.headAt key = none)
    ∧ exec .init t = .next t

/-- R170: the initial tree, node by node. -/
def Obligations.InitialTreeLayout : Prop :=
  (∀ k : NodeId, 1 ≤ k.toNat → k.toNat ≤ 1257 →
    (initNode k.toNat).parent = (if k.toNat = 1 then 0 else BitVec.ofNat 11 (k.toNat / 2))
      ∧ (initNode k.toNat).left = (if k.toNat ≤ 628 then BitVec.ofNat 11 (2 * k.toNat) else 0)
      ∧ (initNode k.toNat).right = (if k.toNat ≤ 628 then BitVec.ofNat 11 (2 * k.toNat + 1) else 0)
      ∧ (629 ≤ k.toNat → (initNode k.toNat).freq = 1)
      ∧ (k.toNat ≤ 628 → (initNode k.toNat).freq.toNat
          = (initNode (2 * k.toNat)).freq.toNat + (initNode (2 * k.toNat + 1)).freq.toNat))
    ∧ (initNode 1).freq = 629

/-- The reset column of R30, and R370 for the rest, of the state after reset. The memories' contents and the links are the
model's choice (logs 2, 3), so nothing is said of them. -/
def Obligations.ResetRegisterValues : Prop :=
  (∀ p ∈ registerTable, State.reset.readReg p.2 = if p.1 = 0x00 then 0x53504B07 else 0)
    ∧ State.reset.seq = .idle ∧ State.reset.irq = false ∧ State.reset.pathStack = []
    ∧ (∀ k : NodeId, State.reset.nodes.get k = initNode k.toNat)
    ∧ ∀ key, State.reset.headAt key = none

/-- R370, R371: the reset input. The registers, the tree and the heads take their reset values, no result or report is
left, and the memories keep their contents; a reset during a command may leave any value in the bytes of `OUT` from the
writer's start to where the command would have ended (93 item 15; the range is that of log 8). -/
def Obligations.ResetEventReinitialises : Prop :=
  ∀ (s : State) (rest : List Event), s.agenda = .reset :: rest →
    let s0 := { s with agenda := rest }
    ∃ t, step s = .next t
    ∧ (∀ p ∈ registerTable, t.readReg p.2 = if p.1 = 0x00 then 0x53504B07 else 0)
    ∧ t.seq = .idle ∧ t.irq = false ∧ t.pathStack = []
    ∧ (∀ k : NodeId, 1 ≤ k.toNat → k.toNat ≤ 1257 → t.nodes.get k = initNode k.toNat)
    ∧ (∀ key, t.headAt key = none)
    ∧ t.inMem = s.inMem ∧ t.cfg = s.cfg ∧ t.agenda = rest ∧ t.readData = s.readData
    ∧ (s.status.busy = false → t.outMem = s.outMem)
    ∧ ∀ a, a < writerStart s0 / 8 ∨ ((afterEngine s0).outBitpos.toNat + 7) / 8 ≤ a → t.outByte a = s.outByte a

/-! ### Bit codec and copy ranges -/

/-- R145: PUTF writes the low `w` bits of ARG0, least significant first; a width above 16 is refused; where `OUT` ends, the
bits before the failing one stay and the cursor points at it. -/
def Obligations.PutfWritesField : Prop :=
  encode .putf = 0x00000020 ∧ ∀ s : State, s.cfg.wf →
    let w := s.arg1.toNat
    let pos := s.outBitpos.toNat
    let bits := (List.range w).map s.arg0.getLsbD
    (16 < w → exec .putf s = .next (s.afterAbort .badArgument s.arg1))
      ∧ (w ≤ 16 → w = 0 ∨ pos + w ≤ 8 * s.cfg.outMemBytes → ∃ t, exec .putf s = .next t
        ∧ t = { s with outMem := t.outMem, outBitpos := t.outBitpos }.afterCompletion ∧ WritesBits s t bits)
      ∧ (w ≤ 16 → 0 < w → 8 * s.cfg.outMemBytes < pos + w → ∃ t, exec .putf s = .next t
        ∧ t = { s with outMem := t.outMem, outBitpos := t.outBitpos }.afterAbort .outputOverflow t.outBitpos
        ∧ WritesBits s t (bits.take (8 * s.cfg.outMemBytes - pos)))

/-- R146: GETF reads `w` stream bits, least significant first, after both checks, IN_LEN's first; at the end of the stream
the bits before the failing one stay consumed. -/
def Obligations.GetfReadsField : Prop :=
  encode .getf = 0x00000021 ∧ ∀ s : State, s.cfg.wf →
    let w := s.arg1.toNat
    let pos := s.inBitpos.toNat
    let stop := 8 * s.inLen.toNat
    (s.cfg.inMemBytes < s.inLen.toNat → exec .getf s = .next (s.afterAbort .badArgument s.inLen))
      ∧ (s.inLen.toNat ≤ s.cfg.inMemBytes → 16 < w → exec .getf s = .next (s.afterAbort .badArgument s.arg1))
      ∧ (s.inLen.toNat ≤ s.cfg.inMemBytes → w ≤ 16 → w = 0 ∨ pos + w ≤ stop → ∃ v : Word,
        v.toNat < 2 ^ w ∧ (∀ k, k < w → v.getLsbD k = s.inBit (pos + k))
          ∧ exec .getf s = .next { s with inBitpos := BitVec.ofNat 32 (pos + w), res0 := v }.afterCompletion)
      ∧ (s.inLen.toNat ≤ s.cfg.inMemBytes → w ≤ 16 → 0 < w → stop < pos + w →
        let b := BitVec.ofNat 32 (max pos stop)
        exec .getf s = .next ({ s with inBitpos := b }.afterAbort .streamCorruptionEof b))

/-- R147: FLSH pads with zero bits to the byte boundary and never overflows, on a cursor inside the memory. -/
def Obligations.FlshPadsToByte : Prop :=
  encode .flsh = 0x00000022 ∧ ∀ s : State, s.cfg.wf → s.outBitpos.toNat ≤ 8 * s.cfg.outMemBytes →
    let k := (8 - s.outBitpos.toNat % 8) % 8
    ∃ t, exec .flsh s = .next t
      ∧ t = { s with outMem := t.outMem, outBitpos := t.outBitpos, res0 := BitVec.ofNat 32 k }.afterCompletion
      ∧ WritesBits s t (List.replicate k false) ∧ t.outBitpos.toNat % 8 = 0
      ∧ (s.outBitpos.toNat % 8 = 0 → t.outMem = s.outMem ∧ t.outBitpos = s.outBitpos)

/-- R152 with the ranges of R151. -/
def Obligations.RfndLooksUpRange : Prop :=
  encode .rfnd = 0x00000023 ∧ ∀ s : State,
    (∀ r ∈ [(0, 0, 15), (1, 16, 79), (2, 80, 335), (3, 336, 1359), (4, 1360, 5455), (5, 5456, 21839)],
      r.2.1 ≤ s.arg0.toNat → s.arg0.toNat ≤ r.2.2 → exec .rfnd s = .next
        { s with res0 := BitVec.ofNat 32 r.1, res1 := BitVec.ofNat 32 r.2.1 }.afterCompletion)
      ∧ (21839 < s.arg0.toNat → exec .rfnd s = .next (s.afterAbort .badArgument s.arg0))

/-- R153 with the table of R45. -/
def Obligations.RrdReadsTableRow : Prop :=
  encode .rrd = 0x00000024 ∧ ∀ s : State,
    (∀ r ∈ [(0, 4, 0, 15), (1, 6, 16, 79), (2, 8, 80, 335), (3, 10, 336, 1359), (4, 12, 1360, 5455),
        (5, 14, 5456, 21839)],
      s.arg0.toNat = r.1 → exec .rrd s = .next
        { s with res0 := BitVec.ofNat 32 r.2.2.1, res1 := BitVec.ofNat 32 (r.2.2.2 + 2 ^ 16 * r.2.1) }.afterCompletion)
      ∧ (5 < s.arg0.toNat → exec .rrd s = .next (s.afterAbort .badArgument s.arg0))

/-- R119: the copy-code map and its inverse. -/
def Obligations.CopyCodeMapBijective : Prop :=
  (∀ i len, i ≤ 5 → 3 ≤ len → len ≤ 64 → copyCode i len = 254 + len + 62 * i ∧ 257 ≤ copyCode i len
      ∧ copyCode i len ≤ 628 ∧ copyCodeRange (copyCode i len) = i ∧ copyCodeLength (copyCode i len) = len)
    ∧ (∀ c, 257 ≤ c → c ≤ 628 → copyCodeRange c = (c - 257) / 62 ∧ copyCodeLength c = c - 254 - 62 * copyCodeRange c
      ∧ copyCodeRange c ≤ 5 ∧ 3 ≤ copyCodeLength c ∧ copyCodeLength c ≤ 64
      ∧ copyCode (copyCodeRange c) (copyCodeLength c) = c)
    ∧ copyCode 0 3 = 257 ∧ copyCode 0 64 = 318 ∧ copyCode 1 3 = 319 ∧ copyCode 5 64 = 628

/-! ### The Huffman model -/

/-- R184, R176 to R178: MUPD counts the symbol, recomputes its ancestors, halves every node if the root has reached 2000,
and then walks from the leaf, exchanging where R176 says; so the leaf and every other leaf keep their counts unless all are
halved. The results are the leaf's and the root's frequency after it; a symbol above 628 is refused. -/
def Obligations.MupdUpdatesModel : Prop :=
  encode .mupd = 0x00000010 ∧ ∀ s : State, TreeShape s.nodes → FrequencyBound s.nodes →
    let leaf := leafOf s.arg0.toNat
    (628 < s.arg0.toNat → exec .mupd s = .next (s.afterAbort .invalidSymbol s.arg0))
      ∧ (s.arg0.toNat ≤ 628 → ∃ (t : State) (m1 : Arena), exec .mupd s = .next t
        ∧ t = { s with
            nodes := s.nodes.update s.arg0.toNat
            symcount := s.symcount + 1
            res0 := (t.nodes.get leaf).freq.setWidth 32
            res1 := (t.nodes.get Config.root).freq.setWidth 32 }.afterCompletion
        ∧ (∀ k, m1.get k =
            if k = leaf then { s.nodes.get leaf with freq := (s.nodes.get leaf).freq + 1 } else s.nodes.get k)
        ∧ (let m2 := m1.recompute (m1.get leaf).parent
          let full := 2000 ≤ (m2.get Config.root).freq.toNat
          Walk (if full then m2.halve else m2) leaf t.nodes
            ∧ (∀ k, isLeaf k →
              let counted := (s.nodes.get k).freq.toNat + (if k = leaf then 1 else 0)
              (t.nodes.get k).freq.toNat = if full then counted / 2 else counted)
            ∧ (full → (t.nodes.get Config.root).freq.toNat ≤ 1000))
        ∧ (t.nodes.get Config.root).freq.toNat ≤ (s.nodes.get Config.root).freq.toNat + 1)

/-- R179: HENC writes the root-to-leaf path of the symbol's leaf, 1 to 628 bits that lead from the root to that leaf, then
updates the model; RES0 is the length and RES1 the last 32 bits; a symbol above 628 is refused, and where `OUT` ends the
model is not updated. -/
def Obligations.HencWritesCode : Prop :=
  encode .henc = 0x00000011 ∧ ∀ s : State, s.cfg.wf → TreeShape s.nodes →
    let path := s.nodes.codeOf s.arg0.toNat
    let pos := s.outBitpos.toNat
    (628 < s.arg0.toNat → exec .henc s = .next (s.afterAbort .invalidSymbol s.arg0))
      ∧ (s.arg0.toNat ≤ 628 → 1 ≤ path.length ∧ path.length ≤ 628
        ∧ s.nodes.descend Config.root path = leafOf s.arg0.toNat)
      ∧ (s.arg0.toNat ≤ 628 → pos + path.length ≤ 8 * s.cfg.outMemBytes → ∃ t, exec .henc s = .next t
        ∧ t = { s with
            outMem := t.outMem
            outBitpos := t.outBitpos
            nodes := s.nodes.update s.arg0.toNat
            symcount := s.symcount + 1
            res0 := BitVec.ofNat 32 path.length
            res1 := t.res1 }.afterCompletion
        ∧ WritesBits s t path ∧ ∀ k, k < 32 → t.res1.getLsbD k = path.reverse.getD k false)
      ∧ (s.arg0.toNat ≤ 628 → 8 * s.cfg.outMemBytes < pos + path.length → ∃ t, exec .henc s = .next t
        ∧ t = { s with outMem := t.outMem, outBitpos := t.outBitpos }.afterAbort .outputOverflow t.outBitpos
        ∧ WritesBits s t (path.take (8 * s.cfg.outMemBytes - pos)))

/-- R180, R181: HDEC reads the code of one symbol and updates the model with it; 628 bits are always enough; when no symbol's
code stands before the end of the stream it aborts there and the model is not updated. No tree walk meets a null child. -/
def Obligations.HdecReadsOneSymbol : Prop :=
  encode .hdec = 0x00000012 ∧ ∀ s : State, s.cfg.wf → TreeShape s.nodes →
    let pos := s.inBitpos.toNat
    let stop := 8 * s.inLen.toNat
    let ahead := s.inBits pos (stop - pos)
    (s.cfg.inMemBytes < s.inLen.toNat → exec .hdec s = .next (s.afterAbort .badArgument s.inLen))
      ∧ (s.inLen.toNat ≤ s.cfg.inMemBytes → ∀ code, code ≤ 628 → s.nodes.codeOf code <+: ahead →
        exec .hdec s = .next { s with
          inBitpos := BitVec.ofNat 32 (pos + (s.nodes.codeOf code).length)
          nodes := s.nodes.update code
          symcount := s.symcount + 1
          res0 := BitVec.ofNat 32 code
          res1 := BitVec.ofNat 32 (s.nodes.codeOf code).length }.afterCompletion)
      ∧ (628 ≤ ahead.length → ∃ code, code ≤ 628 ∧ s.nodes.codeOf code <+: ahead)
      ∧ (s.inLen.toNat ≤ s.cfg.inMemBytes → (∀ code, code ≤ 628 → ¬ s.nodes.codeOf code <+: ahead) →
        let b := BitVec.ofNat 32 (max pos stop)
        exec .hdec s = .next ({ s with inBitpos := b }.afterAbort .streamCorruptionEof b))

/-- R186: what HENC writes, HDEC in the same model state reads back, and both models end equal. The encoder's partial byte
holds no stale 1 (R99). -/
def Obligations.HdecInvertsHenc : Prop :=
  ∀ s t d : State, s.cfg.wf → d.cfg.wf → TreeShape s.nodes → d.nodes = s.nodes → TailClear s →
    s.status.err = false → exec .henc s = .next t → t.status.err = false →
    d.inLen.toNat ≤ d.cfg.inMemBytes → d.inBitpos.toNat + t.res0.toNat ≤ 8 * d.inLen.toNat →
    (∀ k, k < t.res0.toNat → d.inBit (d.inBitpos.toNat + k) = t.outBit (s.outBitpos.toNat + k)) →
    exec .hdec d = .next { d with
      inBitpos := d.inBitpos + t.res0
      nodes := t.nodes
      symcount := d.symcount + 1
      res0 := s.arg0
      res1 := t.res0 }.afterCompletion

/-- R182: NREAD returns one node and changes no other state; a leaf has no children and the root no parent. -/
def Obligations.NreadReadsNode : Prop :=
  encode .nread = 0x00000013 ∧ ∀ s : State,
    let k := s.arg0.toNat
    let n := s.nodes.get (BitVec.ofNat 11 k)
    (k < 1 ∨ 1257 < k → exec .nread s = .next (s.afterAbort .badArgument s.arg0))
      ∧ (1 ≤ k → k ≤ 1257 → exec .nread s = .next { s with
        res0 := BitVec.ofNat 32 (n.freq.toNat + 2 ^ 16 * n.parent.toNat)
        res1 := BitVec.ofNat 32 (n.left.toNat + 2 ^ 16 * n.right.toNat) }.afterCompletion)
      ∧ (TreeShape s.nodes → (629 ≤ k → k ≤ 1257 → n.left = 0 ∧ n.right = 0) ∧ (k = 1 → n.parent = 0))

/-- R174. -/
def Obligations.HalveHalvesEveryNode : Prop :=
  ∀ (m : Arena) (k : NodeId), m.halve.get k =
    if 1 ≤ k.toNat ∧ k.toNat ≤ 1257 then { m.get k with freq := (m.get k).freq >>> 1 } else m.get k

/-- R173: after `Recompute(k)` every node from `k` to the root holds the sum of its children; no other frequency and no link
has changed. -/
def Obligations.RecomputeSumsAncestors : Prop :=
  ∀ (m : Arena) (k : NodeId), TreeShape m → isInternal k → ∀ j : NodeId, 1 ≤ j.toNat → j.toNat ≤ 1257 →
    let m' := m.recompute k
    (m'.get j).parent = (m.get j).parent ∧ (m'.get j).left = (m.get j).left ∧ (m'.get j).right = (m.get j).right
      ∧ (m.IsAtOrAbove k j →
        (m'.get j).freq = (m'.get (m.get j).left).freq + (m'.get (m.get j).right).freq)
      ∧ (¬ m.IsAtOrAbove k j → (m'.get j).freq = (m.get j).freq)

/-- R175: a node and its uncle change places; nothing else changes, and the tree keeps its shape. -/
def Obligations.ExchangeSwapsSubtrees : Prop :=
  ∀ (m : Arena) (x : NodeId), TreeShape m → isBelowRoot x → (m.get x).parent ≠ Config.root →
    let p := (m.get x).parent
    let g := (m.get p).parent
    let u := m.uncle x
    let m' := m.exchange x u
    m'.get g = (if (m.get g).left = u then { m.get g with left := x } else { m.get g with right := x })
      ∧ m'.get p = (if (m.get p).left = x then { m.get p with left := u } else { m.get p with right := u })
      ∧ m'.get u = { m.get u with parent := p } ∧ m'.get x = { m.get x with parent := g }
      ∧ (∀ k, k ≠ g → k ≠ p → k ≠ u → k ≠ x → m'.get k = m.get k) ∧ TreeShape m'

/-- R187: the initial code of a symbol is the binary form of `c + 629` without its leading 1. -/
def Obligations.InitialCodes : Prop :=
  ∀ c, c ≤ 628 →
    Arena.codeOf [] c = ((List.range (Nat.log2 (c + 629))).map (fun k => (c + 629).testBit k)).reverse
      ∧ (Arena.codeOf [] c).length = if c ≤ 394 then 9 else 10

/-! ### The match finder -/

/-- R215 with R214: HINS puts the position at the head of its key's chain; a position without a key is accepted and not
inserted. -/
def Obligations.HinsInsertsPosition : Prop :=
  encode .hins = 0x00000030 ∧ ∀ s : State,
    let p := s.arg0
    let n := s.inLen.toNat
    (s.cfg.inMemBytes < n → exec .hins s = .next (s.afterAbort .badArgument s.inLen))
      ∧ (n ≤ s.cfg.inMemBytes → n ≤ p.toNat → exec .hins s = .next (s.afterAbort .badArgument p))
      ∧ (n ≤ s.cfg.inMemBytes → p.toNat < n → n < p.toNat + 3 →
        exec .hins s = .next { s with res0 := 0xFFFFFFFF }.afterCompletion)
      ∧ (n ≤ s.cfg.inMemBytes → p.toNat + 3 ≤ n → ∃ (key : Key) (t : State),
        key.toNat = (((s.inByte p.toNat).toNat <<< 6 ^^^ (s.inByte (p.toNat + 1)).toNat <<< 3)
            ^^^ (s.inByte (p.toNat + 2)).toNat) &&& 0x3FFF
          ∧ exec .hins s = .next t
          ∧ t = { s with head := t.head, next := t.next, prev := t.prev, res0 := key.setWidth 32 }.afterCompletion
          ∧ (∀ k, t.headAt k = if k = key then some p else s.headAt k)
          ∧ (∀ c, t.nextAt c = if c = p then s.headAt key else s.nextAt c)
          ∧ ∀ c, t.prevAt c = if s.headAt key = some c then some p else if c = p then none else s.prevAt c)

/-- R221 to R224 through R223: FMAT returns the longest acceptable match among the first `depth` candidates of the chain,
the most recent of equal ones, or (0, 0) when there is none; it changes nothing else. -/
def Obligations.FmatFindsLongestMatch : Prop :=
  encode .fmat = 0x00000031 ∧ ∀ s : State,
    let q := s.arg0.toNat
    let n := s.inLen.toNat
    (s.cfg.inMemBytes < n → exec .fmat s = .next (s.afterAbort .badArgument s.inLen))
      ∧ (n ≤ s.cfg.inMemBytes → n ≤ q → exec .fmat s = .next (s.afterAbort .badArgument s.arg0))
      ∧ (n ≤ s.cfg.inMemBytes → q < n → ∃ len dist : Nat,
        exec .fmat s = .next { s with res0 := BitVec.ofNat 32 len, res1 := BitVec.ofNat 32 dist }.afterCompletion
          ∧ BestMatch s s.mode q ((candidates s q s.arg1.toNat).map BitVec.toNat) len dist)

/-- R232 with R230 and R231: MSCAN sets MODE from the first bytes of `IN`; the count is the sum, over the line starts, of
how far each line agrees with the one before. -/
def Obligations.MscanSetsMode : Prop :=
  encode .mscan = 0x00000032 ∧ ∀ s : State,
    let n := s.inLen.toNat
    let count := lineAgreement s
    (s.cfg.inMemBytes < n → exec .mscan s = .next (s.afterAbort .badArgument s.inLen))
      ∧ (n ≤ s.cfg.inMemBytes → ∃ bin dict : Bool,
        (bin = true ↔ ∃ k, k < 64 ∧ k < n ∧ 127 < (s.inByte k).toNat) ∧ (dict = true ↔ 67 ≤ 4 * count)
          ∧ exec .mscan s = .next { s with
            mode := { bin := bin, dict := dict }
            res0 := BitVec.ofNat 32 (bin.toNat + 2 * dict.toNat)
            res1 := BitVec.ofNat 32 count }.afterCompletion)

/-! ### COMPRESS and DECOMPRESS -/

/-- R264, `n = 0`: the stream `BA 80`. -/
def Obligations.CompressEmptyInput : Prop :=
  ∀ s : State, s.cfg.wf → s.inLen = 0 → 2 ≤ s.cfg.outMemBytes → ∃ t, exec .compress s = .next t
    ∧ t = { s with
        nodes := Arena.update [] 256
        head := t.head
        next := t.next
        prev := t.prev
        outMem := t.outMem
        outBitpos := 16
        inBitpos := 0
        mode := { bin := false, dict := false }
        symcount := 1
        bytesRead := 0
        res0 := 2
        res1 := 1 }.afterCompletion
    ∧ HoldsBytes s t [0xBA, 0x80] ∧ ∀ key, t.headAt key = none

/-- R251, R262: COMPRESS completes whenever `OUT` has room for `IN_LEN + 1` symbols of at most 642 bits each. -/
def Obligations.CompressCompletes : Prop :=
  ∀ s : State, s.cfg.wf → s.inLen.toNat ≤ s.cfg.inMemBytes →
    (s.inLen.toNat + 1) * 642 + 7 ≤ 8 * s.cfg.outMemBytes → ∃ t, exec .compress s = .next t
      ∧ t = { s with
          nodes := t.nodes
          head := t.head
          next := t.next
          prev := t.prev
          outMem := t.outMem
          outBitpos := t.outBitpos
          inBitpos := 0
          mode := t.mode
          symcount := t.symcount
          bytesRead := s.inLen
          res0 := t.outLen
          res1 := t.symcount }.afterCompletion

/-- R250 to R263, R265, R118: what a COMPRESS that completes has written is the stream of the items its DECIDE steps
choose, each the copy that `Lazy` gives on the chain of the positions inserted by then, or else the literal; then the
terminator's code and zero bits to the byte boundary. The items are legal and stand for the input, and every copy is one R265
allows; the model has been updated with each symbol in turn, DICT is what the checks of R257 left, every chain lists the
positions of its key in order, and nothing past the stream is touched. -/
def Obligations.CompressWritesGrammarStream : Prop :=
  ∀ s t : State, s.cfg.wf → s.status.err = false → exec .compress s = .next t → t.status.err = false →
    ∃ (items : List Item) (dict : Bool),
      Chooses s items s.inLen.toNat dict
        ∧ legalItems [] items = true ∧ expandItems [] items = s.inBytes s.inLen.toNat
        ∧ (∀ range len field, Item.copy range len field ∈ items → 4 ≤ len ∧ len ≤ 64 ∧ range ≤ 4)
        ∧ (let bits := streamBits [] items
          let size := (bits.length + 7) / 8
          size ≤ s.cfg.outMemBytes ∧ t.outBitpos.toNat = 8 * size
            ∧ (∀ b, b < 8 * size → t.outBit b = bits.getD b false)
            ∧ (∀ a, size ≤ a → t.outByte a = s.outByte a)
            ∧ t = { s with
                nodes := (itemsModel [] items).update 256
                head := t.head
                next := t.next
                prev := t.prev
                outMem := t.outMem
                outBitpos := t.outBitpos
                inBitpos := 0
                mode := { bin := (startMode s).bin, dict := dict }
                symcount := BitVec.ofNat 32 (items.length + 1)
                bytesRead := s.inLen
                res0 := BitVec.ofNat 32 size
                res1 := BitVec.ofNat 32 (items.length + 1) }.afterCompletion)
        ∧ ChainsHold t s.inLen.toNat

/-- R251: what COMPRESS does depends only on the input bytes (and on how large `OUT` is): two states that agree there end
alike, whatever they hold elsewhere, stale links and memory contents included. -/
def Obligations.CompressDependsOnlyOnInput : Prop :=
  ∀ s s' t t' : State, s.cfg.wf → s'.cfg.wf → s.cfg.outMemBytes = s'.cfg.outMemBytes → s.inLen = s'.inLen →
    s.inLen.toNat ≤ s.cfg.inMemBytes → s.inLen.toNat ≤ s'.cfg.inMemBytes →
    (∀ a, a < s.inLen.toNat → s.inByte a = s'.inByte a) → s.status = s'.status → s.errinfo = s'.errinfo →
    exec .compress s = .next t → exec .compress s' = .next t' →
    t.status = t'.status ∧ t.errinfo = t'.errinfo ∧ t.outBitpos = t'.outBitpos ∧ t.symcount = t'.symcount
      ∧ t.bytesRead = t'.bytesRead ∧ t.mode = t'.mode ∧ (∀ k, t.nodes.get k = t'.nodes.get k)
      ∧ (∀ key, t.headAt key = t'.headAt key) ∧ (∀ a, a < t.outLen.toNat → t.outByte a = t'.outByte a)
      ∧ (t.status.err = false → t.res0 = t'.res0 ∧ t.res1 = t'.res1)

/-- R291 to R297: DECOMPRESS of the stream of legal items writes the bytes they stand for, reads not one bit past the
terminator's code, and completes. Every legal item counts, those COMPRESS never emits too (R121). -/
def Obligations.DecompressReadsGrammarStream : Prop :=
  encode .decompress = 0x00000003 ∧ ∀ (s : State) (items : List Item), s.cfg.wf → s.inLen.toNat ≤ s.cfg.inMemBytes →
    legalItems [] items = true →
    let bits := streamBits [] items
    let out := expandItems [] items
    bits.length ≤ 8 * s.inLen.toNat → InBeginsWith s bits → out.length ≤ s.cfg.outMemBytes →
    ∃ t, exec .decompress s = .next t
      ∧ t = { s with
          nodes := (itemsModel [] items).update 256
          head := t.head
          next := t.next
          prev := t.prev
          outMem := t.outMem
          outBitpos := BitVec.ofNat 32 (8 * out.length)
          inBitpos := BitVec.ofNat 32 bits.length
          mode := { bin := false, dict := false }
          symcount := BitVec.ofNat 32 (items.length + 1)
          bytesRead := 0
          res0 := BitVec.ofNat 32 out.length
          res1 := BitVec.ofNat 32 bits.length }.afterCompletion
      ∧ HoldsBytes s t out ∧ ∀ key, t.headAt key = none

/-- R295: a back-offset past the start of the output. The copy code and its field stay consumed, the model has been updated
for the copy code, and no byte of the copy is written. -/
def Obligations.DecompressStopsOnBadDistance : Prop :=
  ∀ (s : State) (items : List Item) (range len field : Nat), s.cfg.wf → s.inLen.toNat ≤ s.cfg.inMemBytes →
    legalItems [] items = true → range ≤ 5 → 3 ≤ len → len ≤ 64 → field < 2 ^ copyBits range →
    let out := expandItems [] items
    let bad := Item.copy range len field
    let bits := itemBits [] (items ++ [bad])
    out.length < bad.backOffset → bits.length ≤ 8 * s.inLen.toNat → InBeginsWith s bits →
    out.length ≤ s.cfg.outMemBytes →
    ∃ t, exec .decompress s = .next t
      ∧ t = { s with
          nodes := itemsModel [] (items ++ [bad])
          head := t.head
          next := t.next
          prev := t.prev
          outMem := t.outMem
          outBitpos := BitVec.ofNat 32 (8 * out.length)
          inBitpos := BitVec.ofNat 32 bits.length
          mode := { bin := false, dict := false }
          symcount := BitVec.ofNat 32 (items.length + 1)
          bytesRead := 0 }.afterAbort .streamCorruptionBadDistance (BitVec.ofNat 32 bad.backOffset)
      ∧ HoldsBytes s t out ∧ ∀ key, t.headAt key = none

/-- R297, R298, R301, R343, R344: a stream that ends before its terminator's code does aborts at the bit past `8 * IN_LEN`,
before any other check of what it was reading. The items before the cut are legal and fit; what comes next, an item or the
terminator, is cut, and nothing more is asked of it than a field of its range's width: its source may lie outside the output
and its bytes may not fit. `OUT` holds the bytes of exactly the items before; a symbol cut in its code is not counted, a copy
cut in its field is. -/
def Obligations.DecompressStopsAtEndOfStream : Prop :=
  ∀ (s : State) (items : List Item) (next : Option Item), s.cfg.wf → s.inLen.toNat ≤ s.cfg.inMemBytes →
    legalItems [] items = true → (∀ it, next = some it → it.Codable) →
    let before := itemBits [] items
    let bits := before ++ nextBits (itemsModel [] items) next
    let stop := 8 * s.inLen.toNat
    let out := expandItems [] items
    let counted := countedItems items next stop
    before.length ≤ stop → stop < bits.length → (∀ b, b < stop → s.inBit b = bits.getD b false) →
    out.length ≤ s.cfg.outMemBytes →
    ∃ t, exec .decompress s = .next t
      ∧ t = { s with
          nodes := itemsModel [] counted
          head := t.head
          next := t.next
          prev := t.prev
          outMem := t.outMem
          outBitpos := BitVec.ofNat 32 (8 * out.length)
          inBitpos := BitVec.ofNat 32 stop
          mode := { bin := false, dict := false }
          symcount := BitVec.ofNat 32 counted.length
          bytesRead := 0 }.afterAbort .streamCorruptionEof (BitVec.ofNat 32 stop)
      ∧ HoldsBytes s t out ∧ ∀ key, t.headAt key = none

/-- R293, R296: output that does not fit. The first item past the end of `OUT` aborts before any of its bytes is written,
whatever stands in `IN` after that item. -/
def Obligations.DecompressStopsAtFullOutput : Prop :=
  ∀ (s : State) (items : List Item) (last : Item), s.cfg.wf → s.inLen.toNat ≤ s.cfg.inMemBytes →
    legalItems [] (items ++ [last]) = true →
    let bits := itemBits [] (items ++ [last])
    let out := expandItems [] items
    bits.length ≤ 8 * s.inLen.toNat → InBeginsWith s bits → out.length ≤ s.cfg.outMemBytes →
    s.cfg.outMemBytes < (expandItems [] (items ++ [last])).length →
    ∃ t, exec .decompress s = .next t
      ∧ t = { s with
          nodes := itemsModel [] (items ++ [last])
          head := t.head
          next := t.next
          prev := t.prev
          outMem := t.outMem
          outBitpos := BitVec.ofNat 32 (8 * out.length)
          inBitpos := BitVec.ofNat 32 bits.length
          mode := { bin := false, dict := false }
          symcount := BitVec.ofNat 32 (items.length + 1)
          bytesRead := 0 }.afterAbort .outputOverflow (BitVec.ofNat 32 (8 * out.length))
      ∧ HoldsBytes s t out ∧ ∀ key, t.headAt key = none

/-- R266: for every input, if COMPRESS completes, DECOMPRESS of its output completes and produces the input, and both models
end equal (R300). -/
def Obligations.CompressDecompressRoundTrip : Prop :=
  ∀ s t d : State, s.cfg.wf → s.status.err = false → exec .compress s = .next t → t.status.err = false →
    d.cfg.wf → d.inLen = t.res0 → d.inLen.toNat ≤ d.cfg.inMemBytes →
    (∀ a, a < t.res0.toNat → d.inByte a = t.outByte a) → s.inLen.toNat ≤ d.cfg.outMemBytes →
    ∃ r, exec .decompress d = .next r ∧ r.status = { d.status with busy := false, done := true }
      ∧ r.res0 = s.inLen ∧ HoldsBytes d r (s.inBytes s.inLen.toNat) ∧ r.nodes = t.nodes

/-! ### All commands -/

/-- R114, R340, R350, R383: every command ends in a next state that is idle and DONE, and raises the line if IE is set. -/
def Obligations.EveryCommandCompletes : Prop :=
  ∀ (i : Instr) (s : State), ∃ t, exec i s = .next t ∧ t.seq = .idle ∧ t.pathStack = [] ∧ t.status.busy = false
    ∧ t.status.done = true ∧ t.status.bwi = s.status.bwi ∧ t.irq = s.ctrl.ie

/-- R37, R344: the commands that read `IN` check IN_LEN before anything else, and change nothing when the check fails. -/
def Obligations.InputLengthChecked : Prop :=
  ∀ s : State, s.cfg.inMemBytes < s.inLen.toNat →
    ∀ i ∈ [Instr.compress, .decompress, .mscan, .hdec, .getf, .hins, .fmat],
      exec i s = .next (s.afterAbort .badArgument s.inLen)

/-- R35, R340: an abort leaves RES0 and RES1, and reports a code other than NONE; without an abort the report stays. -/
def Obligations.AbortKeepsResults : Prop :=
  ∀ (i : Instr) (s t : State), s.status.err = false → exec i s = .next t →
    (t.status.err = true → t.res0 = s.res0 ∧ t.res1 = s.res1 ∧ t.status.errcode ≠ .none)
      ∧ (t.status.err = false → t.status.errcode = s.status.errcode ∧ t.errinfo = s.errinfo)

/-- R35, R37, R384, R80, R321: what no command changes. The last four fields are the model's own (logs 4, 13). -/
def Obligations.CommandsKeepHostState : Prop :=
  ∀ (i : Instr) (s t : State), exec i s = .next t →
    t.cfg = s.cfg ∧ t.ctrl = s.ctrl ∧ t.arg0 = s.arg0 ∧ t.arg1 = s.arg1 ∧ t.inLen = s.inLen ∧ t.inMem = s.inMem
      ∧ t.status.bwi = s.status.bwi ∧ t.agenda = s.agenda ∧ t.readData = s.readData ∧ t.freeCount = s.freeCount

/-- Which commands may change which state, family by family: the model and SYMCOUNT; the heads; the links; the writer; the
reader; MODE; BYTES_READ; the results. -/
def Obligations.OnlyWritersChange : Prop :=
  ∀ (i : Instr) (s t : State), exec i s = .next t →
    (i ∉ [Instr.init, .compress, .decompress, .mupd, .henc, .hdec] → t.nodes = s.nodes ∧ t.symcount = s.symcount)
      ∧ (i ∉ [Instr.init, .compress, .decompress, .hins] → t.head = s.head ∧ t.next = s.next ∧ t.prev = s.prev)
      ∧ (i ∉ [Instr.compress, .decompress, .henc, .putf, .flsh] → t.outMem = s.outMem)
      ∧ (i ∉ [Instr.init, .compress, .decompress, .henc, .putf, .flsh] → t.outBitpos = s.outBitpos)
      ∧ (i ∉ [Instr.init, .compress, .decompress, .hdec, .getf] → t.inBitpos = s.inBitpos)
      ∧ (i ∉ [Instr.init, .compress, .decompress, .mscan] → t.mode = s.mode)
      ∧ (i ∉ [Instr.init, .compress, .decompress] → t.bytesRead = s.bytesRead)
      ∧ (i ∈ [Instr.nop, .putf] → t.res0 = s.res0)
      ∧ (i ∈ [Instr.nop, .putf, .getf, .flsh, .hins] → t.res1 = s.res1)

/-- R342: a well-formed command reports only the codes its row lists. -/
def Obligations.ErrorCodesPerCommand : Prop :=
  ∀ (i : Instr) (s t : State), CursorsBounded s → TreeShape s.nodes → s.status.err = false → exec i s = .next t →
    t.status.err = true → t.status.errcode ∈ possibleErrors i

/-! ### Host steps -/

/-- R385: a register write while BUSY, at any offset, changes nothing but BWI; BWI stays 1 until the host writes 1 to it
while idle, or the engine is reset. -/
def Obligations.BusyWriteDroppedBwiSticky : Prop :=
  (∀ (s : State) (rest : List Event) (offset : Nat) (v : Word), s.status.busy = true → offset < 256 → offset % 4 = 0 →
      s.agenda = .busWrite (s.cfg.engineBase + offset) 4 v :: rest →
      step s = .next { s with agenda := rest, status := { s.status with bwi := true } })
    ∧ (∀ s t : State, s.status.bwi = true → step s = .next t → t.status.bwi = true
      ∨ (∃ rest, s.agenda = .reset :: rest)
      ∨ (s.status.busy = false ∧ ∃ v rest, v.getLsbD 3 = true
        ∧ s.agenda = .busWrite (s.cfg.engineBase + 0x0C) 4 v :: rest))
    ∧ ∀ (s : State) (rest : List Event) (v : Word), s.status.busy = false → v.getLsbD 3 = true →
      s.agenda = .busWrite (s.cfg.engineBase + 0x0C) 4 v :: rest → ∃ t, step s = .next t ∧ t.status.bwi = false

/-- The access column of R30, with R32, R34 and R46: a register write while idle; and the line after it (R350): a write of CTRL
masks it or lets a standing DONE through, a write that clears DONE and a command start drop it, no other write changes it. -/
def Obligations.IdleRegisterWrites : Prop :=
  ∀ (s : State) (rest : List Event) (v : Word), s.status.busy = false → ∀ p ∈ registerTable,
    s.agenda = .busWrite (s.cfg.engineBase + p.1) 4 v :: rest →
    let s0 := { s with agenda := rest }
    ∃ t, step s = .next t
      ∧ t = (match p.2 with
      | .ctrl => { s0 with ctrl := { ie := v.getLsbD 0 } }
      | .cmd => s0.startCommand v
      | .status => { s0 with status := { s.status with
          done := if v.getLsbD 1 then false else s.status.done
          bwi := if v.getLsbD 3 then false else s.status.bwi } }
      | .arg0 => { s0 with arg0 := v }
      | .arg1 => { s0 with arg1 := v }
      | .inLen => { s0 with inLen := v }
      | .mode => { s0 with mode := { bin := v.getLsbD 0, dict := v.getLsbD 1 } }
      | _ => s0)
      ∧ t.irq = (match p.2 with
      | .ctrl => v.getLsbD 0 && s.status.done
      | .cmd => false
      | .status => if v.getLsbD 1 then false else s.ctrl.ie && s.status.done
      | _ => s.irq)

/-- R30 to R49, R90, R341: what a register read returns while idle, the error codes by their numbers; the read changes nothing
but what the host has read. -/
def Obligations.RegisterReads : Prop :=
  ∀ (s : State) (rest : List Event), s.status.busy = false → ∀ p ∈ registerTable,
    s.agenda = .busRead (s.cfg.engineBase + p.1) 4 :: rest →
      step s = .next { s with agenda := rest, readData := registerValue s p.2 }

/-- R30, R86: a reserved offset reads 0, and ignores writes while idle; an access that is not an aligned word reads 0 and
ignores writes, while BUSY too (log 11). -/
def Obligations.NarrowAndReservedAccesses : Prop :=
  ∀ (s : State) (rest : List Event) (offset size : Nat) (v : Word), offset < 256 →
    (0x40 ≤ offset ∨ size ≠ 4 ∨ offset % 4 ≠ 0 → s.agenda = .busRead (s.cfg.engineBase + offset) size :: rest →
        step s = .next { s with agenda := rest, readData := 0 })
      ∧ (size ≠ 4 ∨ offset % 4 ≠ 0 ∨ (0x40 ≤ offset ∧ s.status.busy = false) →
        s.agenda = .busWrite (s.cfg.engineBase + offset) size v :: rest → step s = .next { s with agenda := rest })

/-- R384, R34: while BUSY a result register reads its value at the command's start or at its end, unspecified which (log 6);
every other register reads its value, which for STATUS has bit 0, BUSY, at 1. -/
def Obligations.BusyReads : Prop :=
  ∀ (s t : State) (rest : List Event), s.status.busy = true → ∀ p ∈ registerTable,
    s.agenda = .busRead (s.cfg.engineBase + p.1) 4 :: rest → engineStep { s with agenda := rest } = .next t →
    (p.2 ∈ [Reg.res0, .res1, .errinfo, .outLen, .outBitpos, .inBitpos, .mode, .symcount, .bytesRead] →
      ∃ v, (v = registerValue s p.2 ∨ v = registerValue t p.2)
        ∧ step s = .next { s with agenda := rest, readData := v, freeCount := s.freeCount + 1 })
      ∧ (p.2 ∈ [Reg.id, .ctrl, .cmd, .arg0, .arg1, .inLen] →
        step s = .next { s with agenda := rest, readData := registerValue s p.2 })
      ∧ (p.2 = .status → step s = .next { s with
          agenda := rest
          readData := BitVec.ofNat 32 (1 + 2 * s.status.done.toNat + 4 * s.status.err.toNat + 8 * s.status.bwi.toNat
            + 256 * errorNumber s.status.errcode) })

/-- R386, R98: the machine stops on exactly the host steps that the spec gives no move, a memory write while BUSY (log 9)
and an access outside the 256 bytes of the window at ENGINE_BASE (R30) or outside the memories (log 10). -/
def Obligations.StopsExactlyOnForbiddenHostSteps : Prop :=
  (∀ s : State, s.agenda = [] → ∃ t, step s = .next t)
    ∧ (∀ (s : State) (e : Event) (rest : List Event), s.agenda = e :: rest →
      ((∃ t, step s = .next t) ↔ eventAllowed s e))
    ∧ ∀ (s : State) (rest : List Event) (a : Nat) (b : Byte), s.status.busy = true →
      (s.agenda = .inWrite a b :: rest → a < s.cfg.inMemBytes → step s = .fault .memoryWriteWhileBusy)
        ∧ (s.agenda = .outWrite a b :: rest → a < s.cfg.outMemBytes → step s = .fault .memoryWriteWhileBusy)

/-- R80, R81, R90, R390: the host reads and writes single bytes of the two memories, which never alias; a read changes
nothing but what the host has read. `IN` may be read while BUSY; a read of `OUT` while BUSY gives some byte (R98; that it is a
free one, counted by the model, is log 7) and changes nothing else either. -/
def Obligations.HostMemoryAccess : Prop :=
  ∀ (s : State) (rest : List Event) (a : Nat) (b : Byte),
    (s.agenda = .inRead a :: rest → a < s.cfg.inMemBytes →
        step s = .next { s with agenda := rest, readData := (s.inByte a).setWidth 32 })
      ∧ (s.status.busy = false → s.agenda = .outRead a :: rest → a < s.cfg.outMemBytes →
        step s = .next { s with agenda := rest, readData := (s.outByte a).setWidth 32 })
      ∧ (s.status.busy = true → s.agenda = .outRead a :: rest → a < s.cfg.outMemBytes → ∃ x : Byte,
        step s = .next { s with agenda := rest, readData := x.setWidth 32, freeCount := s.freeCount + 1 })
      ∧ (s.status.busy = false → s.agenda = .inWrite a b :: rest → a < s.cfg.inMemBytes → ∃ t, step s = .next t
        ∧ t = { s with agenda := rest, inMem := t.inMem } ∧ ∀ x, t.inByte x = if x = a then b else s.inByte x)
      ∧ (s.status.busy = false → s.agenda = .outWrite a b :: rest → a < s.cfg.outMemBytes → ∃ t, step s = .next t
        ∧ t = { s with agenda := rest, outMem := t.outMem } ∧ ∀ x, t.outByte x = if x = a then b else s.outByte x)

/-! ### Invariants that every step keeps -/

/-- The memories and tables keep their canonical form and list only bytes that exist (R80, R81). -/
def Obligations.CanonicalStoresKept : Prop :=
  ∀ s t : State, CursorsBounded s → CanonicalStores s → step s = .next t → CanonicalStores t

/-- R36, R382, R113, R341, R51: BUSY is 1 exactly when the sequencer is not IDLE, and the report agrees with ERR. -/
def Obligations.ControlConsistentKept : Prop :=
  ∀ s t : State, ControlConsistent s → step s = .next t → ControlConsistent t

/-- R41: the structural invariants of the tree. -/
def Obligations.TreeShapeKept : Prop :=
  ∀ s t : State, TreeShape s.nodes → step s = .next t → TreeShape t.nodes

/-- R42, R183: the frequency relation and the bound of the root, on a tree of the shape of R41. -/
def Obligations.FrequencyKept : Prop :=
  ∀ s t : State, TreeShape s.nodes → FrequencyBound s.nodes → step s = .next t → FrequencyBound t.nodes

/-- R9, R262: the cursors stay inside the memories, and no step leaves the sequencer inside a command (R382). -/
def Obligations.CursorsBoundedKept : Prop :=
  ∀ s t : State, CursorsBounded s → step s = .next t → CursorsBounded t

/-- R44: every position a chain can reach has had its link written. That INIT and reset keep the listed links is the model's
choice (log 3). -/
def Obligations.LinksWrittenKept : Prop :=
  ∀ s t : State, LinksWritten s → step s = .next t → LinksWritten t

/-- The state after reset meets every invariant, on every platform that R9 allows; `State.reset` is that state on one such
platform, which log 1 chooses. That both memories list nothing is log 2, and that no link is listed is log 3: the canonical
form and the written links of the state after reset rest on these choices of the model. -/
def Obligations.ResetMeetsInvariants : Prop :=
  (∀ cfg : Config.Platform, cfg.wf →
    let s := State.resetOn cfg
    CanonicalStores s ∧ ControlConsistent s ∧ TreeShape s.nodes ∧ FrequencyBound s.nodes ∧ CursorsBounded s
      ∧ LinksWritten s)
    ∧ ∃ cfg : Config.Platform, cfg.wf ∧ State.reset = State.resetOn cfg

/-! ### A COMPRESS that runs out of room -/

/-- R251, R343: what a COMPRESS that overflows leaves. The stream it was writing is longer than `OUT`; `OUT` holds its first
bits, to the last; the cursor and ERRINFO stand at the failing bit; a symbol cut in its code is not counted, a copy cut in its
field is; `k` items lie whole before the cut, and the next one, or the terminator, was being written at position `p`, with the
positions up to `p` inserted and `min(n, p + 67)` bytes read ahead. -/
def Obligations.CompressStopsAtFullOutput : Prop :=
  ∀ s t : State, s.cfg.wf → s.inLen.toNat ≤ s.cfg.inMemBytes → s.status.err = false → exec .compress s = .next t →
    t.status.err = true →
    ∃ (items : List Item) (last : Bool) (k p : Nat) (dict : Bool),
      let bits := streamBits [] items
      let stop := 8 * s.cfg.outMemBytes
      let n := s.inLen.toNat
      Chooses s items n last ∧ Chooses s (items.take k) p dict ∧ CutAfter items stop k ∧ stop < bits.length
        ∧ t = { s with
            nodes := itemsModel [] (items.take (symbolsBefore items stop k))
            head := t.head
            next := t.next
            prev := t.prev
            outMem := t.outMem
            outBitpos := BitVec.ofNat 32 stop
            inBitpos := 0
            mode := { bin := (startMode s).bin, dict := dict }
            symcount := BitVec.ofNat 32 (symbolsBefore items stop k)
            bytesRead := BitVec.ofNat 32 (min n (p + 67)) }.afterAbort .outputOverflow (BitVec.ofNat 32 stop)
        ∧ (∀ b, b < stop → t.outBit b = bits.getD b false) ∧ (∀ a, s.cfg.outMemBytes ≤ a → t.outByte a = s.outByte a)
        ∧ ChainsHold t (min n (p + 1))

end
end

