-- ==== Sys2Proof/Laws/Sparse.lean ====
section
/-! SUPPORT. Sparse tables: reading after writing, and the canonical form, which every write keeps. -/

namespace Sys2Proof.Machine

variable {α : Type}

@[simp] theorem sparseFind_nil (a : Nat) : sparseFind ([] : List (Nat × α)) a = none := rfl

@[simp] theorem sparseErase_nil (a : Nat) : sparseErase ([] : List (Nat × α)) a = [] := rfl

@[simp] theorem sparseList_nil (a : Nat) (v : α) : sparseList [] a v = [(a, v)] := rfl

@[simp] theorem sparseGet_nil (d : α) (a : Nat) : sparseGet d [] a = d := rfl

theorem sparseFind_cons (k : Nat) (v : α) (m : List (Nat × α)) (a : Nat) :
    sparseFind ((k, v) :: m) a = if k = a then some v else sparseFind m a := rfl

/-- After erasing an index nothing is listed there. -/
theorem sparseFind_erase_same (m : List (Nat × α)) (a : Nat) : sparseFind (sparseErase m a) a = none := by
  induction m with
  | nil => rfl
  | cons e m ih =>
    obtain ⟨k, v⟩ := e
    by_cases h : k = a <;> simp [sparseErase, sparseFind, h, ih]

/-- Erasing an index leaves every other index as it was. -/
theorem sparseFind_erase_other (m : List (Nat × α)) {a b : Nat} (hab : a ≠ b) :
    sparseFind (sparseErase m a) b = sparseFind m b := by
  induction m with
  | nil => rfl
  | cons e m ih =>
    obtain ⟨k, v⟩ := e
    by_cases h : k = a
    · subst h; simp [sparseErase, sparseFind, hab, ih]
    · rw [sparseErase, if_neg h, sparseFind_cons, sparseFind_cons, ih]

/-- After listing a value at an index it is found there. -/
theorem sparseFind_list_same (m : List (Nat × α)) (a : Nat) (v : α) : sparseFind (sparseList m a v) a = some v := by
  induction m with
  | nil => simp [sparseList, sparseFind]
  | cons e m ih =>
    obtain ⟨k, w⟩ := e
    unfold sparseList
    split
    · simp [sparseFind]
    · split
      · simp [sparseFind]
      · rename_i h; simp [sparseFind, h, ih]

/-- Listing a value leaves every other index as it was. -/
theorem sparseFind_list_other (m : List (Nat × α)) {a b : Nat} (v : α) (hab : a ≠ b) :
    sparseFind (sparseList m a v) b = sparseFind m b := by
  induction m with
  | nil => simp [sparseList, sparseFind, hab]
  | cons e m ih =>
    obtain ⟨k, w⟩ := e
    unfold sparseList
    split
    · simp [sparseFind, hab]
    · split
      · rename_i h; subst h; simp [sparseFind, hab]
      · by_cases h2 : k = b <;> simp [sparseFind, h2, ih]

theorem sparseGet_list_same (d : α) (m : List (Nat × α)) (a : Nat) (v : α) : sparseGet d (sparseList m a v) a = v := by
  simp [sparseGet, sparseFind_list_same]

theorem sparseGet_list_other (d : α) (m : List (Nat × α)) {a b : Nat} (v : α) (hab : a ≠ b) :
    sparseGet d (sparseList m a v) b = sparseGet d m b := by
  simp [sparseGet, sparseFind_list_other m v hab]

variable [DecidableEq α]

/-- Reading an index after writing it gives the value written. -/
theorem sparseGet_put_same (d : α) (m : List (Nat × α)) (a : Nat) (v : α) : sparseGet d (sparsePut d m a v) a = v := by
  by_cases h : v = d
  · simp [sparsePut, sparseGet, h, sparseFind_erase_same]
  · simp [sparsePut, h, sparseGet_list_same]

/-- Writing an index leaves every other index as it was, whatever its default. -/
theorem sparseGet_put_other (d d' : α) (m : List (Nat × α)) {a b : Nat} (v : α) (hab : a ≠ b) :
    sparseGet d' (sparsePut d m a v) b = sparseGet d' m b := by
  by_cases h : v = d
  · simp [sparsePut, sparseGet, h, sparseFind_erase_other m hab]
  · simp [sparsePut, h, sparseGet_list_other d' m v hab]

/-! ### The canonical form -/

/-- Every index of a table is above a bound. -/
def sparseAbove (k : Nat) (m : List (Nat × α)) : Prop := ∀ e ∈ m, k < e.1

omit [DecidableEq α] in
theorem sparseRising_cons (k : Nat) (v : α) (m : List (Nat × α)) :
    sparseRising ((k, v) :: m) = true ↔ sparseAbove k m ∧ sparseRising m = true := by
  induction m generalizing k v with
  | nil => simp [sparseRising, sparseAbove]
  | cons e m ih =>
    obtain ⟨k', v'⟩ := e
    simp only [sparseRising, Bool.and_eq_true, decide_eq_true_eq]
    constructor
    · rintro ⟨h1, h2⟩
      refine ⟨?_, h2⟩
      intro e he
      rcases List.mem_cons.1 he with rfl | he
      · exact h1
      · exact lt_trans h1 (((ih k' v').1 h2).1 e he)
    · rintro ⟨h1, h2⟩
      exact ⟨h1 (k', v') (by simp), h2⟩

omit [DecidableEq α] in
theorem sparseAbove_erase {k a : Nat} {m : List (Nat × α)} (h : sparseAbove k m) : sparseAbove k (sparseErase m a) := by
  induction m with
  | nil => simpa using h
  | cons e m ih =>
    obtain ⟨k', v'⟩ := e
    have hm : sparseAbove k m := fun e he => h e (by simp [he])
    by_cases hk : k' = a
    · simpa [sparseErase, hk] using ih hm
    · intro e he
      simp only [sparseErase, hk, if_false, List.mem_cons] at he
      rcases he with rfl | he
      · exact h (k', v') (by simp)
      · exact ih hm e he

omit [DecidableEq α] in
/-- Erasing keeps the indices rising. -/
theorem sparseRising_erase {m : List (Nat × α)} (a : Nat) (h : sparseRising m = true) :
    sparseRising (sparseErase m a) = true := by
  induction m with
  | nil => rfl
  | cons e m ih =>
    obtain ⟨k, v⟩ := e
    obtain ⟨h1, h2⟩ := (sparseRising_cons k v m).1 h
    by_cases hk : k = a
    · simpa [sparseErase, hk] using ih h2
    · simp only [sparseErase, hk, if_false]
      exact (sparseRising_cons _ _ _).2 ⟨sparseAbove_erase h1, ih h2⟩

omit [DecidableEq α] in
theorem mem_sparseList {m : List (Nat × α)} {a : Nat} {v : α} {e : Nat × α} (h : e ∈ sparseList m a v) :
    e = (a, v) ∨ e ∈ m := by
  induction m with
  | nil => simpa using h
  | cons x m ih =>
    obtain ⟨k, w⟩ := x
    unfold sparseList at h
    split at h
    · simpa using h
    · split at h
      · rcases List.mem_cons.1 h with h | h <;> simp [h]
      · rcases List.mem_cons.1 h with h | h
        · simp [h]
        · rcases ih h with h | h <;> simp [h]

omit [DecidableEq α] in
theorem mem_sparseErase {m : List (Nat × α)} {a : Nat} {e : Nat × α} (h : e ∈ sparseErase m a) : e ∈ m := by
  induction m with
  | nil => simp at h
  | cons x m ih =>
    obtain ⟨k, w⟩ := x
    by_cases hk : k = a
    · simp only [sparseErase, hk, if_true] at h; exact List.mem_cons_of_mem _ (ih h)
    · simp only [sparseErase, hk, if_false, List.mem_cons] at h
      rcases h with h | h
      · simp [h]
      · exact List.mem_cons_of_mem _ (ih h)

omit [DecidableEq α] in
/-- Listing a value keeps the indices rising. -/
theorem sparseRising_list {m : List (Nat × α)} (a : Nat) (v : α) (h : sparseRising m = true) :
    sparseRising (sparseList m a v) = true := by
  induction m with
  | nil => rfl
  | cons e m ih =>
    obtain ⟨k, w⟩ := e
    obtain ⟨h1, h2⟩ := (sparseRising_cons k w m).1 h
    unfold sparseList
    split
    · rename_i hak
      refine (sparseRising_cons _ _ _).2 ⟨?_, h⟩
      intro e he
      rcases List.mem_cons.1 he with rfl | he
      · exact hak
      · exact lt_trans hak (h1 e he)
    · split
      · rename_i hk; subst hk
        exact (sparseRising_cons _ _ _).2 ⟨h1, h2⟩
      · rename_i hak hka
        refine (sparseRising_cons _ _ _).2 ⟨?_, ih h2⟩
        intro e he
        rcases mem_sparseList he with rfl | he
        · exact lt_of_le_of_ne (not_lt.1 hak) hka
        · exact h1 e he

/-- A write keeps the indices rising. -/
theorem sparseRising_put {m : List (Nat × α)} (d : α) (a : Nat) (v : α) (h : sparseRising m = true) :
    sparseRising (sparsePut d m a v) = true := by
  unfold sparsePut
  split
  · exact sparseRising_erase a h
  · exact sparseRising_list a v h

theorem sparseWf_iff (d : Nat → α) (m : List (Nat × α)) :
    sparseWf d m = true ↔ sparseRising m = true ∧ ∀ e ∈ m, e.2 ≠ d e.1 := by
  simp [sparseWf]

/-- A write with the index's own default keeps the canonical form. -/
theorem sparseWf_put (d : Nat → α) {m : List (Nat × α)} (a : Nat) (v : α) (h : sparseWf d m = true) :
    sparseWf d (sparsePut (d a) m a v) = true := by
  obtain ⟨h1, h2⟩ := (sparseWf_iff d m).1 h
  refine (sparseWf_iff d _).2 ⟨sparseRising_put _ a v h1, ?_⟩
  intro e he
  unfold sparsePut at he
  split at he
  · exact h2 e (mem_sparseErase he)
  · rename_i hv
    rcases mem_sparseList he with rfl | he
    · exact hv
    · exact h2 e he

/-- Where a write's entries come from: the index written, or the table before. -/
theorem mem_sparsePut {d : α} {m : List (Nat × α)} {a : Nat} {v : α} {e : Nat × α} (h : e ∈ sparsePut d m a v) :
    e = (a, v) ∨ e ∈ m := by
  unfold sparsePut at h
  split at h
  · exact Or.inr (mem_sparseErase h)
  · exact mem_sparseList h

end Sys2Proof.Machine
end

