-- ==== Sys2Proof/Laws/State.lean ====
section
/-! SUPPORT. One lemma per field per update of the state, true by unfolding. -/

namespace Sys2Proof.Machine

/-! ### `startCommand` (R113) -/

@[simp] theorem State.startCommand_cfg (s : State) (w : Word) : (s.startCommand w).cfg = s.cfg := rfl
@[simp] theorem State.startCommand_ctrl (s : State) (w : Word) : (s.startCommand w).ctrl = s.ctrl := rfl
@[simp] theorem State.startCommand_status (s : State) (w : Word) : (s.startCommand w).status = { s.status with busy := true, done := false, err := false, errcode := .none } := rfl
@[simp] theorem State.startCommand_arg0 (s : State) (w : Word) : (s.startCommand w).arg0 = s.arg0 := rfl
@[simp] theorem State.startCommand_arg1 (s : State) (w : Word) : (s.startCommand w).arg1 = s.arg1 := rfl
@[simp] theorem State.startCommand_res0 (s : State) (w : Word) : (s.startCommand w).res0 = s.res0 := rfl
@[simp] theorem State.startCommand_res1 (s : State) (w : Word) : (s.startCommand w).res1 = s.res1 := rfl
@[simp] theorem State.startCommand_inLen (s : State) (w : Word) : (s.startCommand w).inLen = s.inLen := rfl
@[simp] theorem State.startCommand_outBitpos (s : State) (w : Word) : (s.startCommand w).outBitpos = s.outBitpos := rfl
@[simp] theorem State.startCommand_inBitpos (s : State) (w : Word) : (s.startCommand w).inBitpos = s.inBitpos := rfl
@[simp] theorem State.startCommand_errinfo (s : State) (w : Word) : (s.startCommand w).errinfo = 0 := rfl
@[simp] theorem State.startCommand_mode (s : State) (w : Word) : (s.startCommand w).mode = s.mode := rfl
@[simp] theorem State.startCommand_symcount (s : State) (w : Word) : (s.startCommand w).symcount = s.symcount := rfl
@[simp] theorem State.startCommand_bytesRead (s : State) (w : Word) : (s.startCommand w).bytesRead = s.bytesRead := rfl
@[simp] theorem State.startCommand_seq (s : State) (w : Word) : (s.startCommand w).seq = .run w := rfl
@[simp] theorem State.startCommand_pathStack (s : State) (w : Word) : (s.startCommand w).pathStack = s.pathStack := rfl
@[simp] theorem State.startCommand_nodes (s : State) (w : Word) : (s.startCommand w).nodes = s.nodes := rfl
@[simp] theorem State.startCommand_head (s : State) (w : Word) : (s.startCommand w).head = s.head := rfl
@[simp] theorem State.startCommand_next (s : State) (w : Word) : (s.startCommand w).next = s.next := rfl
@[simp] theorem State.startCommand_prev (s : State) (w : Word) : (s.startCommand w).prev = s.prev := rfl
@[simp] theorem State.startCommand_inMem (s : State) (w : Word) : (s.startCommand w).inMem = s.inMem := rfl
@[simp] theorem State.startCommand_outMem (s : State) (w : Word) : (s.startCommand w).outMem = s.outMem := rfl
@[simp] theorem State.startCommand_agenda (s : State) (w : Word) : (s.startCommand w).agenda = s.agenda := rfl
@[simp] theorem State.startCommand_readData (s : State) (w : Word) : (s.startCommand w).readData = s.readData := rfl
@[simp] theorem State.startCommand_freeCount (s : State) (w : Word) : (s.startCommand w).freeCount = s.freeCount := rfl

/-! ### `complete` (R114) -/

@[simp] theorem State.complete_cfg (s : State) (r : Results) : (s.complete r).cfg = s.cfg := rfl
@[simp] theorem State.complete_ctrl (s : State) (r : Results) : (s.complete r).ctrl = s.ctrl := rfl
@[simp] theorem State.complete_status (s : State) (r : Results) : (s.complete r).status = { s.status with busy := false, done := true } := rfl
@[simp] theorem State.complete_arg0 (s : State) (r : Results) : (s.complete r).arg0 = s.arg0 := rfl
@[simp] theorem State.complete_arg1 (s : State) (r : Results) : (s.complete r).arg1 = s.arg1 := rfl
@[simp] theorem State.complete_res0 (s : State) (r : Results) : (s.complete r).res0 = r.res0.getD s.res0 := rfl
@[simp] theorem State.complete_res1 (s : State) (r : Results) : (s.complete r).res1 = r.res1.getD s.res1 := rfl
@[simp] theorem State.complete_inLen (s : State) (r : Results) : (s.complete r).inLen = s.inLen := rfl
@[simp] theorem State.complete_outBitpos (s : State) (r : Results) : (s.complete r).outBitpos = s.outBitpos := rfl
@[simp] theorem State.complete_inBitpos (s : State) (r : Results) : (s.complete r).inBitpos = s.inBitpos := rfl
@[simp] theorem State.complete_errinfo (s : State) (r : Results) : (s.complete r).errinfo = s.errinfo := rfl
@[simp] theorem State.complete_mode (s : State) (r : Results) : (s.complete r).mode = s.mode := rfl
@[simp] theorem State.complete_symcount (s : State) (r : Results) : (s.complete r).symcount = s.symcount := rfl
@[simp] theorem State.complete_bytesRead (s : State) (r : Results) : (s.complete r).bytesRead = s.bytesRead := rfl
@[simp] theorem State.complete_seq (s : State) (r : Results) : (s.complete r).seq = .idle := rfl
@[simp] theorem State.complete_pathStack (s : State) (r : Results) : (s.complete r).pathStack = [] := rfl
@[simp] theorem State.complete_nodes (s : State) (r : Results) : (s.complete r).nodes = s.nodes := rfl
@[simp] theorem State.complete_head (s : State) (r : Results) : (s.complete r).head = s.head := rfl
@[simp] theorem State.complete_next (s : State) (r : Results) : (s.complete r).next = s.next := rfl
@[simp] theorem State.complete_prev (s : State) (r : Results) : (s.complete r).prev = s.prev := rfl
@[simp] theorem State.complete_inMem (s : State) (r : Results) : (s.complete r).inMem = s.inMem := rfl
@[simp] theorem State.complete_outMem (s : State) (r : Results) : (s.complete r).outMem = s.outMem := rfl
@[simp] theorem State.complete_agenda (s : State) (r : Results) : (s.complete r).agenda = s.agenda := rfl
@[simp] theorem State.complete_readData (s : State) (r : Results) : (s.complete r).readData = s.readData := rfl
@[simp] theorem State.complete_freeCount (s : State) (r : Results) : (s.complete r).freeCount = s.freeCount := rfl

/-! ### `raise` (R340) -/

@[simp] theorem State.raise_cfg (s : State) (e : ErrCode) (info : Word) : (s.raise e info).cfg = s.cfg := rfl
@[simp] theorem State.raise_ctrl (s : State) (e : ErrCode) (info : Word) : (s.raise e info).ctrl = s.ctrl := rfl
@[simp] theorem State.raise_status (s : State) (e : ErrCode) (info : Word) : (s.raise e info).status = { s.status with errcode := e, err := true, busy := false, done := true } := rfl
@[simp] theorem State.raise_arg0 (s : State) (e : ErrCode) (info : Word) : (s.raise e info).arg0 = s.arg0 := rfl
@[simp] theorem State.raise_arg1 (s : State) (e : ErrCode) (info : Word) : (s.raise e info).arg1 = s.arg1 := rfl
@[simp] theorem State.raise_res0 (s : State) (e : ErrCode) (info : Word) : (s.raise e info).res0 = s.res0 := rfl
@[simp] theorem State.raise_res1 (s : State) (e : ErrCode) (info : Word) : (s.raise e info).res1 = s.res1 := rfl
@[simp] theorem State.raise_inLen (s : State) (e : ErrCode) (info : Word) : (s.raise e info).inLen = s.inLen := rfl
@[simp] theorem State.raise_outBitpos (s : State) (e : ErrCode) (info : Word) : (s.raise e info).outBitpos = s.outBitpos := rfl
@[simp] theorem State.raise_inBitpos (s : State) (e : ErrCode) (info : Word) : (s.raise e info).inBitpos = s.inBitpos := rfl
@[simp] theorem State.raise_errinfo (s : State) (e : ErrCode) (info : Word) : (s.raise e info).errinfo = info := rfl
@[simp] theorem State.raise_mode (s : State) (e : ErrCode) (info : Word) : (s.raise e info).mode = s.mode := rfl
@[simp] theorem State.raise_symcount (s : State) (e : ErrCode) (info : Word) : (s.raise e info).symcount = s.symcount := rfl
@[simp] theorem State.raise_bytesRead (s : State) (e : ErrCode) (info : Word) : (s.raise e info).bytesRead = s.bytesRead := rfl
@[simp] theorem State.raise_seq (s : State) (e : ErrCode) (info : Word) : (s.raise e info).seq = .idle := rfl
@[simp] theorem State.raise_pathStack (s : State) (e : ErrCode) (info : Word) : (s.raise e info).pathStack = [] := rfl
@[simp] theorem State.raise_nodes (s : State) (e : ErrCode) (info : Word) : (s.raise e info).nodes = s.nodes := rfl
@[simp] theorem State.raise_head (s : State) (e : ErrCode) (info : Word) : (s.raise e info).head = s.head := rfl
@[simp] theorem State.raise_next (s : State) (e : ErrCode) (info : Word) : (s.raise e info).next = s.next := rfl
@[simp] theorem State.raise_prev (s : State) (e : ErrCode) (info : Word) : (s.raise e info).prev = s.prev := rfl
@[simp] theorem State.raise_inMem (s : State) (e : ErrCode) (info : Word) : (s.raise e info).inMem = s.inMem := rfl
@[simp] theorem State.raise_outMem (s : State) (e : ErrCode) (info : Word) : (s.raise e info).outMem = s.outMem := rfl
@[simp] theorem State.raise_agenda (s : State) (e : ErrCode) (info : Word) : (s.raise e info).agenda = s.agenda := rfl
@[simp] theorem State.raise_readData (s : State) (e : ErrCode) (info : Word) : (s.raise e info).readData = s.readData := rfl
@[simp] theorem State.raise_freeCount (s : State) (e : ErrCode) (info : Word) : (s.raise e info).freeCount = s.freeCount := rfl

/-! ### `initState` (R321) -/

@[simp] theorem State.initState_cfg (s : State) : (s.initState).cfg = s.cfg := rfl
@[simp] theorem State.initState_ctrl (s : State) : (s.initState).ctrl = s.ctrl := rfl
@[simp] theorem State.initState_status (s : State) : (s.initState).status = s.status := rfl
@[simp] theorem State.initState_arg0 (s : State) : (s.initState).arg0 = s.arg0 := rfl
@[simp] theorem State.initState_arg1 (s : State) : (s.initState).arg1 = s.arg1 := rfl
@[simp] theorem State.initState_res0 (s : State) : (s.initState).res0 = s.res0 := rfl
@[simp] theorem State.initState_res1 (s : State) : (s.initState).res1 = s.res1 := rfl
@[simp] theorem State.initState_inLen (s : State) : (s.initState).inLen = s.inLen := rfl
@[simp] theorem State.initState_outBitpos (s : State) : (s.initState).outBitpos = 0 := rfl
@[simp] theorem State.initState_inBitpos (s : State) : (s.initState).inBitpos = 0 := rfl
@[simp] theorem State.initState_errinfo (s : State) : (s.initState).errinfo = s.errinfo := rfl
@[simp] theorem State.initState_mode (s : State) : (s.initState).mode = { bin := false, dict := false } := rfl
@[simp] theorem State.initState_symcount (s : State) : (s.initState).symcount = 0 := rfl
@[simp] theorem State.initState_bytesRead (s : State) : (s.initState).bytesRead = 0 := rfl
@[simp] theorem State.initState_seq (s : State) : (s.initState).seq = s.seq := rfl
@[simp] theorem State.initState_pathStack (s : State) : (s.initState).pathStack = s.pathStack := rfl
@[simp] theorem State.initState_nodes (s : State) : (s.initState).nodes = [] := rfl
@[simp] theorem State.initState_head (s : State) : (s.initState).head = [] := rfl
@[simp] theorem State.initState_next (s : State) : (s.initState).next = s.next := rfl
@[simp] theorem State.initState_prev (s : State) : (s.initState).prev = s.prev := rfl
@[simp] theorem State.initState_inMem (s : State) : (s.initState).inMem = s.inMem := rfl
@[simp] theorem State.initState_outMem (s : State) : (s.initState).outMem = s.outMem := rfl
@[simp] theorem State.initState_agenda (s : State) : (s.initState).agenda = s.agenda := rfl
@[simp] theorem State.initState_readData (s : State) : (s.initState).readData = s.readData := rfl
@[simp] theorem State.initState_freeCount (s : State) : (s.initState).freeCount = s.freeCount := rfl

/-! ### `setOutByte` (R12) -/

@[simp] theorem State.setOutByte_cfg (s : State) (a : Nat) (b : Byte) : (s.setOutByte a b).cfg = s.cfg := rfl
@[simp] theorem State.setOutByte_ctrl (s : State) (a : Nat) (b : Byte) : (s.setOutByte a b).ctrl = s.ctrl := rfl
@[simp] theorem State.setOutByte_status (s : State) (a : Nat) (b : Byte) : (s.setOutByte a b).status = s.status := rfl
@[simp] theorem State.setOutByte_arg0 (s : State) (a : Nat) (b : Byte) : (s.setOutByte a b).arg0 = s.arg0 := rfl
@[simp] theorem State.setOutByte_arg1 (s : State) (a : Nat) (b : Byte) : (s.setOutByte a b).arg1 = s.arg1 := rfl
@[simp] theorem State.setOutByte_res0 (s : State) (a : Nat) (b : Byte) : (s.setOutByte a b).res0 = s.res0 := rfl
@[simp] theorem State.setOutByte_res1 (s : State) (a : Nat) (b : Byte) : (s.setOutByte a b).res1 = s.res1 := rfl
@[simp] theorem State.setOutByte_inLen (s : State) (a : Nat) (b : Byte) : (s.setOutByte a b).inLen = s.inLen := rfl
@[simp] theorem State.setOutByte_outBitpos (s : State) (a : Nat) (b : Byte) : (s.setOutByte a b).outBitpos = s.outBitpos := rfl
@[simp] theorem State.setOutByte_inBitpos (s : State) (a : Nat) (b : Byte) : (s.setOutByte a b).inBitpos = s.inBitpos := rfl
@[simp] theorem State.setOutByte_errinfo (s : State) (a : Nat) (b : Byte) : (s.setOutByte a b).errinfo = s.errinfo := rfl
@[simp] theorem State.setOutByte_mode (s : State) (a : Nat) (b : Byte) : (s.setOutByte a b).mode = s.mode := rfl
@[simp] theorem State.setOutByte_symcount (s : State) (a : Nat) (b : Byte) : (s.setOutByte a b).symcount = s.symcount := rfl
@[simp] theorem State.setOutByte_bytesRead (s : State) (a : Nat) (b : Byte) : (s.setOutByte a b).bytesRead = s.bytesRead := rfl
@[simp] theorem State.setOutByte_seq (s : State) (a : Nat) (b : Byte) : (s.setOutByte a b).seq = s.seq := rfl
@[simp] theorem State.setOutByte_pathStack (s : State) (a : Nat) (b : Byte) : (s.setOutByte a b).pathStack = s.pathStack := rfl
@[simp] theorem State.setOutByte_nodes (s : State) (a : Nat) (b : Byte) : (s.setOutByte a b).nodes = s.nodes := rfl
@[simp] theorem State.setOutByte_head (s : State) (a : Nat) (b : Byte) : (s.setOutByte a b).head = s.head := rfl
@[simp] theorem State.setOutByte_next (s : State) (a : Nat) (b : Byte) : (s.setOutByte a b).next = s.next := rfl
@[simp] theorem State.setOutByte_prev (s : State) (a : Nat) (b : Byte) : (s.setOutByte a b).prev = s.prev := rfl
@[simp] theorem State.setOutByte_inMem (s : State) (a : Nat) (b : Byte) : (s.setOutByte a b).inMem = s.inMem := rfl
@[simp] theorem State.setOutByte_outMem (s : State) (a : Nat) (b : Byte) : (s.setOutByte a b).outMem = memPut s.outMem a b := rfl
@[simp] theorem State.setOutByte_agenda (s : State) (a : Nat) (b : Byte) : (s.setOutByte a b).agenda = s.agenda := rfl
@[simp] theorem State.setOutByte_readData (s : State) (a : Nat) (b : Byte) : (s.setOutByte a b).readData = s.readData := rfl
@[simp] theorem State.setOutByte_freeCount (s : State) (a : Nat) (b : Byte) : (s.setOutByte a b).freeCount = s.freeCount := rfl

/-! ### `setInByte` (R80) -/

@[simp] theorem State.setInByte_cfg (s : State) (a : Nat) (b : Byte) : (s.setInByte a b).cfg = s.cfg := rfl
@[simp] theorem State.setInByte_ctrl (s : State) (a : Nat) (b : Byte) : (s.setInByte a b).ctrl = s.ctrl := rfl
@[simp] theorem State.setInByte_status (s : State) (a : Nat) (b : Byte) : (s.setInByte a b).status = s.status := rfl
@[simp] theorem State.setInByte_arg0 (s : State) (a : Nat) (b : Byte) : (s.setInByte a b).arg0 = s.arg0 := rfl
@[simp] theorem State.setInByte_arg1 (s : State) (a : Nat) (b : Byte) : (s.setInByte a b).arg1 = s.arg1 := rfl
@[simp] theorem State.setInByte_res0 (s : State) (a : Nat) (b : Byte) : (s.setInByte a b).res0 = s.res0 := rfl
@[simp] theorem State.setInByte_res1 (s : State) (a : Nat) (b : Byte) : (s.setInByte a b).res1 = s.res1 := rfl
@[simp] theorem State.setInByte_inLen (s : State) (a : Nat) (b : Byte) : (s.setInByte a b).inLen = s.inLen := rfl
@[simp] theorem State.setInByte_outBitpos (s : State) (a : Nat) (b : Byte) : (s.setInByte a b).outBitpos = s.outBitpos := rfl
@[simp] theorem State.setInByte_inBitpos (s : State) (a : Nat) (b : Byte) : (s.setInByte a b).inBitpos = s.inBitpos := rfl
@[simp] theorem State.setInByte_errinfo (s : State) (a : Nat) (b : Byte) : (s.setInByte a b).errinfo = s.errinfo := rfl
@[simp] theorem State.setInByte_mode (s : State) (a : Nat) (b : Byte) : (s.setInByte a b).mode = s.mode := rfl
@[simp] theorem State.setInByte_symcount (s : State) (a : Nat) (b : Byte) : (s.setInByte a b).symcount = s.symcount := rfl
@[simp] theorem State.setInByte_bytesRead (s : State) (a : Nat) (b : Byte) : (s.setInByte a b).bytesRead = s.bytesRead := rfl
@[simp] theorem State.setInByte_seq (s : State) (a : Nat) (b : Byte) : (s.setInByte a b).seq = s.seq := rfl
@[simp] theorem State.setInByte_pathStack (s : State) (a : Nat) (b : Byte) : (s.setInByte a b).pathStack = s.pathStack := rfl
@[simp] theorem State.setInByte_nodes (s : State) (a : Nat) (b : Byte) : (s.setInByte a b).nodes = s.nodes := rfl
@[simp] theorem State.setInByte_head (s : State) (a : Nat) (b : Byte) : (s.setInByte a b).head = s.head := rfl
@[simp] theorem State.setInByte_next (s : State) (a : Nat) (b : Byte) : (s.setInByte a b).next = s.next := rfl
@[simp] theorem State.setInByte_prev (s : State) (a : Nat) (b : Byte) : (s.setInByte a b).prev = s.prev := rfl
@[simp] theorem State.setInByte_inMem (s : State) (a : Nat) (b : Byte) : (s.setInByte a b).inMem = memPut s.inMem a b := rfl
@[simp] theorem State.setInByte_outMem (s : State) (a : Nat) (b : Byte) : (s.setInByte a b).outMem = s.outMem := rfl
@[simp] theorem State.setInByte_agenda (s : State) (a : Nat) (b : Byte) : (s.setInByte a b).agenda = s.agenda := rfl
@[simp] theorem State.setInByte_readData (s : State) (a : Nat) (b : Byte) : (s.setInByte a b).readData = s.readData := rfl
@[simp] theorem State.setInByte_freeCount (s : State) (a : Nat) (b : Byte) : (s.setInByte a b).freeCount = s.freeCount := rfl

/-! ### Reading after writing a memory byte -/

@[simp] theorem State.setOutByte_inByte (s : State) (a a' : Nat) (b : Byte) :
    (s.setOutByte a b).inByte a' = s.inByte a' := rfl

@[simp] theorem State.setInByte_outByte (s : State) (a a' : Nat) (b : Byte) :
    (s.setInByte a b).outByte a' = s.outByte a' := rfl

/-! ### `finish`, `bind` and `require` -/

@[simp] theorem CmdRes.bind_ok {α β : Type} (a : α) (s : State) (f : α → State → CmdRes β) :
    (CmdRes.ok a s).bind f = f a s := rfl

@[simp] theorem CmdRes.bind_abort {α β : Type} (e : ErrCode) (i : Word) (s : State) (f : α → State → CmdRes β) :
    (CmdRes.abort e i s : CmdRes α).bind f = .abort e i s := rfl

@[simp] theorem finish_ok (r : Results) (s : State) : finish (.ok r s) = .next (s.complete r) := rfl

@[simp] theorem finish_abort (e : ErrCode) (i : Word) (s : State) : finish (.abort e i s) = .next (s.raise e i) := rfl

@[simp] theorem require_true (e : ErrCode) (i : Word) (s : State) : require true e i s = .ok () s := rfl

@[simp] theorem require_false (e : ErrCode) (i : Word) (s : State) : require false e i s = .abort e i s := rfl

/-- A check goes on in the same state, or raises its error there. -/
theorem require_cases (c : Bool) (e : ErrCode) (i : Word) (s : State) :
    (c = true ∧ require c e i s = .ok () s) ∨ (c = false ∧ require c e i s = .abort e i s) := by
  cases c <;> simp

/-- A command always ends in a next state (R114, R340). -/
theorem finish_next (r : CmdRes Results) : ∃ t, finish r = .next t := by
  cases r <;> exact ⟨_, rfl⟩

/-- What a sequence answers: it goes on where its first part did, or aborts where one of its parts did. -/
theorem CmdRes.bind_eq_ok {α β : Type} {r : CmdRes α} {f : α → State → CmdRes β} {b : β} {t : State}
    (h : r.bind f = .ok b t) : ∃ a s, r = .ok a s ∧ f a s = .ok b t := by
  cases r with
  | ok a s => exact ⟨a, s, rfl, h⟩
  | abort e i s => cases h

theorem CmdRes.bind_eq_abort {α β : Type} {r : CmdRes α} {f : α → State → CmdRes β} {e : ErrCode} {i : Word} {t : State}
    (h : r.bind f = .abort e i t) : r = .abort e i t ∨ ∃ a s, r = .ok a s ∧ f a s = .abort e i t := by
  cases r with
  | ok a s => exact Or.inr ⟨a, s, rfl, h⟩
  | abort e' i' s => exact Or.inl (by cases h; rfl)

end Sys2Proof.Machine
end

