-- ==== Sys2Proof/Laws/Memory.lean ====
section
/-! SUPPORT. Memory: reading after writing, and the canonical form, which every memory operation keeps and reset has. -/

namespace Sys2Proof.Machine

@[simp] theorem memGet_nil (a : Nat) : memGet [] a = unwrittenByte := rfl

@[simp] theorem memGet_memPut_same (m : Memory) (a : Nat) (b : Byte) : memGet (memPut m a b) a = b :=
  sparseGet_put_same _ _ _ _

theorem memGet_memPut_other (m : Memory) {a a' : Nat} (b : Byte) (h : a ≠ a') :
    memGet (memPut m a b) a' = memGet m a' :=
  sparseGet_put_other _ _ _ _ h

theorem memGet_memPut (m : Memory) (a a' : Nat) (b : Byte) :
    memGet (memPut m a b) a' = if a = a' then b else memGet m a' := by
  split
  · rename_i h; subst h; exact memGet_memPut_same m a b
  · rename_i h; exact memGet_memPut_other m b h

/-- Writing a byte keeps the canonical form. -/
theorem Memory.wf_memPut {m : Memory} (a : Nat) (b : Byte) (h : Memory.wf m = true) :
    Memory.wf (memPut m a b) = true :=
  sparseWf_put (fun _ => unwrittenByte) a b h

/-- A host write of `IN` keeps the canonical form. -/
theorem Memory.wf_setInByte {s : State} (a : Nat) (b : Byte) (h : Memory.wf s.inMem = true) :
    Memory.wf (s.setInByte a b).inMem = true := Memory.wf_memPut a b h

/-- A write of `OUT` keeps the canonical form. -/
theorem Memory.wf_setOutByte {s : State} (a : Nat) (b : Byte) (h : Memory.wf s.outMem = true) :
    Memory.wf (s.setOutByte a b).outMem = true := Memory.wf_memPut a b h

/-- Reset's memories have the canonical form. -/
theorem Memory.wf_reset : Memory.wf State.reset.inMem = true ∧ Memory.wf State.reset.outMem = true := ⟨rfl, rfl⟩

/-- Only the address written can be listed anew. -/
theorem mem_memPut {m : Memory} {a : Nat} {b : Byte} {e : Host.Cell} (h : e ∈ memPut m a b) : e = (a, b) ∨ e ∈ m :=
  mem_sparsePut h

@[simp] theorem State.setOutByte_outByte (s : State) (a a' : Nat) (b : Byte) :
    (s.setOutByte a b).outByte a' = if a = a' then b else s.outByte a' := memGet_memPut _ _ _ _

@[simp] theorem State.setInByte_inByte (s : State) (a a' : Nat) (b : Byte) :
    (s.setInByte a b).inByte a' = if a = a' then b else s.inByte a' := memGet_memPut _ _ _ _

end Sys2Proof.Machine
end

