-- ==== Sys2Proof/Laws/Codec.lean ====
section
/-! SUPPORT. The bit primitives: what each can do, said once. -/

namespace Sys2Proof.Machine

/-- `PutBit` with room: one byte of `OUT` and the cursor change (R140). -/
theorem putBit_room {s : State} (v : Bool) (h : s.outBitpos.toNat / 8 < s.cfg.outMemBytes) :
    putBit v s = .ok () { s with
      outMem := memPut s.outMem (s.outBitpos.toNat / 8)
        ((if s.outBitpos.toNat % 8 = 0 then 0 else s.outByte (s.outBitpos.toNat / 8)) ||| byteWithBit v s.outBitpos.toNat)
      outBitpos := s.outBitpos + 1 } := by
  simp only [putBit]
  rw [if_neg (by omega)]

/-- `PutBit` without room raises OUTPUT_OVERFLOW with the cursor as info and changes nothing (R140). -/
theorem putBit_full {s : State} (v : Bool) (h : s.cfg.outMemBytes ≤ s.outBitpos.toNat / 8) :
    putBit v s = .abort .outputOverflow s.outBitpos s := by
  simp only [putBit]
  rw [if_pos h]

/-- The bit writer changes only `OUT` and its cursor; it can raise only OUTPUT_OVERFLOW, with the cursor it stopped at as
info (R140, R343). -/
theorem putBits_cases (vs : List Bool) (s : State) :
    (∃ m b, putBits vs s = .ok () { s with outMem := m, outBitpos := b })
      ∨ (∃ m b, putBits vs s = .abort .outputOverflow b { s with outMem := m, outBitpos := b }) := by
  induction vs generalizing s with
  | nil => exact Or.inl ⟨s.outMem, s.outBitpos, rfl⟩
  | cons v vs ih =>
    by_cases h : s.outBitpos.toNat / 8 < s.cfg.outMemBytes
    · simp only [putBits, putBit_room v h, CmdRes.bind_ok]
      rcases ih { s with
        outMem := memPut s.outMem (s.outBitpos.toNat / 8)
          ((if s.outBitpos.toNat % 8 = 0 then 0 else s.outByte (s.outBitpos.toNat / 8)) |||
            byteWithBit v s.outBitpos.toNat)
        outBitpos := s.outBitpos + 1 } with ⟨m, b, h1⟩ | ⟨m, b, h1⟩
      · exact Or.inl ⟨m, b, h1⟩
      · exact Or.inr ⟨m, b, h1⟩
    · simp only [putBits, putBit_full v (not_lt.1 h), CmdRes.bind_abort]
      exact Or.inr ⟨s.outMem, s.outBitpos, rfl⟩

/-- One bit after another. -/
theorem putBits_append (vs ws : List Bool) (s : State) :
    putBits (vs ++ ws) s = (putBits vs s).bind fun _ s1 => putBits ws s1 := by
  induction vs generalizing s with
  | nil => rfl
  | cons v vs ih =>
    simp only [List.cons_append, putBits]
    cases putBit v s with
    | ok a s1 => simp only [CmdRes.bind_ok, ih]
    | abort e i s1 => rfl

/-- `PutByte` is the eight bits of the byte, so the same holds of it. -/
theorem putByte_cases (x : Byte) (s : State) :
    (∃ m b, putByte x s = .ok () { s with outMem := m, outBitpos := b })
      ∨ (∃ m b, putByte x s = .abort .outputOverflow b { s with outMem := m, outBitpos := b }) :=
  putBits_cases _ s

/-- `Flush` answers the number of pad bits, and changes only `OUT` and its cursor (R142). -/
theorem flush_cases (s : State) :
    (∃ m b, flush s = .ok (padCount s) { s with outMem := m, outBitpos := b })
      ∨ (∃ m b, flush s = .abort .outputOverflow b { s with outMem := m, outBitpos := b }) := by
  unfold flush
  rcases putBits_cases (List.replicate (padCount s) false) s with ⟨m, b, h⟩ | ⟨m, b, h⟩
  · exact Or.inl ⟨m, b, by rw [h]; rfl⟩
  · exact Or.inr ⟨m, b, by rw [h]; rfl⟩

/-- The number of pad bits is 0 to 7 (R142). -/
theorem padCount_le (s : State) : padCount s ≤ 7 := by
  unfold padCount; omega

/-- `GetBit` before the end of the stream: the bit, and the cursor one further (R143). -/
theorem getBit_more {s : State} (h : s.inBitpos.toNat < 8 * s.inLen.toNat) :
    getBit s = .ok ((s.inByte (s.inBitpos.toNat / 8)).getLsbD (bitInByte s.inBitpos.toNat))
      { s with inBitpos := s.inBitpos + 1 } := by
  simp only [getBit]
  rw [if_neg (by omega)]

/-- `GetBit` at or past the end raises STREAM_CORRUPTION_EOF and does not move the cursor (R143). -/
theorem getBit_end {s : State} (h : 8 * s.inLen.toNat ≤ s.inBitpos.toNat) :
    getBit s = .abort .streamCorruptionEof s.inBitpos s := by
  simp only [getBit]
  rw [if_pos h]

/-- The bit reader changes only its cursor; it can raise only STREAM_CORRUPTION_EOF, with the cursor it stopped at as
info (R143, R343). -/
theorem getBits_cases (w : Nat) (s : State) :
    (∃ vs b, vs.length = w ∧ getBits w s = .ok vs { s with inBitpos := b })
      ∨ (∃ b, getBits w s = .abort .streamCorruptionEof b { s with inBitpos := b }) := by
  induction w generalizing s with
  | zero => exact Or.inl ⟨[], s.inBitpos, rfl, rfl⟩
  | succ w ih =>
    by_cases h : s.inBitpos.toNat < 8 * s.inLen.toNat
    · simp only [getBits, getBit_more h, CmdRes.bind_ok]
      rcases ih { s with inBitpos := s.inBitpos + 1 } with ⟨vs, b, hl, h1⟩ | ⟨b, h1⟩
      · exact Or.inl ⟨_ :: vs, b, by simp [hl], by rw [h1]; rfl⟩
      · exact Or.inr ⟨b, by rw [h1]; rfl⟩
    · simp only [getBits, getBit_end (not_lt.1 h), CmdRes.bind_abort]
      exact Or.inr ⟨s.inBitpos, rfl⟩

/-- `GetField` likewise. -/
theorem getField_cases (w : Nat) (s : State) :
    (∃ v b, getField w s = .ok v { s with inBitpos := b })
      ∨ (∃ b, getField w s = .abort .streamCorruptionEof b { s with inBitpos := b }) := by
  unfold getField
  rcases getBits_cases w s with ⟨vs, b, _, h⟩ | ⟨b, h⟩
  · exact Or.inl ⟨natOfBitsLsb vs, b, by rw [h]; rfl⟩
  · exact Or.inr ⟨b, by rw [h]; rfl⟩

/-- A number of `w` bits is below `2 ^ w`. -/
theorem natOfBitsLsb_lt (vs : List Bool) : natOfBitsLsb vs < 2 ^ vs.length := by
  induction vs with
  | nil => simp [natOfBitsLsb]
  | cons v vs ih =>
    have hv : v.toNat ≤ 1 := Bool.toNat_le v
    simp only [natOfBitsLsb, List.length_cons, pow_succ]
    omega

end Sys2Proof.Machine
end

