-- ==== Sys2Proof/Laws/Engine.lean ====
section
/-! SUPPORT. Commands and steps: every command is an ending (completion or abort) of its body, and what one step can be. -/

namespace Sys2Proof.Machine

/-- Every command is `finish` of some result, so it completes (R114) or aborts (R340) and does nothing else at its end. -/
theorem exec_finish (i : Instr) (s : State) : ∃ r, exec i s = finish r := by
  cases i <;>
    simp only [exec, execNop, execInit, execCompress, execDecompress, execMupd, execHenc, execHdec, execNread, execPutf,
      execGetf, execFlsh, execRfnd, execRrd, execHins, execFmat, execMscan] <;>
    exact ⟨_, rfl⟩

/-- Every command answers a next state. -/
theorem exec_next (i : Instr) (s : State) : ∃ t, exec i s = .next t := by
  obtain ⟨r, h⟩ := exec_finish i s
  rw [h]
  cases r <;> exact ⟨_, rfl⟩

/-- The engine's step is idle, an illegal word's abort, or the end of a command (R382). -/
theorem engineStep_cases (s : State) :
    (s.seq = .idle ∧ engineStep s = .next s)
      ∨ (∃ w i, s.seq = .run w ∧ decode w = .ok i ∧ engineStep s = exec i s)
      ∨ (∃ w e, s.seq = .run w ∧ decode w = .error e ∧ engineStep s = .next (s.raise .illegalCommand w))
      ∨ (s.seq ≠ .idle ∧ (∀ w, s.seq ≠ .run w) ∧ ∃ r, engineStep s = finish r) := by
  unfold engineStep
  cases h : s.seq with
  | idle => exact Or.inl ⟨rfl, rfl⟩
  | run w =>
    cases hd : decode w with
    | ok i => exact Or.inr (Or.inl ⟨w, i, rfl, hd, by simp [hd]⟩)
    | error e => exact Or.inr (Or.inr (Or.inl ⟨w, e, rfl, hd, by simp [hd]⟩))
  | _ => exact Or.inr (Or.inr (Or.inr ⟨by simp, by simp, _, rfl⟩))

/-- The engine's step never stops. -/
theorem engineStep_next (s : State) : ∃ t, engineStep s = .next t := by
  rcases engineStep_cases s with ⟨_, h⟩ | ⟨_, i, _, _, h⟩ | ⟨_, _, _, _, h⟩ | ⟨_, _, r, h⟩
  · exact ⟨_, h⟩
  · rw [h]; exact exec_next i s
  · exact ⟨_, h⟩
  · rw [h]; cases r <;> exact ⟨_, rfl⟩

/-- One step is the engine's, or the head of the agenda (R382). -/
theorem step_cases (s : State) :
    (s.agenda = [] ∧ step s = engineStep s)
      ∨ (∃ e rest, s.agenda = e :: rest ∧ step s = takeEvent e { s with agenda := rest }) := by
  unfold step
  cases h : s.agenda with
  | nil => exact Or.inl ⟨rfl, rfl⟩
  | cons e rest => exact Or.inr ⟨e, rest, rfl, rfl⟩

/-- Storing a command word puts it where the next step takes it from. -/
theorem step_withFetchWord (s : State) (nbits w : Nat) :
    step (s.withFetchWord nbits w) = engineStep (s.startCommand (tableWord nbits w)) := rfl

end Sys2Proof.Machine
end

