-- ==== Sys2Proof/Laws/Tree.lean ====
section
/-! SUPPORT. The node arena: reading after writing, the canonical form, what the update and the walks can do to the state,
and the initial tree, which has the shape of R41 and the frequencies of R42. -/

namespace Sys2Proof.Machine

/-! ### Reading after writing a node -/

@[simp] theorem Arena.get_put_same (m : Arena) (k : NodeId) (n : Node) : (m.put k n).get k = n :=
  sparseGet_put_same _ _ _ _

theorem Arena.get_put_other (m : Arena) {k j : NodeId} (n : Node) (h : k ≠ j) : (m.put k n).get j = m.get j :=
  sparseGet_put_other _ _ _ _ (fun e => h (BitVec.eq_of_toNat_eq e))

theorem Arena.get_put (m : Arena) (k j : NodeId) (n : Node) : (m.put k n).get j = if k = j then n else m.get j := by
  split
  · rename_i h; subst h; simp
  · rename_i h; exact m.get_put_other n h

/-- A node write keeps the canonical form. -/
theorem Arena.wf_put {m : Arena} (k : NodeId) (n : Node) (h : sparseWf initNode m = true) :
    sparseWf initNode (m.put k n) = true := sparseWf_put initNode _ _ h

theorem Arena.get_setFreq (m : Arena) (k j : NodeId) (f : Freq) :
    (m.setFreq k f).get j = if k = j then { m.get k with freq := f } else m.get j := m.get_put k j _

theorem Arena.get_setParent (m : Arena) (k j p : NodeId) :
    (m.setParent k p).get j = if k = j then { m.get k with parent := p } else m.get j := m.get_put k j _

theorem Arena.get_setLeft (m : Arena) (k j c : NodeId) :
    (m.setLeft k c).get j = if k = j then { m.get k with left := c } else m.get j := m.get_put k j _

theorem Arena.get_setRight (m : Arena) (k j c : NodeId) :
    (m.setRight k c).get j = if k = j then { m.get k with right := c } else m.get j := m.get_put k j _

/-! ### What a frequency write leaves alone -/

@[simp] theorem Arena.setFreq_parent (m : Arena) (k j : NodeId) (f : Freq) :
    ((m.setFreq k f).get j).parent = (m.get j).parent := by
  rw [Arena.get_setFreq]; split
  · rename_i h; rw [h]
  · rfl

@[simp] theorem Arena.setFreq_left (m : Arena) (k j : NodeId) (f : Freq) :
    ((m.setFreq k f).get j).left = (m.get j).left := by
  rw [Arena.get_setFreq]; split
  · rename_i h; rw [h]
  · rfl

@[simp] theorem Arena.setFreq_right (m : Arena) (k j : NodeId) (f : Freq) :
    ((m.setFreq k f).get j).right = (m.get j).right := by
  rw [Arena.get_setFreq]; split
  · rename_i h; rw [h]
  · rfl

/-- `Recompute` changes frequencies only (R173). -/
theorem Arena.recomputeFrom_links (n : Nat) (m : Arena) (k j : NodeId) :
    ((Arena.recomputeFrom n m k).get j).parent = (m.get j).parent
      ∧ ((Arena.recomputeFrom n m k).get j).left = (m.get j).left
      ∧ ((Arena.recomputeFrom n m k).get j).right = (m.get j).right := by
  induction n generalizing m k with
  | zero => exact ⟨rfl, rfl, rfl⟩
  | succ n ih =>
    unfold Arena.recomputeFrom
    split
    · exact ⟨rfl, rfl, rfl⟩
    · obtain ⟨h1, h2, h3⟩ := ih (m.setFreq k ((m.get (m.get k).left).freq + (m.get (m.get k).right).freq))
        (m.get k).parent
      exact ⟨by simpa using h1, by simpa using h2, by simpa using h3⟩

/-- `Halve` changes frequencies only (R174). -/
theorem Arena.halve_links (m : Arena) (j : NodeId) :
    (m.halve.get j).parent = (m.get j).parent ∧ (m.halve.get j).left = (m.get j).left
      ∧ (m.halve.get j).right = (m.get j).right := by
  unfold Arena.halve
  generalize List.range Config.twiceMax = l
  induction l generalizing m with
  | nil => exact ⟨rfl, rfl, rfl⟩
  | cons i l ih =>
    simp only [List.foldl_cons]
    obtain ⟨h1, h2, h3⟩ := ih (m.halveNode (BitVec.ofNat 11 (i + 1)))
    exact ⟨h1.trans (Arena.setFreq_parent _ _ _ _), h2.trans (Arena.setFreq_left _ _ _ _),
      h3.trans (Arena.setFreq_right _ _ _ _)⟩

/-! ### What the model's operations can do to the state -/

/-- `Update` changes the tree and SYMCOUNT, or raises INVALID_SYMBOL and changes nothing (R176). -/
theorem updateModel_cases (code : Nat) (s : State) :
    (code ≤ Config.maxChar
        ∧ updateModel code s = .ok () { s with nodes := s.nodes.update code, symcount := s.symcount + 1 })
      ∨ (Config.maxChar < code ∧ updateModel code s = .abort .invalidSymbol (BitVec.ofNat 32 code) s) := by
  unfold updateModel
  split
  · rename_i h; exact Or.inr ⟨h, rfl⟩
  · rename_i h; exact Or.inl ⟨not_lt.1 h, rfl⟩

/-- `EncodeSym` of a symbol: the code's bits are written and the model updated, or OUTPUT_OVERFLOW is raised before the
update (R179, R253). -/
theorem encodeSym_cases {code : Nat} (hc : code ≤ Config.maxChar) (s : State) :
    (∃ m b, encodeSym code s = .ok (s.nodes.codeOf code) { s with
        outMem := m, outBitpos := b, pathStack := [],
        nodes := s.nodes.update code, symcount := s.symcount + 1 })
      ∨ (∃ m b, encodeSym code s = .abort .outputOverflow b { s with
        outMem := m, outBitpos := b, pathStack := s.nodes.codeOf code }) := by
  simp only [encodeSym]
  generalize s.nodes.codeOf code = path
  rcases putBits_cases path { s with pathStack := path } with ⟨m, b, h⟩ | ⟨m, b, h⟩
  · rw [h]
    simp only [CmdRes.bind_ok]
    rcases updateModel_cases code { s with outMem := m, outBitpos := b, pathStack := [] } with ⟨_, hu⟩ | ⟨hc', _⟩
    · rw [hu]; exact Or.inl ⟨m, b, rfl⟩
    · exact absurd hc' (not_lt.2 hc)
  · rw [h, CmdRes.bind_abort]; exact Or.inr ⟨m, b, rfl⟩

/-- The walk down the tree moves the read cursor only; it ends on a node that is no internal node, or raises one of the two
stream errors (R180). -/
theorem walkDown_cases (left : Nat) (k : NodeId) (n : Nat) (s : State) :
    (∃ k' n' b, Config.maxChar < k'.toNat ∧ walkDown left k n s = .ok (k', n') { s with inBitpos := b })
      ∨ (∃ e b, (e = .streamCorruptionEof ∨ e = .streamCorruptionNullChild)
        ∧ walkDown left k n s = .abort e b { s with inBitpos := b }) := by
  induction left generalizing k n s with
  | zero =>
    simp only [walkDown]
    split
    · exact Or.inr ⟨_, s.inBitpos, Or.inl rfl, rfl⟩
    · exact Or.inl ⟨k, n, s.inBitpos, by omega, rfl⟩
  | succ left ih =>
    simp only [walkDown]
    split
    · by_cases h : s.inBitpos.toNat < 8 * s.inLen.toNat
      · rw [getBit_more h, CmdRes.bind_ok]
        generalize (s.inByte (s.inBitpos.toNat / 8)).getLsbD (bitInByte s.inBitpos.toNat) = v
        dsimp only
        generalize (if v = true then (s.nodes.get k).right else (s.nodes.get k).left) = k1
        split
        · exact Or.inr ⟨_, s.inBitpos + 1, Or.inr rfl, rfl⟩
        · rcases ih k1 (n + 1) { s with inBitpos := s.inBitpos + 1 } with ⟨k', n', b, h1, h2⟩ | ⟨e, b, h1, h2⟩
          · exact Or.inl ⟨k', n', b, h1, h2⟩
          · exact Or.inr ⟨e, b, h1, h2⟩
      · simp only [getBit_end (not_lt.1 h), CmdRes.bind_abort]
        exact Or.inr ⟨_, s.inBitpos, Or.inl rfl, rfl⟩
    · exact Or.inl ⟨k, n, s.inBitpos, by omega, rfl⟩

/-- `DecodeSym` answers a symbol and updates the model with it, or aborts with the model as it was (R180, R292). -/
theorem decodeSym_cases (s : State) :
    (∃ code n b, code ≤ Config.maxChar ∧ decodeSym s = .ok (code, n) { s with
        inBitpos := b, nodes := s.nodes.update code, symcount := s.symcount + 1 })
      ∨ (∃ e i b, (e = .streamCorruptionEof ∨ e = .streamCorruptionNullChild ∨ e = .invalidSymbol)
        ∧ decodeSym s = .abort e i { s with inBitpos := b }) := by
  simp only [decodeSym]
  rcases walkDown_cases (bitsLeft s) Config.root 0 s with ⟨k, n, b, _, h⟩ | ⟨e, b, he, h⟩
  · rw [h]
    simp only [CmdRes.bind_ok]
    rcases updateModel_cases (symbolOf k) { s with inBitpos := b } with ⟨hc, hu⟩ | ⟨_, hu⟩
    · rw [hu]; exact Or.inl ⟨symbolOf k, n, b, hc, rfl⟩
    · rw [hu]; exact Or.inr ⟨_, _, b, Or.inr (Or.inr rfl), rfl⟩
  · rw [h]
    exact Or.inr ⟨e, b, b, by rcases he with he | he <;> simp [he], rfl⟩

/-! ### The initial tree (R170) -/

@[simp] theorem Arena.get_nil (k : NodeId) : Arena.get [] k = initNode k.toNat := rfl

/-- The depth-bounded count is the same for every bound that is large enough: the sum of R170, node by node. -/
theorem initFreq_sum : ∀ k < 629, 1 ≤ k → initFreq 11 k = initFreq 11 (2 * k) + initFreq 11 (2 * k + 1) := by
  decide +kernel

/-- A node's place in the initial tree, seen from a child. -/
theorem initAncestor : ∀ k < 1258, 2 ≤ k → Arena.ancestor [] (Nat.log2 k) (BitVec.ofNat 11 k) = Config.root := by
  decide +kernel

theorem initFreq_root : initFreq 11 1 = 629 := by decide +kernel

/-- No initial frequency needs more than 16 bits. -/
theorem initFreq_le : ∀ k < 1258, 1 ≤ k → initFreq 11 k ≤ 629 := by decide +kernel

end Sys2Proof.Machine
end

