-- ==== Sys2Proof/Laws/InitialTree.lean ====
section
/-! SUPPORT. The initial tree of R170 has the shape of R41 and the frequency relation of R42. -/

namespace Sys2Proof.Machine

theorem maxChar_eq : Config.maxChar = 628 := rfl
theorem successMax_eq : Config.successMax = 629 := rfl
theorem twiceMax_eq : Config.twiceMax = 1257 := rfl

/-- R170, an internal node. -/
theorem initNode_internal {k : Nat} (h1 : 1 ≤ k) (h2 : k ≤ 628) :
    (initNode k).left = BitVec.ofNat 11 (2 * k) ∧ (initNode k).right = BitVec.ofNat 11 (2 * k + 1) := by
  unfold initNode
  rw [if_pos ⟨h1, by rw [twiceMax_eq]; omega⟩]
  constructor <;> exact if_pos h2

/-- R170, a leaf. -/
theorem initNode_leaf {k : Nat} (h1 : 629 ≤ k) (h2 : k ≤ 1257) :
    (initNode k).left = Config.nil ∧ (initNode k).right = Config.nil := by
  unfold initNode
  rw [if_pos ⟨by omega, h2⟩]
  constructor <;> exact if_neg (by rw [maxChar_eq]; omega)

/-- R170, a node below the root. -/
theorem initNode_parent {k : Nat} (h1 : 2 ≤ k) (h2 : k ≤ 1257) : (initNode k).parent = BitVec.ofNat 11 (k / 2) := by
  unfold initNode
  rw [if_pos ⟨by omega, h2⟩]
  exact if_neg (by omega)

/-- R170, the frequency of any node. -/
theorem initNode_freq {k : Nat} (h1 : 1 ≤ k) (h2 : k ≤ 1257) : (initNode k).freq.toNat = initFreq 11 k := by
  unfold initNode
  rw [if_pos ⟨h1, h2⟩]
  have := initFreq_le k (by omega) h1
  simp only [BitVec.toNat_ofNat]
  omega

theorem toNat_ofNat_id {k : Nat} (h : k < 2048) : (BitVec.ofNat 11 k).toNat = k := by
  simp only [BitVec.toNat_ofNat]; omega

/-- The initial tree satisfies the structural invariants (R41). -/
theorem initialTree_shape : TreeShape [] where
  rootParent := by decide
  leafChildren := by
    rintro k ⟨h1, h2⟩
    rw [successMax_eq] at h1
    rw [twiceMax_eq] at h2
    exact initNode_leaf h1 h2
  internalChildren := by
    rintro k ⟨h1, h2⟩
    rw [maxChar_eq] at h2
    obtain ⟨hl, hr⟩ := initNode_internal h1 h2
    simp only [Arena.get_nil, hl, hr, isBelowRoot, twiceMax_eq]
    rw [toNat_ofNat_id (by omega), toNat_ofNat_id (by omega)]
    refine ⟨by omega, by omega, ?_⟩
    intro h
    have := congrArg BitVec.toNat h
    rw [toNat_ofNat_id (by omega), toNat_ofNat_id (by omega)] at this
    omega
  childParent := by
    rintro k ⟨h1, h2⟩
    rw [maxChar_eq] at h2
    obtain ⟨hl, hr⟩ := initNode_internal h1 h2
    simp only [Arena.get_nil, hl, hr]
    rw [toNat_ofNat_id (by omega), toNat_ofNat_id (by omega), initNode_parent (by omega) (by omega),
      initNode_parent (by omega) (by omega)]
    constructor <;> apply BitVec.eq_of_toNat_eq <;> rw [toNat_ofNat_id (by omega)] <;> omega
  parentChild := by
    rintro k ⟨h1, h2⟩
    rw [twiceMax_eq] at h2
    have hp := initNode_parent h1 h2
    simp only [Arena.get_nil, hp, isInternal, maxChar_eq]
    rw [toNat_ofNat_id (by omega)]
    obtain ⟨hl, hr⟩ := initNode_internal (k := k.toNat / 2) (by omega) (by omega)
    rw [hl, hr]
    refine ⟨by omega, ?_⟩
    rcases Nat.mod_two_eq_zero_or_one k.toNat with h | h
    · left; apply BitVec.eq_of_toNat_eq; rw [toNat_ofNat_id (by omega)]; omega
    · right; apply BitVec.eq_of_toNat_eq; rw [toNat_ofNat_id (by omega)]; omega
  reachesRoot := by
    rintro k ⟨h1, h2⟩
    rw [twiceMax_eq] at h2
    have h3 := initAncestor k.toNat (by omega) h1
    have h4 : Nat.log2 k.toNat < 11 := (Nat.log2_lt (by omega)).2 (by omega)
    refine ⟨Nat.log2 k.toNat, ?_, ?_, ?_⟩
    · exact (Nat.le_log2 (by omega)).2 (by omega)
    · rw [maxChar_eq]; omega
    · have : BitVec.ofNat 11 k.toNat = k := by simp
      rw [this] at h3
      exact h3

/-- Two arenas with the same links have the same ancestors. -/
theorem ancestor_sameParents {m m' : Arena} (h : ∀ k, (m'.get k).parent = (m.get k).parent) (d : Nat) (k : NodeId) :
    m'.ancestor d k = m.ancestor d k := by
  induction d generalizing k with
  | zero => rfl
  | succ d ih => simp only [Arena.ancestor, h, ih]

/-- The shape of R41 is a matter of the links alone. -/
theorem TreeShape.sameLinks {m m' : Arena} (hp : ∀ k, (m'.get k).parent = (m.get k).parent)
    (hl : ∀ k, (m'.get k).left = (m.get k).left) (hr : ∀ k, (m'.get k).right = (m.get k).right) (h : TreeShape m) :
    TreeShape m' where
  rootParent := by rw [hp]; exact h.rootParent
  leafChildren := fun k hk => by rw [hl, hr]; exact h.leafChildren k hk
  internalChildren := fun k hk => by rw [hl, hr]; exact h.internalChildren k hk
  childParent := fun k hk => by rw [hl, hr, hp, hp]; exact h.childParent k hk
  parentChild := fun k hk => by rw [hp, hl, hr]; exact h.parentChild k hk
  reachesRoot := fun k hk => by
    obtain ⟨d, h1, h2, h3⟩ := h.reachesRoot k hk
    exact ⟨d, h1, h2, by rw [ancestor_sameParents hp]; exact h3⟩

/-- A frequency write keeps the shape. -/
theorem TreeShape.setFreq {m : Arena} (k : NodeId) (f : Freq) (h : TreeShape m) : TreeShape (m.setFreq k f) :=
  h.sameLinks (fun _ => Arena.setFreq_parent _ _ _ _) (fun _ => Arena.setFreq_left _ _ _ _)
    (fun _ => Arena.setFreq_right _ _ _ _)

/-- The initial tree satisfies the frequency relation, with a root of 629 (R42, R170, R183). -/
theorem initialTree_frequency : FrequencyBound [] where
  childSum := by
    rintro k ⟨h1, h2⟩
    rw [maxChar_eq] at h2
    obtain ⟨hl, hr⟩ := initNode_internal h1 h2
    simp only [Arena.get_nil, hl, hr]
    rw [toNat_ofNat_id (by omega), toNat_ofNat_id (by omega), initNode_freq (by omega) (by omega),
      initNode_freq (by omega) (by omega), initNode_freq (by omega) (by omega),
      initFreq_sum k.toNat (by omega) h1]
  rootBound := by
    rw [Arena.get_nil]
    have h := initNode_freq (k := 1) (by omega) (by omega)
    rw [initFreq_root] at h
    have h1 : (Config.root : NodeId).toNat = 1 := rfl
    rw [h1, h]
    omega

end Sys2Proof.Machine
end

