-- ==== Sys2Proof/Laws/Match.lean ====
section
/-! SUPPORT. The match finder and the lookahead: what each operation can do, said once. -/

namespace Sys2Proof.Machine

/-- `Insert(p)` changes only the head table and the links, and only for a position with a key (R211, R214). -/
theorem insertPosition_cases (s : State) (p : Nat) :
    (hasKey s p = true ∧ insertPosition s p = (some (hashKey s p), linkPosition s p)
        ∧ ∃ h n v, linkPosition s p = { s with head := h, next := n, prev := v })
      ∨ (hasKey s p = false ∧ insertPosition s p = (none, s)) := by
  unfold insertPosition
  cases h : hasKey s p
  · exact Or.inr ⟨rfl, rfl⟩
  · exact Or.inl ⟨rfl, rfl, _, _, _, rfl⟩

/-- The newest position of the key is the one inserted (R212, R214). -/
theorem linkPosition_head (s : State) (p : Nat) (k : Key) :
    (linkPosition s p).headAt k = if hashKey s p = k then some (BitVec.ofNat 32 p) else s.headAt k := by
  unfold State.headAt linkPosition
  dsimp only
  split
  · rename_i h; subst h; exact sparseGet_put_same _ _ _ _
  · rename_i h; exact sparseGet_put_other _ _ _ _ (fun e => h (BitVec.eq_of_toNat_eq e))

/-- Its link leads to the position that was the newest before (R212, R214). -/
theorem linkPosition_next (s : State) (p : Nat) (c : Word) :
    (linkPosition s p).nextAt c = if BitVec.ofNat 32 p = c then s.headAt (hashKey s p) else s.nextAt c := by
  unfold State.nextAt linkPosition
  dsimp only
  split
  · rename_i h; subst h; simp only [sparseFind_list_same]; rfl
  · rename_i h
    simp only [sparseFind_list_other _ _ (fun e => h (BitVec.eq_of_toNat_eq e))]

/-- The search reads state and writes none; with no hops left, or from a position without a key, it finds nothing (R221). -/
theorem findMatch_keyless {s : State} {q : Nat} (depth : Nat) (h : hasKey s q = false) : findMatch s q depth = (0, 0) := by
  simp [findMatch, h]

theorem findMatch_depth_zero (s : State) (q : Nat) : findMatch s q 0 = (0, 0) := by
  unfold findMatch searchChain
  split <;> rfl

/-- One candidate either leaves the best match as it was, or replaces it with its own extension, which was accepted
(R221, R222). -/
theorem tryCandidate_cases (s : State) (q c : Nat) (best : Nat × Nat) :
    tryCandidate s q c best = best
      ∨ (tryCandidate s q c best = (extendMatch s q c Config.maxCopy 0, q - c - extendMatch s q c Config.maxCopy 0)
        ∧ acceptMatch s q c (extendMatch s q c Config.maxCopy 0) best.1 = true) := by
  unfold tryCandidate
  split
  · simp only
    split
    · rename_i h; exact Or.inr ⟨rfl, h⟩
    · exact Or.inl rfl
  · exact Or.inl rfl

/-- The dictionary check changes MODE.DICT at most (R257). -/
theorem dictCheck_cases (s : State) :
    dictCheck s = s ∨ (s.mode.dict = true ∧ dictCheck s = { s with mode := { s.mode with dict := false } }) := by
  unfold dictCheck
  dsimp only
  split
  · rename_i h; exact Or.inr ⟨h.1, rfl⟩
  · exact Or.inl rfl

/-- Reading ahead changes BYTES_READ and MODE.DICT at most (R256, R257). -/
theorem readBytes_cases (n : Nat) (s : State) :
    ∃ b d, readBytes n s = { s with bytesRead := b, mode := { s.mode with dict := d } } := by
  induction n generalizing s with
  | zero => exact ⟨s.bytesRead, s.mode.dict, rfl⟩
  | succ n ih =>
    unfold readBytes
    rcases dictCheck_cases { s with bytesRead := s.bytesRead + 1 } with h | ⟨_, h⟩
    · rw [h]
      obtain ⟨b, d, h1⟩ := ih { s with bytesRead := s.bytesRead + 1 }
      exact ⟨b, d, h1⟩
    · rw [h]
      obtain ⟨b, d, h1⟩ := ih { s with bytesRead := s.bytesRead + 1, mode := { s.mode with dict := false } }
      exact ⟨b, d, h1⟩

theorem readAhead_cases (p : Nat) (s : State) :
    ∃ b d, readAhead p s = { s with bytesRead := b, mode := { s.mode with dict := d } } :=
  readBytes_cases _ s

end Sys2Proof.Machine
end

