-- ==== Sys2Proof/Laws/PerInstr.lean ====
section
/-! SUPPORT. Statements about every command as syntax: its encoding. -/

namespace Sys2Proof.Laws

/-- A command's word is legal, and decodes to it (30_encoding R110, R112). -/
abbrev EncodingLegal.Statement (i : Instr) : Prop :=
  wordWellFormed (encode i) = true ∧ i.wellFormed = true ∧ decodeTableWord 32 (encode i).toNat = some i

theorem EncodingLegal.nop : EncodingLegal.Statement .nop := by decide
theorem EncodingLegal.init : EncodingLegal.Statement .init := by decide
theorem EncodingLegal.compress : EncodingLegal.Statement .compress := by decide
theorem EncodingLegal.decompress : EncodingLegal.Statement .decompress := by decide
theorem EncodingLegal.mupd : EncodingLegal.Statement .mupd := by decide
theorem EncodingLegal.henc : EncodingLegal.Statement .henc := by decide
theorem EncodingLegal.hdec : EncodingLegal.Statement .hdec := by decide
theorem EncodingLegal.nread : EncodingLegal.Statement .nread := by decide
theorem EncodingLegal.putf : EncodingLegal.Statement .putf := by decide
theorem EncodingLegal.getf : EncodingLegal.Statement .getf := by decide
theorem EncodingLegal.flsh : EncodingLegal.Statement .flsh := by decide
theorem EncodingLegal.rfnd : EncodingLegal.Statement .rfnd := by decide
theorem EncodingLegal.rrd : EncodingLegal.Statement .rrd := by decide
theorem EncodingLegal.hins : EncodingLegal.Statement .hins := by decide
theorem EncodingLegal.fmat : EncodingLegal.Statement .fmat := by decide
theorem EncodingLegal.mscan : EncodingLegal.Statement .mscan := by decide

end Sys2Proof.Laws
end

