-- ==== Sys2Proof/Machine/HostProgram.lean ====
section
/-! DEFINITION. The host as an agent: the host assembly of 30_encoding R122, its pseudo-instructions (R123), and a host
program running beside the engine. It stands above the machine: a host program only causes host steps, and a schedule says
when the engine takes its step (log 16). -/

namespace Sys2Proof.Machine

/-- One line of host assembly (R122). -/
inductive HostLine where
  /-- `WR REG, v`. -/
  | wr (r : Reg) (v : Word)
  /-- `RD REG`. -/
  | rd (r : Reg)
  | wait
  /-- `LOADIN a, b0 b1 ...`. -/
  | loadIn (a : Nat) (bytes : List Byte)
  /-- `MOVE n`: `OUT[0..n-1]` to `IN[0..n-1]`. -/
  | move (n : Nat)
  /-- `L:`. -/
  | label (l : String)
  /-- `B L`. -/
  | branch (l : String)
  | beq (r : Reg) (v : Word) (l : String)
  | bne (r : Reg) (v : Word) (l : String)
  | blt (r : Reg) (v : Word) (l : String)
  | halt
deriving DecidableEq, Repr

/-- The pseudo-instructions of R123. -/
inductive Pseudo where
  | nop
  | init
  | compress
  | decompress
  | hdec
  | flsh
  | mscan
  | mupd (c : Word)
  | henc (c : Word)
  | nread (k : Word)
  | rfnd (d : Word)
  | rrd (i : Word)
  | hins (p : Word)
  | putf (v w : Word)
  | getf (w : Word)
  | fmat (q depth : Word)
  | setlen (n : Word)
  | ack
deriving DecidableEq, Repr

/-- `WR CMD, opc` and `WAIT`. -/
def startLines (i : Instr) : List HostLine := [.wr .cmd (encode i), .wait]

/-- R123: what a pseudo-instruction expands to. -/
def expandPseudo : Pseudo → List HostLine
  | .nop => startLines .nop
  | .init => startLines .init
  | .compress => startLines .compress
  | .decompress => startLines .decompress
  | .hdec => startLines .hdec
  | .flsh => startLines .flsh
  | .mscan => startLines .mscan
  | .mupd c => .wr .arg0 c :: startLines .mupd
  | .henc c => .wr .arg0 c :: startLines .henc
  | .nread k => .wr .arg0 k :: startLines .nread
  | .rfnd d => .wr .arg0 d :: startLines .rfnd
  | .rrd i => .wr .arg0 i :: startLines .rrd
  | .hins p => .wr .arg0 p :: startLines .hins
  | .putf v w => .wr .arg0 v :: .wr .arg1 w :: startLines .putf
  | .getf w => .wr .arg1 w :: startLines .getf
  | .fmat q depth => .wr .arg0 q :: .wr .arg1 depth :: startLines .fmat
  | .setlen n => [.wr .inLen n]
  | .ack => [.wr .status 0x2]

/-- A host program at work: its lines, the line it is at, whether it has ended, and the schedule: each entry says whether
the engine (`true`) or the host (`false`) moves next. -/
structure HostRun where
  lines : List HostLine
  line : Nat
  halted : Bool
  schedule : List Bool
  engine : State
deriving DecidableEq, Repr

/-- The bus address of a register (R122). -/
def busAddress (s : State) (r : Reg) : Nat := s.cfg.engineBase + r.offset

/-- Host steps in a row; the first stop ends them. -/
def takeEvents : List Event → State → Host.Outcome State Fault Refusal
  | [], s => .next s
  | e :: es, s =>
    match takeEvent e s with
    | .next s1 => takeEvents es s1
    | .fault r => .fault r
    | .refused r => .refused r

/-- `MOVE`: each byte is read from `OUT` and written to `IN` at the same index; the first argument is how many are left. -/
def moveBytes : Nat → Nat → State → Host.Outcome State Fault Refusal
  | 0, _, s => .next s
  | n + 1, j, s =>
    match takeEvent (.outRead j) s with
    | .next s1 =>
      match takeEvent (.inWrite j (s1.readData.setWidth 8)) s1 with
      | .next s2 => moveBytes n (j + 1) s2
      | .fault r => .fault r
      | .refused r => .refused r
    | .fault r => .fault r
    | .refused r => .refused r

/-- The events that write bytes to `IN` from an index on. -/
def loadEvents : Nat → List Byte → List Event
  | _, [] => []
  | a, b :: bs => .inWrite a b :: loadEvents (a + 1) bs

/-- The line after a label. R122 is silent on a label that stands twice and on one that stands nowhere; DESIGN CHOICE
(log 16): the first of them, and the end of the program. -/
def labelLine (lines : List HostLine) (l : String) : Nat :=
  match lines.findIdx? (fun x => decide (x = .label l)) with
  | some k => k + 1
  | none => lines.length

/-- The host goes on at a line with the engine in a state. -/
def HostRun.goto (h : HostRun) (line : Nat) (s : State) : HostRun := { h with line := line, engine := s }

/-- The host goes on at a line after host steps that answered a state, or stops as they did. -/
def HostRun.after (h : HostRun) (line : Nat) (o : Host.Outcome State Fault Refusal) :
    Host.Outcome HostRun Fault Refusal :=
  match o with
  | .next s => .next (h.goto line s)
  | .fault r => .fault r
  | .refused r => .refused r

/-- A conditional branch: the register is read, then the host goes on at the label or at the next line. -/
def HostRun.branchOn (h : HostRun) (r : Reg) (taken : Word → Bool) (l : String) :
    Host.Outcome HostRun Fault Refusal :=
  match takeEvent (.busRead (busAddress h.engine r) 4) h.engine with
  | .next s => .next (h.goto (if taken s.readData then labelLine h.lines l else h.line + 1) s)
  | .fault r => .fault r
  | .refused r => .refused r

/-- R122: what one line does. WAIT repeats until BUSY reads 0. R122 is silent on a program that runs past its last line
with no HALT; DESIGN CHOICE (log 16): it ends there. -/
def HostRun.runLine (h : HostRun) : Host.Outcome HostRun Fault Refusal :=
  match h.lines[h.line]? with
  | none => .next { h with halted := true }
  | some .halt => .next { h with halted := true }
  | some (.label _) => .next (h.goto (h.line + 1) h.engine)
  | some (.branch l) => .next (h.goto (labelLine h.lines l) h.engine)
  | some (.wr r v) => h.after (h.line + 1) (takeEvent (.busWrite (busAddress h.engine r) 4 v) h.engine)
  | some (.rd r) => h.after (h.line + 1) (takeEvent (.busRead (busAddress h.engine r) 4) h.engine)
  | some .wait =>
    match takeEvent (.busRead (busAddress h.engine .status) 4) h.engine with
    | .next s => .next (h.goto (if s.readData.getLsbD 0 then h.line else h.line + 1) s)
    | .fault r => .fault r
    | .refused r => .refused r
  | some (.loadIn a bytes) => h.after (h.line + 1) (takeEvents (loadEvents a bytes) h.engine)
  | some (.move n) => h.after (h.line + 1) (moveBytes n 0 h.engine)
  | some (.beq r v l) => h.branchOn r (fun x => decide (x = v)) l
  | some (.bne r v l) => h.branchOn r (fun x => decide (x ≠ v)) l
  | some (.blt r v l) => h.branchOn r (fun x => decide (x < v)) l

/-- One move of host and engine together (R382): the schedule says which of them moves; past its end the host moves, but
that the engine does while the host waits for it. R122 says only that the program ends at HALT; DESIGN CHOICE (log 16): the
run ends there as a whole, so a command still running then gets no engine step, and the rest of the schedule is dropped. -/
def hostRunStep (h : HostRun) : Host.Outcome HostRun Fault Refusal :=
  if h.halted then .next h
  else
    match h.schedule with
    | true :: rest => { h with schedule := rest }.after h.line (engineStep h.engine)
    | false :: rest => { h with schedule := rest }.runLine
    | [] =>
      if h.engine.status.busy = true ∧ h.lines[h.line]? = some .wait then h.after h.line (engineStep h.engine)
      else h.runLine

/-- A number of moves, ending at the first stop. -/
def hostRunFor : Nat → HostRun → Host.Outcome HostRun Fault Refusal
  | 0, h => .next h
  | n + 1, h =>
    match hostRunStep h with
    | .next h1 => hostRunFor n h1
    | .fault r => .fault r
    | .refused r => .refused r

/-- A program about to start on an engine. -/
def hostRunStart (lines : List HostLine) (schedule : List Bool) (s : State) : HostRun :=
  { lines := lines, line := 0, halted := false, schedule := schedule, engine := s }

end Sys2Proof.Machine
end

