-- ==== Sys2Proof/Tests/Slice0.lean ====
section
/-! SUPPORT. The model's own tests: the well-formedness checks, command words written out from 30_encoding R110 and R112,
one or two vectors per command from the rules' examples and 95_test_vectors, and for every obligation with hypotheses a
state that meets them. -/

namespace Sys2Proof.Tests

-- One theorem at a time: each evaluation takes a thread with a large stack.
set_option Elab.async false

open Sys2Proof.Machine

/-! ### Helpers -/

/-- The state an outcome goes on with. -/
def stateOf (o : Host.Outcome State Fault Refusal) : State :=
  match o with
  | .next t => t
  | .fault _ => State.reset
  | .refused _ => State.reset

theorem next_stateOf {o : Host.Outcome State Fault Refusal} (h : ∃ t, o = .next t) : o = .next (stateOf o) := by
  obtain ⟨t, rfl⟩ := h
  rfl

/-- The state after a command that has been written to CMD. -/
def after (i : Instr) (s : State) : State := stateOf (step (s.withFetchWord 32 (encode i).toNat))

/-- A memory that begins with these bytes. -/
def bytes (bs : List Byte) : Memory := (bs.zipIdx).foldl (fun m e => memPut m e.2 e.1) []

/-- The state after reset with these input bytes. -/
def withInput (bs : List Byte) : State :=
  { State.reset with inMem := bytes bs, inLen := BitVec.ofNat 32 bs.length }

/-- The state after reset on memories of these sizes. -/
def sized (inBytes outBytes : Nat) : State :=
  State.resetOn { inMemBytes := inBytes, outMemBytes := outBytes, engineBase := 0x1000 }

/-- A stream's bits as bytes, the last one padded with zeros (R84). -/
def packed (bits : List Bool) : List Byte :=
  (List.range ((bits.length + 7) / 8)).map fun a =>
    BitVec.ofNat 8 (natOfBitsMsb ((List.range 8).map fun k => bits.getD (8 * a + k) false))

/-! ### Well-formedness -/

/-- R110: RSVD not 0. -/
theorem test_wellformed_refuses_reserved_bits :
    wordWellFormed 0x00000102 = false ∧ reservedClear 0x80000000 = false ∧ opcodeAssigned 0x00000102 = true := by decide

/-- R116: each gap of the opcode map, at both ends. -/
theorem test_wellformed_refuses_unassigned_opcodes :
    ∀ w ∈ [0x04, 0x0F, 0x14, 0x1F, 0x25, 0x2F, 0x33, 0xFF], opcodeAssigned (BitVec.ofNat 32 w) = false
      ∧ wordWellFormed (BitVec.ofNat 32 w) = false := by decide

/-- R112: the last opcode of each group is assigned. -/
theorem test_wellformed_accepts_opcodes :
    ∀ w ∈ [0x00, 0x03, 0x10, 0x13, 0x20, 0x24, 0x30, 0x32], wordWellFormed (BitVec.ofNat 32 w) = true := by decide

/-- R9: a memory of no byte, and one of more than 2^28. -/
theorem test_platform_refuses_sizes :
    ¬ Config.Platform.wf { inMemBytes := 0, outMemBytes := 1, engineBase := 0 }
      ∧ ¬ Config.Platform.wf { inMemBytes := 1, outMemBytes := 0, engineBase := 0 }
      ∧ ¬ Config.Platform.wf { inMemBytes := 2 ^ 28 + 1, outMemBytes := 1, engineBase := 0 }
      ∧ ¬ Config.Platform.wf { inMemBytes := 1, outMemBytes := 2 ^ 28 + 1, engineBase := 0 } := by decide

/-! ### Decoding: words written out bit by bit from R110 and R112 -/

/-- Control and whole-stream commands, group 0x0X. -/
theorem test_decode_control :
    decode 0b00000000000000000000000000000000 = .ok .nop ∧ decode 0b00000000000000000000000000000001 = .ok .init
      ∧ decode 0b00000000000000000000000000000010 = .ok .compress
      ∧ decode 0b00000000000000000000000000000011 = .ok .decompress := by decide

/-- The Huffman model, group 0x1X. -/
theorem test_decode_huffman :
    decode 0b00000000000000000000000000010000 = .ok .mupd ∧ decode 0b00000000000000000000000000010001 = .ok .henc
      ∧ decode 0b00000000000000000000000000010010 = .ok .hdec
      ∧ decode 0b00000000000000000000000000010011 = .ok .nread := by decide

/-- The bit codec and the copy-range table, group 0x2X. -/
theorem test_decode_codec :
    decode 0b00000000000000000000000000100000 = .ok .putf ∧ decode 0b00000000000000000000000000100001 = .ok .getf
      ∧ decode 0b00000000000000000000000000100010 = .ok .flsh
      ∧ decode 0b00000000000000000000000000100011 = .ok .rfnd
      ∧ decode 0b00000000000000000000000000100100 = .ok .rrd := by decide

/-- The match finder, group 0x3X. -/
theorem test_decode_match :
    decode 0b00000000000000000000000000110000 = .ok .hins ∧ decode 0b00000000000000000000000000110001 = .ok .fmat
      ∧ decode 0b00000000000000000000000000110010 = .ok .mscan := by decide

/-- R344: RSVD is checked before OPC. -/
theorem test_decode_refuses :
    decode 0b00000000000000000000000100110010 = .error .reservedField
      ∧ decode 0b00000000000000000000000100110011 = .error .reservedField
      ∧ decode 0b00000000000000000000000000110011 = .error .unassignedOpcode := by decide

/-! ### Commands -/

/-- R320: NOP clears a report and leaves STATUS reading 2. -/
theorem test_nop_clears_report :
    (after .nop (after .mupd { State.reset with arg0 := 629 })).readReg .status = 2
      ∧ (after .nop (after .mupd { State.reset with arg0 := 629 })).errinfo = 0 := by decide +kernel

/-- R321: INIT after an update; its example. -/
theorem test_init_restores_tree :
    (after .nread { after .init (after .mupd { State.reset with arg0 := 65 }) with arg0 := 1 }).res0 = 0x275
      ∧ (after .init (after .mupd { State.reset with arg0 := 65 })).symcount = 0 := by decide +kernel

/-- R251: its example, the input "A". -/
theorem test_compress_one_literal :
    (after .compress (withInput [0x41])).outMem = [(0, 0x5B), (1, 0x5D), (2, 0x40)]
      ∧ (after .compress (withInput [0x41])).res0 = 3 ∧ (after .compress (withInput [0x41])).res1 = 2 := by decide +kernel

/-- 95_test_vectors V-C6: "abcdabcdabcd". -/
def threeTimes : List Byte := [0x61, 0x62, 0x63, 0x64, 0x61, 0x62, 0x63, 0x64, 0x61, 0x62, 0x63, 0x64]

/-- V-C6's stream: eight literals, the copy of four bytes with code 258 and field 0, the terminator. -/
def threeTimesStream : List Byte := [0x6B, 0x35, 0xDB, 0x0D, 0x96, 0xB3, 0x5D, 0xB0, 0xD9, 0xBB, 0x85, 0xD4]

/-- V-C6: a COMPRESS that takes a copy. -/
theorem test_compress_copy :
    let t := after .compress (withInput threeTimes)
    t.outMem = bytes threeTimesStream ∧ t.res0 = 12 ∧ t.res1 = 10 := by decide +kernel

/-- V-C6 and V-D8: a DECOMPRESS through that copy. -/
theorem test_decompress_copy :
    let t := after .decompress (withInput threeTimesStream)
    t.outMem = bytes threeTimes ∧ t.res0 = 12 ∧ t.res1 = 94 := by decide +kernel

/-- R301: a bad distance. -/
theorem test_decompress_bad_distance :
    let t := after .decompress (withInput [0xBB, 0x80])
    t.readReg .status = 0x406 ∧ t.errinfo = 4 ∧ t.inBitpos = 13 ∧ t.outBitpos = 0
      ∧ t.symcount = 1 := by decide +kernel

/-- R184, example 1. -/
theorem test_mupd_counts :
    (after .mupd { State.reset with arg0 := 65 }).res0 = 2 ∧ (after .mupd { State.reset with arg0 := 65 }).res1 = 630 := by
  decide +kernel

/-- R184, example 2: the second update exchanges leaf 694 with node 346. -/
theorem test_mupd_exchanges :
    let t := after .mupd (after .mupd { State.reset with arg0 := 65 })
    t.nodes.get 173 = { parent := 86, left := 694, right := 347, freq := 6 }
      ∧ t.nodes.get 347 = { parent := 173, left := 346, right := 695, freq := 3 } ∧ (t.nodes.get 346).parent = 347 := by
  decide +kernel

/-- R179: its example. -/
theorem test_henc_writes_code :
    let t := after .henc { State.reset with arg0 := 65 }
    t.outMem = [(0, 0x5B)] ∧ t.outBitpos = 9 ∧ t.res0 = 9 ∧ t.res1 = 0xB6 := by decide +kernel

/-- R111: the first symbol that is refused. -/
theorem test_henc_refuses :
    let t := after .henc { State.reset with arg0 := 629 }
    t.readReg .status = 0x106 ∧ t.errinfo = 629 ∧ t.outBitpos = 0 := by decide +kernel

/-- R180: its example. -/
theorem test_hdec_reads_code :
    let t := after .hdec (withInput [0x5B, 0x00])
    t.res0 = 65 ∧ t.res1 = 9 ∧ t.inBitpos = 9 := by decide +kernel

/-- R143, R180: the stream ends inside the code. -/
theorem test_hdec_end_of_stream :
    let t := after .hdec (withInput [0x5B])
    t.readReg .status = 0x206 ∧ t.errinfo = 8 ∧ t.inBitpos = 8 ∧ t.symcount = 0 := by decide +kernel

/-- R182: its examples. -/
theorem test_nread_examples :
    (after .nread { State.reset with arg0 := 1 }).res0 = 0x275
      ∧ (after .nread { State.reset with arg0 := 1 }).res1 = 0x00030002
      ∧ (after .nread { State.reset with arg0 := 694 }).res0 = 0x015B0001 := by decide +kernel

/-- R145: its example. -/
theorem test_putf_example :
    (after .putf { State.reset with arg0 := 0b1011, arg1 := 4 }).outMem = [(0, 0xD0)]
      ∧ (after .putf { State.reset with arg0 := 0b1011, arg1 := 4 }).outBitpos = 4 := by decide +kernel

/-- R146: its example. -/
theorem test_getf_example :
    (after .getf { withInput [0xD0] with arg1 := 4 }).res0 = 11
      ∧ (after .getf { withInput [0xD0] with arg1 := 4 }).inBitpos = 4 := by decide +kernel

/-- R147: its example, after R145's. -/
theorem test_flsh_example :
    let t := after .flsh (after .putf { State.reset with arg0 := 0b1011, arg1 := 4 })
    t.res0 = 4 ∧ t.outBitpos = 8 ∧ t.outMem = [(0, 0xD0)] := by decide +kernel

/-- R152: its example and its first refused distance. -/
theorem test_rfnd_example :
    (after .rfnd { State.reset with arg0 := 336 }).res0 = 3 ∧ (after .rfnd { State.reset with arg0 := 336 }).res1 = 336
      ∧ (after .rfnd { State.reset with arg0 := 21840 }).readReg .status = 0x706 := by decide +kernel

/-- R153: its example and its corner case. -/
theorem test_rrd_example :
    (after .rrd { State.reset with arg0 := 0 }).res1 = 0x0004000F
      ∧ (after .rrd { State.reset with arg0 := 5 }).res0 = 5456
      ∧ (after .rrd { State.reset with arg0 := 5 }).res1 = 0x000E554F := by decide +kernel

/-- R215: its example. -/
theorem test_hins_example :
    (after .hins (withInput [0x61, 0x62, 0x63, 0x61, 0x62, 0x63])).res0 = 0x1B33
      ∧ (after .hins (withInput [0x61, 0x62, 0x63, 0x61, 0x62, 0x63])).headAt 0x1B33 = some 0 := by decide +kernel

/-- R215: the last two positions are accepted and not inserted. -/
theorem test_hins_last_positions :
    (after .hins { withInput [0x61, 0x62, 0x63] with arg0 := 1 }).res0 = 0xFFFFFFFF
      ∧ (after .hins { withInput [0x61, 0x62, 0x63] with arg0 := 1 }).head = [] := by decide +kernel

/-- "abcdabcd" with positions 0 and 4 inserted. -/
def twoChained : State :=
  let s := withInput [0x61, 0x62, 0x63, 0x64, 0x61, 0x62, 0x63, 0x64]
  { after .hins { after .hins s with arg0 := 4 } with arg0 := 4, arg1 := 1000 }

/-- R223: its example, on the first eight bytes. -/
theorem test_fmat_example :
    (after .fmat twoChained).res0 = 4 ∧ (after .fmat twoChained).res1 = 0 := by decide +kernel

/-- R232: its example, "ab" and a newline over 67 bytes. -/
theorem test_mscan_example :
    let t := after .mscan (withInput ((List.range 67).map fun k => [0x61, 0x62, 0x0A].getD (k % 3) 0))
    t.res0 = 0b10 ∧ t.res1 = 715 := by decide +kernel

/-- 95_test_vectors V-M11: byte 63 lies inside the window. -/
theorem test_mscan_binary :
    let t := after .mscan (withInput (List.replicate 63 0 ++ [0x80]))
    t.res0 = 0b01 ∧ t.res1 = 0 := by decide +kernel

/-! ### Host steps -/

/-- R385: a second CMD write before the engine's turn is lost. -/
theorem test_busy_write_sets_bwi :
    let s := { State.reset.startCommand 0x10 with agenda := [.busWrite 0x08 4 0x01, .engine] }
    (stateOf (step s)).seq = .run 0x10 ∧ (stateOf (step s)).status.bwi = true := by decide +kernel

/-- R34: writing 1 to DONE and BWI clears them, writing 0 does not. -/
theorem test_status_write_one_clears :
    let s := { after .nop State.reset with agenda := [.busWrite 0x0C 4 0x2] }
    let s' := { after .nop State.reset with agenda := [.busWrite 0x0C 4 0xD] }
    (stateOf (step s)).readReg .status = 0 ∧ (stateOf (step s')).readReg .status = 2 := by decide +kernel

/-! ### Hypotheses of the obligations, met -/

theorem witness_IllegalWordsAbort :
    (∀ w ∈ [0x04, 0x0F, 0x14, 0x1F, 0x25, 0x2F, 0x33, 0xFF, 0x100, 0xFFFFFF00],
      256 ≤ w ∨ (0x04 ≤ w % 256 ∧ w % 256 ≤ 0x0F) ∨ (0x14 ≤ w % 256 ∧ w % 256 ≤ 0x1F)
        ∨ (0x25 ≤ w % 256 ∧ w % 256 ≤ 0x2F) ∨ 0x33 ≤ w % 256)
      ∧ (∀ w ∈ [0x00, 0x03, 0x10, 0x13, 0x20, 0x24, 0x30, 0x32],
        ¬ (256 ≤ w ∨ (0x04 ≤ w % 256 ∧ w % 256 ≤ 0x0F) ∨ (0x14 ≤ w % 256 ∧ w % 256 ≤ 0x1F)
          ∨ (0x25 ≤ w % 256 ∧ w % 256 ≤ 0x2F) ∨ 0x33 ≤ w % 256))
      ∧ { State.reset with seq := .run 0x04 }.seq = .run 0x04 := by decide

theorem witness_StepRunsDecodedCommand :
    ({ State.reset with seq := .run 0x10 }.seq = .run 0x10 ∧ decode 0x10 = .ok .mupd
      ∧ { State.reset with seq := .run 0x10 }.agenda = [])
      ∧ { State.reset with seq := .run 0x10, agenda := [.engine, .reset] }.agenda = .engine :: [.reset]
      ∧ State.reset.seq = .idle ∧ State.reset.agenda = [] := by decide

theorem witness_CmdRegisterStartsCommands :
    let s := { sized 4 4 with agenda := [.busWrite 0x1008 4 0x02] }
    let r := { sized 4 4 with agenda := [.busRead 0x1008 4] }
    s.agenda = .busWrite (s.cfg.engineBase + 0x08) 4 0x02 :: [] ∧ s.status.busy = false
      ∧ (s.startCommand 0x02).agenda = .busWrite ((s.startCommand 0x02).cfg.engineBase + 0x08) 4 0x02 :: []
      ∧ (s.startCommand 0x02).status.busy = true ∧ r.agenda = .busRead (r.cfg.engineBase + 0x08) 4 :: []
      ∧ { s with ctrl := { ie := true }, status := { s.status with done := true } }.irq = true := by decide

theorem witness_NopCompletes :
    (∃ t, engineStep (State.reset.startCommand 0x00000000) = .next t) ∧ State.reset.status.bwi = false
      ∧ (0x100 : Word).toNat % 256 = 0 ∧ (0x100 : Word) ≠ 0 := ⟨⟨_, rfl⟩, by decide⟩

theorem witness_InitialTreeLayout :
    ∀ k ∈ [1, 628, 629, 1257], 1 ≤ (BitVec.ofNat 11 k).toNat ∧ (BitVec.ofNat 11 k).toNat ≤ 1257 := by decide

/-- HENC 65 has been started at bit 8 of `OUT` and a reset comes: byte 0 lies before what it could write, byte 3 after. -/
theorem witness_ResetEventReinitialises :
    let s := { State.reset.startCommand 0x11 with arg0 := 65, outBitpos := 8, agenda := [.reset] }
    let s0 := { s with agenda := [] }
    s.agenda = .reset :: [] ∧ s.status.busy = true ∧ 0 < writerStart s0 / 8
      ∧ ((afterEngine s0).outBitpos.toNat + 7) / 8 = 3 ∧ { State.reset with agenda := [.reset] }.status.busy = false := by
  decide +kernel

/-- The widths 16, 17 and 0, the last bit of `OUT`, and one bit past it. -/
theorem witness_PutfWritesField :
    let s := { sized 4 2 with arg1 := 16 }
    (s.cfg.wf ∧ s.arg1.toNat ≤ 16 ∧ s.outBitpos.toNat + s.arg1.toNat ≤ 8 * s.cfg.outMemBytes)
      ∧ 16 < { s with arg1 := 17 }.arg1.toNat
      ∧ ({ s with arg1 := 0, outBitpos := 16 }.arg1.toNat = 0)
      ∧ (0 < s.arg1.toNat ∧ 8 * s.cfg.outMemBytes < { s with outBitpos := 1 }.outBitpos.toNat + s.arg1.toNat) := by decide

/-- IN_LEN one too large, the widths 17, 16 and 0, the last bit of the stream, and one bit past it. -/
theorem witness_GetfReadsField :
    let s := { sized 2 2 with arg1 := 16, inLen := 2 }
    (s.cfg.wf ∧ s.inLen.toNat ≤ s.cfg.inMemBytes ∧ s.arg1.toNat ≤ 16 ∧ s.inBitpos.toNat + s.arg1.toNat ≤ 8 * s.inLen.toNat)
      ∧ s.cfg.inMemBytes < { s with inLen := 3 }.inLen.toNat ∧ 16 < { s with arg1 := 17 }.arg1.toNat
      ∧ ({ s with arg1 := 0, inBitpos := 17 }.arg1.toNat = 0)
      ∧ (0 < s.arg1.toNat ∧ 8 * s.inLen.toNat < { s with inBitpos := 1 }.inBitpos.toNat + s.arg1.toNat) := by decide

/-- A cursor at the end of `OUT`, and one just after the first bit of its last byte. -/
theorem witness_FlshPadsToByte :
    let s := { sized 4 2 with outBitpos := 16 }
    let s' := { sized 4 2 with outBitpos := 9 }
    (s.cfg.wf ∧ s.outBitpos.toNat ≤ 8 * s.cfg.outMemBytes ∧ s.outBitpos.toNat % 8 = 0)
      ∧ s'.cfg.wf ∧ s'.outBitpos.toNat ≤ 8 * s'.cfg.outMemBytes := by decide

/-- Both ends of every range, and the first distance past the last. -/
theorem witness_RfndLooksUpRange :
    (∀ r ∈ [(0, 0, 15), (1, 16, 79), (2, 80, 335), (3, 336, 1359), (4, 1360, 5455), (5, 5456, 21839)],
      r.2.1 ≤ { State.reset with arg0 := BitVec.ofNat 32 r.2.1 }.arg0.toNat
        ∧ { State.reset with arg0 := BitVec.ofNat 32 r.2.2 }.arg0.toNat ≤ r.2.2 ∧ r.2.1 ≤ r.2.2)
      ∧ 21839 < { State.reset with arg0 := 21840 }.arg0.toNat := by decide

theorem witness_RrdReadsTableRow :
    (∀ i ∈ [0, 1, 2, 3, 4, 5], { State.reset with arg0 := BitVec.ofNat 32 i }.arg0.toNat = i)
      ∧ 5 < { State.reset with arg0 := 6 }.arg0.toNat := by decide

theorem witness_CopyCodeMapBijective :
    (5 ≤ 5 ∧ 3 ≤ 3 ∧ 3 ≤ 64) ∧ (0 ≤ 5 ∧ 3 ≤ 64 ∧ 64 ≤ 64) ∧ (257 ≤ 257 ∧ 257 ≤ 628) ∧ 257 ≤ 628 ∧ 628 ≤ 628 := by decide

/-- The nodes from leaf 694 to the root of the initial tree. -/
def pathOf694 : List NodeId := [694, 347, 173, 86, 43, 21, 10, 5, 2, 1]

/-- The initial tree after 1370 more occurrences of symbol 65 that moved nothing: its root stands at 1999. -/
def heavyTree : Arena := pathOf694.foldl (fun m k => m.setFreq k ((m.get k).freq + 1370)) []

theorem heavyTree_shape : TreeShape heavyTree := by
  unfold heavyTree
  generalize pathOf694 = l
  suffices h : ∀ m : Arena, TreeShape m → TreeShape (l.foldl (fun m k => m.setFreq k ((m.get k).freq + 1370)) m) from
    h [] initialTree_shape
  induction l with
  | nil => exact fun _ h => h
  | cons k l ih => exact fun m h => ih _ (h.setFreq k _)

theorem heavyTree_sums : ∀ k ∈ List.range 628,
    let n := heavyTree.get (BitVec.ofNat 11 (k + 1))
    (heavyTree.get n.left).freq.toNat + (heavyTree.get n.right).freq.toNat ≤ n.freq.toNat := by decide +kernel

theorem heavyTree_frequency : FrequencyBound heavyTree where
  childSum := by
    rintro k ⟨h1, h2⟩
    rw [maxChar_eq] at h2
    have h := heavyTree_sums (k.toNat - 1) (List.mem_range.2 (by omega))
    have hk : BitVec.ofNat 11 (k.toNat - 1 + 1) = k := by
      apply BitVec.eq_of_toNat_eq
      rw [toNat_ofNat_id (by omega)]
      omega
    rw [hk] at h
    exact h
  rootBound := by decide +kernel

/-- The tree in which symbol 65 has been counted once: the next count takes its leaf 694 above the uncle 346 (R184). -/
def countedOnce : Arena := Arena.update [] 65

/-- The last symbol, the first refused one, an update that fills the root, and one whose walk exchanges. -/
theorem witness_MupdUpdatesModel :
    (TreeShape State.reset.nodes ∧ FrequencyBound State.reset.nodes ∧ { State.reset with arg0 := 628 }.arg0.toNat ≤ 628
      ∧ 628 < { State.reset with arg0 := 629 }.arg0.toNat)
      ∧ TreeShape heavyTree ∧ FrequencyBound heavyTree
      ∧ 2000 ≤ ((heavyTree.count (leafOf 65)).get Config.root).freq.toNat
      ∧ (let m := countedOnce.count 694
        (m.get 694).parent = 347 ∧ (m.get 347).parent = 173 ∧ (m.get 173).left = 346
          ∧ (m.get 346).freq < (m.get 694).freq) :=
  ⟨⟨initialTree_shape, initialTree_frequency, by decide⟩, heavyTree_shape, heavyTree_frequency, by decide +kernel⟩

/-- A code that ends with the last bit of `OUT`, one that passes it by one bit, and the symbols 628 and 629. -/
theorem witness_HencWritesCode :
    let s := { sized 4 2 with arg0 := 65, outBitpos := 7 }
    TreeShape s.nodes ∧ s.cfg.wf ∧ s.arg0.toNat ≤ 628
      ∧ s.outBitpos.toNat + (s.nodes.codeOf s.arg0.toNat).length = 8 * s.cfg.outMemBytes
      ∧ 8 * s.cfg.outMemBytes < { s with outBitpos := 8 }.outBitpos.toNat + (s.nodes.codeOf s.arg0.toNat).length
      ∧ { s with arg0 := 628 }.arg0.toNat ≤ 628 ∧ 628 < { s with arg0 := 629 }.arg0.toNat :=
  ⟨initialTree_shape, by decide +kernel⟩

theorem initial_codes_not_empty : ∀ code ∈ List.range 629, Arena.codeOf [] code ≠ [] := by decide +kernel

/-- The code of 65 at the start of the stream; 628 bits ahead; no bit ahead; IN_LEN one too large. -/
theorem witness_HdecReadsOneSymbol :
    let s := { sized 79 4 with inLen := 79, inMem := bytes [0x5B, 0x00] }
    let e := sized 79 4
    (TreeShape s.nodes ∧ s.cfg.wf ∧ s.inLen.toNat ≤ s.cfg.inMemBytes
      ∧ s.nodes.codeOf 65 <+: s.inBits s.inBitpos.toNat (8 * s.inLen.toNat - s.inBitpos.toNat)
      ∧ 628 ≤ (s.inBits s.inBitpos.toNat (8 * s.inLen.toNat - s.inBitpos.toNat)).length
      ∧ s.cfg.inMemBytes < { s with inLen := 80 }.inLen.toNat)
      ∧ TreeShape e.nodes
      ∧ ∀ code, code ≤ 628 →
        ¬ e.nodes.codeOf code <+: e.inBits e.inBitpos.toNat (8 * e.inLen.toNat - e.inBitpos.toNat) := by
  refine ⟨⟨initialTree_shape, by decide +kernel⟩, initialTree_shape, ?_⟩
  intro code hc h
  exact initial_codes_not_empty code (List.mem_range.2 (by omega)) (List.prefix_nil.1 h)

/-- HENC 65 on a fresh engine, and its bits as the input of another. -/
theorem witness_HdecInvertsHenc :
    let s := { State.reset with arg0 := 65 }
    let t := stateOf (exec .henc s)
    let d := withInput [0x5B, 0x00]
    exec .henc s = .next t ∧ TreeShape s.nodes ∧ TailClear s ∧ s.cfg.wf ∧ d.cfg.wf ∧ d.nodes = s.nodes
      ∧ s.status.err = false ∧ t.status.err = false ∧ d.inLen.toNat ≤ d.cfg.inMemBytes
      ∧ d.inBitpos.toNat + t.res0.toNat ≤ 8 * d.inLen.toNat
      ∧ ∀ k, k < t.res0.toNat → d.inBit (d.inBitpos.toNat + k) = t.outBit (s.outBitpos.toNat + k) := by
  refine ⟨next_stateOf (exec_next _ _), initialTree_shape, ?_, by decide +kernel⟩
  intro b _ h2
  exact absurd h2 (Nat.not_lt_zero b)

theorem witness_NreadReadsNode :
    (0 < 1 ∧ 1257 < { State.reset with arg0 := 1258 }.arg0.toNat) ∧ { State.reset with arg0 := 0 }.arg0.toNat < 1
      ∧ (1 ≤ { State.reset with arg0 := 1 }.arg0.toNat ∧ { State.reset with arg0 := 1257 }.arg0.toNat ≤ 1257)
      ∧ TreeShape State.reset.nodes := ⟨by decide, by decide, by decide, initialTree_shape⟩

theorem witness_HalveHalvesEveryNode :
    (∀ k ∈ [1, 1257], 1 ≤ (BitVec.ofNat 11 k).toNat ∧ (BitVec.ofNat 11 k).toNat ≤ 1257)
      ∧ ∀ k ∈ [0, 1258], ¬ (1 ≤ (BitVec.ofNat 11 k).toNat ∧ (BitVec.ofNat 11 k).toNat ≤ 1257) := by decide

/-- From the root itself, and from the last internal node; the root lies above it, node 2 is no ancestor of the root. -/
theorem witness_RecomputeSumsAncestors :
    TreeShape [] ∧ isInternal 1 ∧ isInternal 628 ∧ Arena.IsAtOrAbove [] 628 628 ∧ Arena.IsAtOrAbove [] 628 1
      ∧ ¬ Arena.IsAtOrAbove [] 1 2 := by
  refine ⟨initialTree_shape, by unfold isInternal; decide, by unfold isInternal; decide, ⟨0, rfl, by decide⟩,
    ⟨9, by decide +kernel, by decide +kernel⟩, ?_⟩
  rintro ⟨d, h, hn⟩
  cases d with
  | zero => exact absurd h (by decide)
  | succ d => exact hn 1 (by omega) (by decide)

theorem witness_ExchangeSwapsSubtrees :
    TreeShape [] ∧ (∀ k ∈ [4, 7, 1257], isBelowRoot (BitVec.ofNat 11 k)
      ∧ (Arena.get [] (BitVec.ofNat 11 k)).parent ≠ Config.root) :=
  ⟨initialTree_shape, by unfold isBelowRoot; decide⟩

theorem witness_InitialCodes : ∀ c ∈ [0, 394, 395, 628], c ≤ 628 := by decide

/-- IN_LEN one too large; `p = n`; the last two positions; the last position with a key. -/
theorem witness_HinsInsertsPosition :
    let s := { sized 4 4 with inLen := 4 }
    s.inLen.toNat ≤ s.cfg.inMemBytes ∧ s.cfg.inMemBytes < { s with inLen := 5 }.inLen.toNat
      ∧ s.inLen.toNat ≤ { s with arg0 := 4 }.arg0.toNat
      ∧ (∀ p ∈ [2, 3], { s with arg0 := BitVec.ofNat 32 p }.arg0.toNat < s.inLen.toNat
        ∧ s.inLen.toNat < { s with arg0 := BitVec.ofNat 32 p }.arg0.toNat + 3)
      ∧ { s with arg0 := 1 }.arg0.toNat + 3 ≤ s.inLen.toNat := by decide

/-- The refusals, a chain with a match of four bytes, and an empty chain. -/
theorem witness_FmatFindsLongestMatch :
    let s := { sized 4 4 with inLen := 4 }
    (s.cfg.inMemBytes < { s with inLen := 5 }.inLen.toNat ∧ s.inLen.toNat ≤ { s with arg0 := 4 }.arg0.toNat
      ∧ s.inLen.toNat ≤ s.cfg.inMemBytes ∧ { s with arg0 := 3 }.arg0.toNat < s.inLen.toNat
      ∧ candidates s 3 1000 = [])
      ∧ twoChained.inLen.toNat ≤ twoChained.cfg.inMemBytes ∧ twoChained.arg0.toNat < twoChained.inLen.toNat
      ∧ candidates twoChained 4 1000 = [4, 0] := by decide +kernel

theorem witness_FmatFindsLongestMatch_match : IsMatch twoChained twoChained.mode 4 0 4 := by
  unfold IsMatch IsMatchLength
  decide +kernel

theorem witness_MscanSetsMode :
    let s := { sized 4 4 with inLen := 4 }
    s.inLen.toNat ≤ s.cfg.inMemBytes ∧ s.cfg.inMemBytes < { s with inLen := 5 }.inLen.toNat := by decide

theorem witness_CompressEmptyInput :
    (sized 1 2).cfg.wf ∧ (sized 1 2).inLen = 0 ∧ 2 ≤ (sized 1 2).cfg.outMemBytes := by decide

/-- No input byte and 82 bytes of room; a full input. -/
theorem witness_CompressCompletes :
    let s := sized 1 82
    let s' := { sized 1 162 with inLen := 1 }
    (s.cfg.wf ∧ s.inLen.toNat ≤ s.cfg.inMemBytes ∧ (s.inLen.toNat + 1) * 642 + 7 ≤ 8 * s.cfg.outMemBytes)
      ∧ s'.cfg.wf ∧ s'.inLen.toNat ≤ s'.cfg.inMemBytes ∧ (s'.inLen.toNat + 1) * 642 + 7 ≤ 8 * s'.cfg.outMemBytes := by
  decide

theorem witness_CompressWritesGrammarStream :
    let s := withInput [0x41]
    let t := stateOf (exec .compress s)
    exec .compress s = .next t ∧ s.cfg.wf ∧ s.status.err = false ∧ t.status.err = false :=
  ⟨next_stateOf (exec_next _ _), by decide +kernel⟩

/-- A fresh engine, and one with another tree, stale links and other bytes past the input. -/
theorem witness_CompressDependsOnlyOnInput :
    let s := { sized 2 9 with inMem := bytes [0x41, 0x42], inLen := 1 }
    let s' := { sized 3 9 with
      inMem := bytes [0x41, 0x43], inLen := 1, nodes := heavyTree, next := [(0, some 0)], outMem := bytes [0xFF] }
    let t := stateOf (exec .compress s)
    let t' := stateOf (exec .compress s')
    exec .compress s = .next t ∧ exec .compress s' = .next t' ∧ s.cfg.wf ∧ s'.cfg.wf
      ∧ s.cfg.outMemBytes = s'.cfg.outMemBytes ∧ s.inLen = s'.inLen ∧ s.inLen.toNat ≤ s.cfg.inMemBytes
      ∧ s.inLen.toNat ≤ s'.cfg.inMemBytes ∧ (∀ a, a < s.inLen.toNat → s.inByte a = s'.inByte a)
      ∧ s.status = s'.status ∧ s.errinfo = s'.errinfo :=
  ⟨next_stateOf (exec_next _ _), next_stateOf (exec_next _ _), by decide +kernel⟩

/-- The stream of "A", with room for exactly its one byte. -/
theorem witness_DecompressReadsGrammarStream :
    let s := { sized 3 1 with inMem := bytes [0x5B, 0x5D, 0x40], inLen := 3 }
    let items := [Item.literal 0x41]
    s.cfg.wf ∧ s.inLen.toNat ≤ s.cfg.inMemBytes ∧ legalItems [] items = true
      ∧ (streamBits [] items).length ≤ 8 * s.inLen.toNat ∧ InBeginsWith s (streamBits [] items)
      ∧ (expandItems [] items).length ≤ s.cfg.outMemBytes := by
  unfold InBeginsWith
  decide +kernel

/-- Two literals, then a copy of three bytes from three bytes back: one byte too far. -/
theorem witness_DecompressStopsOnBadDistance :
    let items := [Item.literal 0x41, Item.literal 0x42]
    let bits := itemBits [] (items ++ [Item.copy 0 3 0])
    let s := { sized 8 2 with inMem := bytes (packed bits), inLen := 4 }
    s.cfg.wf ∧ s.inLen.toNat ≤ s.cfg.inMemBytes ∧ legalItems [] items = true ∧ 0 < 2 ^ copyBits 0
      ∧ (expandItems [] items).length < (Item.copy 0 3 0).backOffset ∧ bits.length ≤ 8 * s.inLen.toNat
      ∧ InBeginsWith s bits ∧ (expandItems [] items).length ≤ s.cfg.outMemBytes := by
  unfold InBeginsWith
  decide +kernel

/-- The hypotheses of DecompressStopsAtEndOfStream on a stream of these items and what comes next, cut to `n` bytes, with room
for `room` bytes. -/
def cutStream (items : List Item) (next : Option Item) (n room : Nat) : State :=
  { sized 8 room with
    inMem := bytes ((packed (itemBits [] items ++ nextBits (itemsModel [] items) next)).take n)
    inLen := BitVec.ofNat 32 n }

/-- The terminator's code after "A", cut; an empty input; a cut in a literal's code with `OUT` full; and, after four literals, a
copy cut in its field whose back-offset is too far, and one whose bytes would not fit, both of them counted. -/
theorem witness_DecompressStopsAtEndOfStream :
    let four := [Item.literal 0x61, .literal 0x62, .literal 0x63, .literal 0x64]
    ∀ e ∈ [([Item.literal 0x41], none, 2, 1, 1), ([], none, 0, 1, 0), ([.literal 0x61], some (.literal 0x62), 2, 1, 1),
        (four, some (.copy 0 3 15), 6, 8, 5), (four, some (.copy 0 3 0), 6, 4, 5)],
      let s := cutStream e.1 e.2.1 e.2.2.1 e.2.2.2.1
      let bits := itemBits [] e.1 ++ nextBits (itemsModel [] e.1) e.2.1
      let stop := 8 * s.inLen.toNat
      s.cfg.wf ∧ s.inLen.toNat ≤ s.cfg.inMemBytes ∧ legalItems [] e.1 = true ∧ (itemBits [] e.1).length ≤ stop
        ∧ stop < bits.length ∧ (∀ b, b < stop → s.inBit b = bits.getD b false)
        ∧ (expandItems [] e.1).length ≤ s.cfg.outMemBytes ∧ (countedItems e.1 e.2.1 stop).length = e.2.2.2.2 := by
  decide +kernel

theorem witness_DecompressStopsAtEndOfStream_codable :
    (Item.copy 0 3 15).Codable ∧ (Item.copy 5 64 16383).Codable ∧ ¬ (Item.copy 5 64 16384).Codable := by
  unfold Item.Codable
  decide

/-- Two literals and room for one byte, with no terminator after them; and V-D6's case, a copy that would pass the end. -/
theorem witness_DecompressStopsAtFullOutput :
    ∀ e ∈ [([Item.literal 0x41], Item.literal 0x42, 1),
        ([.literal 0x61, .literal 0x62, .literal 0x63], .copy 0 3 0, 5)],
      let bits := itemBits [] (e.1 ++ [e.2.1])
      let s := { sized 8 e.2.2 with inMem := bytes (packed bits), inLen := 5 }
      s.cfg.wf ∧ s.inLen.toNat ≤ s.cfg.inMemBytes ∧ legalItems [] (e.1 ++ [e.2.1]) = true
        ∧ bits.length ≤ 8 * s.inLen.toNat ∧ InBeginsWith s bits ∧ (expandItems [] e.1).length ≤ s.cfg.outMemBytes
        ∧ s.cfg.outMemBytes < (expandItems [] (e.1 ++ [e.2.1])).length := by
  unfold InBeginsWith
  decide +kernel

/-- The input "A" with room for one of its stream's three bytes. -/
theorem witness_CompressStopsAtFullOutput :
    let s := { sized 1 1 with inMem := bytes [0x41], inLen := 1 }
    let t := stateOf (exec .compress s)
    exec .compress s = .next t ∧ s.cfg.wf ∧ s.inLen.toNat ≤ s.cfg.inMemBytes ∧ s.status.err = false
      ∧ t.status.err = true :=
  ⟨next_stateOf (exec_next _ _), by decide +kernel⟩

theorem witness_CompressDecompressRoundTrip :
    let s := withInput [0x41]
    let t := stateOf (exec .compress s)
    let d := { sized 3 1 with inMem := bytes [0x5B, 0x5D, 0x40], inLen := 3 }
    exec .compress s = .next t ∧ s.cfg.wf ∧ s.status.err = false ∧ t.status.err = false ∧ d.cfg.wf ∧ d.inLen = t.res0
      ∧ d.inLen.toNat ≤ d.cfg.inMemBytes ∧ (∀ a, a < t.res0.toNat → d.inByte a = t.outByte a)
      ∧ s.inLen.toNat ≤ d.cfg.outMemBytes := ⟨next_stateOf (exec_next _ _), by decide +kernel⟩

theorem witness_InputLengthChecked : (sized 4 4).cfg.inMemBytes < { sized 4 4 with inLen := 5 }.inLen.toNat := by decide

/-- An abort and a completion. -/
theorem witness_AbortKeepsResults :
    let s := { State.reset with arg0 := 629 }
    let t := stateOf (exec .mupd s)
    let t' := stateOf (exec .nop s)
    exec .mupd s = .next t ∧ exec .nop s = .next t' ∧ s.status.err = false ∧ t.status.err = true ∧ t'.status.err = false :=
  ⟨next_stateOf (exec_next _ _), next_stateOf (exec_next _ _), by decide +kernel⟩

theorem witness_CommandsKeepHostState : ∃ t, exec .mupd State.reset = .next t := exec_next _ _

theorem witness_OnlyWritersChange :
    (∃ t, exec .nop State.reset = .next t) ∧ Instr.nop ∉ [Instr.init, .compress, .decompress, .mupd, .henc, .hdec]
      ∧ Instr.nop ∉ [Instr.init, .compress, .decompress, .hins]
      ∧ Instr.nop ∉ [Instr.compress, .decompress, .henc, .putf, .flsh]
      ∧ Instr.nop ∉ [Instr.init, .compress, .decompress, .hdec, .getf]
      ∧ Instr.nop ∉ [Instr.init, .compress, .decompress, .mscan] := ⟨exec_next _ _, by decide⟩

/-- Both cursors at the ends of their memories. -/
theorem cursors_at_the_end : CursorsBounded { sized 4 4 with outBitpos := 32, inBitpos := 32, arg0 := 629 } :=
  ⟨by decide, Or.inl rfl, by decide, by decide⟩

theorem witness_ErrorCodesPerCommand :
    let s := { sized 4 4 with outBitpos := 32, inBitpos := 32, arg0 := 629 }
    let t := stateOf (exec .henc s)
    CursorsBounded s ∧ TreeShape s.nodes ∧ exec .henc s = .next t ∧ s.status.err = false ∧ t.status.err = true :=
  ⟨cursors_at_the_end, initialTree_shape, next_stateOf (exec_next _ _), by decide +kernel⟩

/-- The first and the last aligned offset while BUSY; a command's end with BWI set; the clearing write. -/
theorem witness_BusyWriteDroppedBwiSticky :
    (∀ offset ∈ [0, 252], offset < 256 ∧ offset % 4 = 0
      ∧ { (sized 4 4).startCommand 0 with agenda := [.busWrite (0x1000 + offset) 4 1] }.agenda
        = .busWrite ((sized 4 4).cfg.engineBase + offset) 4 1 :: []
      ∧ ((sized 4 4).startCommand 0).status.busy = true)
      ∧ (let s := { State.reset with status := { State.reset.status with bwi := true } }
        s.status.bwi = true ∧ s.status.busy = false ∧ ∃ t, step s = .next t) ∧ (8 : Word).getLsbD 3 = true
      ∧ { sized 4 4 with agenda := [.busWrite 0x100C 4 8] }.agenda
        = .busWrite ((sized 4 4).cfg.engineBase + 0x0C) 4 8 :: [] :=
  ⟨by decide, ⟨rfl, rfl, _, rfl⟩, by decide, by decide⟩

theorem witness_IdleRegisterWrites :
    ∀ p ∈ registerTable, (sized 4 4).status.busy = false ∧ { sized 4 4 with agenda := [.busWrite (0x1000 + p.1) 4 1] }.agenda
      = .busWrite ((sized 4 4).cfg.engineBase + p.1) 4 1 :: [] := by decide

theorem witness_RegisterReads :
    ∀ p ∈ registerTable, (sized 4 4).status.busy = false ∧ { sized 4 4 with agenda := [.busRead (0x1000 + p.1) 4] }.agenda
      = .busRead ((sized 4 4).cfg.engineBase + p.1) 4 :: [] := by decide

/-- The first and the last reserved offset, a narrow access, a misaligned one. -/
theorem witness_NarrowAndReservedAccesses :
    ∀ e ∈ [(0x40, 4), (0xFC, 4), (0x10, 1), (0x11, 4), (0xFF, 4)],
      e.1 < 256 ∧ (0x40 ≤ e.1 ∨ e.2 ≠ 4 ∨ e.1 % 4 ≠ 0) ∧ (sized 4 4).status.busy = false
        ∧ { sized 4 4 with agenda := [.busRead (0x1000 + e.1) e.2] }.agenda
          = .busRead ((sized 4 4).cfg.engineBase + e.1) e.2 :: []
        ∧ { sized 4 4 with agenda := [.busWrite (0x1000 + e.1) e.2 7] }.agenda
          = .busWrite ((sized 4 4).cfg.engineBase + e.1) e.2 7 :: [] := by decide

theorem witness_BusyReads :
    (∀ p ∈ registerTable, ((sized 4 4).startCommand 0x10).status.busy = true
      ∧ { (sized 4 4).startCommand 0x10 with agenda := [.busRead (0x1000 + p.1) 4] }.agenda
        = .busRead ((sized 4 4).cfg.engineBase + p.1) 4 :: [])
      ∧ ∃ t, engineStep { (sized 4 4).startCommand 0x10 with agenda := [] } = .next t :=
  ⟨by decide, engineStep_next _⟩

theorem witness_StopsExactlyOnForbiddenHostSteps :
    State.reset.agenda = [] ∧ eventAllowed (sized 4 4) (.inWrite 3 0) ∧ ¬ eventAllowed (sized 4 4) (.inWrite 4 0)
      ∧ ¬ eventAllowed ((sized 4 4).startCommand 0) (.outWrite 3 0) ∧ eventAllowed ((sized 4 4).startCommand 0) (.outRead 3)
      ∧ eventAllowed (sized 4 4) (.busRead 0x10FF 4) ∧ ¬ eventAllowed (sized 4 4) (.busRead 0x1100 4)
      ∧ ¬ eventAllowed (sized 4 4) (.busRead 0xFFF 4) ∧ ((sized 4 4).startCommand 0).status.busy = true := by
  unfold eventAllowed
  decide +kernel

theorem witness_HostMemoryAccess :
    (sized 4 4).status.busy = false ∧ 3 < (sized 4 4).cfg.inMemBytes ∧ 3 < (sized 4 4).cfg.outMemBytes
      ∧ { sized 4 4 with agenda := [.inRead 3] }.agenda = .inRead 3 :: []
      ∧ { sized 4 4 with agenda := [.outWrite 3 5] }.agenda = .outWrite 3 5 :: []
      ∧ ((sized 4 4).startCommand 0).status.busy = true ∧ 3 < ((sized 4 4).startCommand 0).cfg.outMemBytes
      ∧ { (sized 4 4).startCommand 0 with agenda := [.outRead 3] }.agenda = .outRead 3 :: [] := by decide

/-- MUPD 65 has been written to CMD of a fresh engine whose agenda holds only the engine's turn. -/
def mupdStarted : State := { State.reset with arg0 := 65 }.withFetchWord 32 0x10

theorem mupdStarted_steps : ∃ t, step mupdStarted = .next t := by
  unfold mupdStarted
  rw [step_withFetchWord]
  exact engineStep_next _

theorem witness_CanonicalStoresKept :
    CursorsBounded mupdStarted ∧ CanonicalStores mupdStarted ∧ ∃ t, step mupdStarted = .next t :=
  ⟨⟨by decide, Or.inr ⟨_, rfl⟩, by decide, by decide⟩, by unfold CanonicalStores; decide, mupdStarted_steps⟩

theorem witness_ControlConsistentKept : ControlConsistent mupdStarted ∧ ∃ t, step mupdStarted = .next t :=
  ⟨⟨Or.inr ⟨_, rfl⟩, by decide, by decide, by decide, by decide, rfl⟩, mupdStarted_steps⟩

theorem witness_TreeShapeKept :
    TreeShape mupdStarted.nodes ∧ TreeShape { mupdStarted with nodes := heavyTree }.nodes
      ∧ ∃ t, step mupdStarted = .next t := ⟨initialTree_shape, heavyTree_shape, mupdStarted_steps⟩

theorem witness_FrequencyKept :
    TreeShape { mupdStarted with nodes := heavyTree }.nodes ∧ FrequencyBound { mupdStarted with nodes := heavyTree }.nodes
      ∧ ∃ t, step { mupdStarted with nodes := heavyTree } = .next t :=
  ⟨heavyTree_shape, heavyTree_frequency, engineStep_next { mupdStarted with nodes := heavyTree, agenda := [] }⟩

theorem witness_CursorsBoundedKept :
    CursorsBounded { sized 4 4 with outBitpos := 32, inBitpos := 32, arg0 := 629 }
      ∧ ∃ t, step { sized 4 4 with outBitpos := 32, inBitpos := 32, arg0 := 629 } = .next t :=
  ⟨cursors_at_the_end, _, rfl⟩

/-- A chain of two positions. -/
theorem witness_LinksWrittenKept :
    let s := { State.reset with head := [(5, some 4)], next := [(0, none), (4, some 0)] }
    LinksWritten s ∧ ∃ t, step s = .next t := by
  refine ⟨⟨?_, ?_⟩, _, rfl⟩
  · intro k c h
    simp only [State.headAt, sparseGet, sparseFind] at h
    split at h
    · cases h; decide
    · cases h
  · intro a c h
    simp only [sparseFind] at h
    split at h
    · cases h
    · split at h
      · cases h; decide
      · cases h

/-- The smallest and the largest memories that R9 allows. -/
theorem witness_ResetMeetsInvariants :
    Config.Platform.wf { inMemBytes := 1, outMemBytes := 1, engineBase := 0 }
      ∧ Config.Platform.wf { inMemBytes := 2 ^ 28, outMemBytes := 2 ^ 28, engineBase := 0 } := by decide

end Sys2Proof.Tests
end

section
/-! PROOFS. The cursor invariant (00_scope R9, 43_compress R262, 70_reset R382). A predicate is carried through a command
sub-step by sub-step (`CmdRes.EndsIn`); for the cursors it is `CursorsFit`, which pins the platform and IN_LEN as well, so
that the reader's bound of R143 stays the one that the IN_LEN check has tested. -/

namespace Sys2Proof.Machine

/-! ### A predicate of the state in which a sub-step ends -/

/-- The state in which a sub-step ends satisfies `P`, whether the sub-step goes on or aborts: an abort rolls nothing back
(R343). -/
inductive CmdRes.EndsIn {α : Type} (P : State → Prop) : CmdRes α → Prop
  | ok {a : α} {s : State} (h : P s) : EndsIn P (.ok a s)
  | abort {e : ErrCode} {i : Word} {s : State} (h : P s) : EndsIn P (.abort e i s)

section EndsIn

variable {α β : Type} {P : State → Prop}

/-- A predicate that each part of a sequence keeps holds where the sequence ends. -/
theorem CmdRes.EndsIn.bind {r : CmdRes α} {f : α → State → CmdRes β} (hr : r.EndsIn P)
    (hf : ∀ a s, P s → (f a s).EndsIn P) : (r.bind f).EndsIn P := by
  cases hr with
  | ok h => exact hf _ _ h
  | abort h => exact .abort h

/-- A choice between two sub-steps. -/
theorem CmdRes.EndsIn.ite {b : Prop} [Decidable b] {r r' : CmdRes α} (h : r.EndsIn P) (h' : r'.EndsIn P) :
    (if b then r else r').EndsIn P := by
  split
  · exact h
  · exact h'

/-- A check leaves the state as it is. -/
theorem require_endsIn {s : State} (b : Bool) (e : ErrCode) (i : Word) (hs : P s) : (require b e i s).EndsIn P := by
  cases b with
  | true => exact .ok hs
  | false => exact .abort hs

/-- What follows a check runs in the same state and may use that the check has passed. -/
theorem require_bind_endsIn {s : State} {b : Bool} {e : ErrCode} {i : Word} {f : Unit → State → CmdRes α} (hs : P s)
    (hf : b = true → (f () s).EndsIn P) : ((require b e i s).bind f).EndsIn P := by
  cases b with
  | true => exact hf rfl
  | false => exact .abort hs

/-- The state a command leaves is the completed or aborted form of the one its body ends in (R114, R340). -/
theorem finish_endsIn {r : CmdRes Results} {t : State} (hr : r.EndsIn P) (h : finish r = .next t) :
    ∃ u, P u ∧ ((∃ x, t = u.complete x) ∨ ∃ e i, t = u.raise e i) := by
  cases hr with
  | ok hu =>
    cases h
    exact ⟨_, hu, Or.inl ⟨_, rfl⟩⟩
  | abort hu =>
    cases h
    exact ⟨_, hu, Or.inr ⟨_, _, rfl⟩⟩

end EndsIn

/-! ### The cursors during a command -/

/-- On the platform `c`, with `n` in IN_LEN, both cursors stand inside their memories or at their ends. -/
def CursorsFit (c : Config.Platform) (n : Word) (s : State) : Prop :=
  s.cfg = c ∧ s.inLen = n ∧ c.wf ∧ s.outBitpos.toNat ≤ 8 * c.outMemBytes ∧ s.inBitpos.toNat ≤ 8 * c.inMemBytes

/-- Between steps, the invariant is `CursorsFit` and a sequencer in IDLE or RUN. -/
theorem cursorsBounded_iff (s : State) :
    CursorsBounded s ↔ (s.seq = .idle ∨ ∃ w, s.seq = .run w) ∧ CursorsFit s.cfg s.inLen s := by
  unfold CursorsBounded CursorsFit
  tauto

section CursorsFit

variable {c : Config.Platform} {n : Word} {s : State}

/-- A cursor below the end of a memory moves by one without wrapping: R9 allows at most `2^31` bits. -/
theorem cursor_succ_toNat {b : Word} {m : Nat} (hb : b.toNat < 8 * m) (hm : m ≤ 2 ^ 28) :
    (b + 1).toNat = b.toNat + 1 := by
  have h1 : (1 : Word).toNat = 1 := rfl
  rw [BitVec.toNat_add, h1]
  omega

/-- Only the platform, IN_LEN and the cursors matter. -/
theorem CursorsFit.frame {t : State} (h : CursorsFit c n s) (hcfg : t.cfg = s.cfg) (hlen : t.inLen = s.inLen)
    (hout : t.outBitpos = s.outBitpos) (hin : t.inBitpos = s.inBitpos) : CursorsFit c n t := by
  unfold CursorsFit
  rw [hcfg, hlen, hout, hin]
  exact h

/-- InitState puts both cursors to 0 (R321). -/
theorem CursorsFit.initState (h : CursorsFit c n s) : CursorsFit c n s.initState := by
  obtain ⟨hcfg, hlen, hwf, -, -⟩ := h
  exact ⟨hcfg, hlen, hwf, Nat.zero_le _, Nat.zero_le _⟩

/-! ### The bit writer: a cursor at the end of `OUT` does not move (R140) -/

theorem putBit_endsIn_cursorsFit (v : Bool) (h : CursorsFit c n s) : (putBit v s).EndsIn (CursorsFit c n) := by
  by_cases hroom : s.outBitpos.toNat / 8 < s.cfg.outMemBytes
  · rw [putBit_room v hroom]
    obtain ⟨hcfg, hlen, hwf, hout, hin⟩ := h
    rw [hcfg] at hroom
    have hlt : s.outBitpos.toNat < 8 * c.outMemBytes := by omega
    have hnext := cursor_succ_toNat hlt hwf.2.2.2
    exact .ok ⟨hcfg, hlen, hwf, by dsimp only; omega, hin⟩
  · rw [putBit_full v (not_lt.1 hroom)]
    exact .abort h

theorem putBits_endsIn_cursorsFit (vs : List Bool) (h : CursorsFit c n s) :
    (putBits vs s).EndsIn (CursorsFit c n) := by
  induction vs generalizing s with
  | nil => exact .ok h
  | cons v vs ih => exact (putBit_endsIn_cursorsFit v h).bind fun _ _ h1 => ih h1

theorem putByte_endsIn_cursorsFit (x : Byte) (h : CursorsFit c n s) : (putByte x s).EndsIn (CursorsFit c n) :=
  putBits_endsIn_cursorsFit _ h

theorem putField_endsIn_cursorsFit (v : Word) (w : Nat) (h : CursorsFit c n s) :
    (putField v w s).EndsIn (CursorsFit c n) :=
  putBits_endsIn_cursorsFit _ h

theorem flush_endsIn_cursorsFit (h : CursorsFit c n s) : (flush s).EndsIn (CursorsFit c n) :=
  (putBits_endsIn_cursorsFit _ h).bind fun _ _ h1 => .ok h1

/-! ### The bit reader: it stops at `8 * IN_LEN`, inside `IN` once the IN_LEN check has passed (R37, R143) -/

theorem getBit_endsIn_cursorsFit (hn : n.toNat ≤ c.inMemBytes) (h : CursorsFit c n s) :
    (getBit s).EndsIn (CursorsFit c n) := by
  by_cases hmore : s.inBitpos.toNat < 8 * s.inLen.toNat
  · rw [getBit_more hmore]
    obtain ⟨hcfg, hlen, hwf, hout, hin⟩ := h
    rw [hlen] at hmore
    have hlt : s.inBitpos.toNat < 8 * c.inMemBytes := by omega
    have hnext := cursor_succ_toNat hlt hwf.2.1
    exact .ok ⟨hcfg, hlen, hwf, hout, by dsimp only; omega⟩
  · rw [getBit_end (not_lt.1 hmore)]
    exact .abort h

theorem getBits_endsIn_cursorsFit (hn : n.toNat ≤ c.inMemBytes) (w : Nat) (h : CursorsFit c n s) :
    (getBits w s).EndsIn (CursorsFit c n) := by
  induction w generalizing s with
  | zero => exact .ok h
  | succ w ih =>
    exact (getBit_endsIn_cursorsFit hn h).bind fun _ _ h1 => (ih h1).bind fun _ _ h2 => .ok h2

theorem getField_endsIn_cursorsFit (hn : n.toNat ≤ c.inMemBytes) (w : Nat) (h : CursorsFit c n s) :
    (getField w s).EndsIn (CursorsFit c n) :=
  (getBits_endsIn_cursorsFit hn w h).bind fun _ _ h1 => .ok h1

/-! ### Symbols -/

/-- The model's update moves no cursor (R176). -/
theorem updateModel_endsIn_cursorsFit (code : Nat) (h : CursorsFit c n s) :
    (updateModel code s).EndsIn (CursorsFit c n) := by
  rcases updateModel_cases code s with ⟨_, hu⟩ | ⟨_, hu⟩
  · rw [hu]
    exact .ok (h.frame rfl rfl rfl rfl)
  · rw [hu]
    exact .abort h

theorem encodeSym_endsIn_cursorsFit (code : Nat) (h : CursorsFit c n s) :
    (encodeSym code s).EndsIn (CursorsFit c n) := by
  unfold encodeSym
  dsimp only
  have hpath : CursorsFit c n { s with pathStack := s.nodes.codeOf code } := h.frame rfl rfl rfl rfl
  refine (putBits_endsIn_cursorsFit _ hpath).bind fun _ s1 h1 => ?_
  have hempty : CursorsFit c n { s1 with pathStack := [] } := h1.frame rfl rfl rfl rfl
  exact (updateModel_endsIn_cursorsFit code hempty).bind fun _ _ h2 => .ok h2

theorem walkDown_endsIn_cursorsFit (hn : n.toNat ≤ c.inMemBytes) (left : Nat) (k : NodeId) (read : Nat)
    (h : CursorsFit c n s) : (walkDown left k read s).EndsIn (CursorsFit c n) := by
  induction left generalizing k read s with
  | zero =>
    unfold walkDown
    exact .ite (.abort h) (.ok h)
  | succ left ih =>
    unfold walkDown
    refine .ite ((getBit_endsIn_cursorsFit hn h).bind fun v s1 h1 => ?_) (.ok h)
    exact .ite (.abort h1) (ih _ _ h1)

theorem decodeSym_endsIn_cursorsFit (hn : n.toNat ≤ c.inMemBytes) (h : CursorsFit c n s) :
    (decodeSym s).EndsIn (CursorsFit c n) := by
  unfold decodeSym
  refine (walkDown_endsIn_cursorsFit hn _ _ _ h).bind fun _ _ h1 => ?_
  exact (updateModel_endsIn_cursorsFit _ h1).bind fun _ _ h2 => .ok h2

/-! ### COMPRESS -/

/-- The lookahead moves no cursor of a stream (R256). -/
theorem CursorsFit.readAhead (p : Nat) (h : CursorsFit c n s) : CursorsFit c n (readAhead p s) := by
  obtain ⟨b, d, hr⟩ := readAhead_cases p s
  rw [hr]
  exact h

/-- An insertion writes tables only (R214). -/
theorem CursorsFit.insertPosition (p : Nat) (h : CursorsFit c n s) : CursorsFit c n (insertPosition s p).2 := by
  rcases insertPosition_cases s p with ⟨_, hi, _, _, _, hl⟩ | ⟨_, hi⟩
  · rw [hi, hl]
    exact h
  · rw [hi]
    exact h

theorem emitCopy_endsIn_cursorsFit (len dist : Nat) (h : CursorsFit c n s) :
    (emitCopy len dist s).EndsIn (CursorsFit c n) := by
  unfold emitCopy
  exact (encodeSym_endsIn_cursorsFit _ h).bind fun _ _ h1 => putField_endsIn_cursorsFit _ _ h1

theorem decideStep_endsIn_cursorsFit (p : Word) (h : CursorsFit c n s) :
    (decideStep p s).EndsIn (CursorsFit c n) := by
  have hinserted := h.insertPosition p.toNat
  unfold decideStep
  dsimp only
  refine .ite ?_ ?_
  · exact (emitCopy_endsIn_cursorsFit _ _ hinserted).bind fun _ _ h2 => .ok h2
  · exact (encodeSym_endsIn_cursorsFit _ hinserted).bind fun _ _ h2 => .ok (h2.readAhead (p.toNat + 1))

theorem CursorsFit.copyStep (p len dist rest : Word) (h : CursorsFit c n s) :
    CursorsFit c n (copyStep p len dist rest s) := by
  have hread := h.readAhead (p.toNat + 1)
  unfold Machine.copyStep
  dsimp only
  split
  · exact hread
  · exact hread.insertPosition (p.toNat + 1)

theorem flushStream_endsIn_cursorsFit (h : CursorsFit c n s) : (flushStream s).EndsIn (CursorsFit c n) := by
  unfold flushStream
  refine (encodeSym_endsIn_cursorsFit _ h).bind fun _ _ h1 => ?_
  exact (flush_endsIn_cursorsFit h1).bind fun _ _ h2 => .ok h2

theorem compressStep_endsIn_cursorsFit (h : CursorsFit c n s) : (compressStep s).EndsIn (CursorsFit c n) := by
  unfold compressStep
  cases s.seq with
  | fill => exact .ok ((h.readAhead 0).frame rfl rfl rfl rfl)
  | decide p => exact .ite (decideStep_endsIn_cursorsFit p h) (.ok h)
  | copy p len dist rest => exact .ok (h.copyStep p len dist rest)
  | flush => exact (flushStream_endsIn_cursorsFit h).bind fun _ _ h1 => .ok h1
  | _ => exact .ok h

theorem compressLoop_endsIn_cursorsFit (k : Nat) (h : CursorsFit c n s) :
    (compressLoop k s).EndsIn (CursorsFit c n) := by
  induction k generalizing s with
  | zero => exact .ok h
  | succ k ih => exact .ite (.ok h) ((compressStep_endsIn_cursorsFit h).bind fun _ _ h1 => ih h1)

theorem runCompress_endsIn_cursorsFit (h : CursorsFit c n s) : (runCompress s).EndsIn (CursorsFit c n) :=
  (compressLoop_endsIn_cursorsFit _ h).bind fun _ _ h1 => .ok h1

/-! ### DECOMPRESS -/

theorem copyBytes_endsIn_cursorsFit (k : Nat) (r : Backref) (h : CursorsFit c n s) :
    (copyBytes k r s).EndsIn (CursorsFit c n) := by
  induction k generalizing r s with
  | zero => exact .ok h
  | succ k ih => exact (putByte_endsIn_cursorsFit _ h).bind fun _ _ h1 => ih _ h1

theorem copyBackrefStep_endsIn_cursorsFit (hn : n.toNat ≤ c.inMemBytes) (r : Backref) (h : CursorsFit c n s) :
    (copyBackrefStep r s).EndsIn (CursorsFit c n) := by
  unfold copyBackrefStep
  refine (getField_endsIn_cursorsFit hn _ h).bind fun _ s1 h1 => ?_
  refine (require_endsIn _ _ _ h1).bind fun _ s2 h2 => ?_
  refine (require_endsIn _ _ _ h2).bind fun _ s3 h3 => ?_
  refine (copyBytes_endsIn_cursorsFit _ _ ?_).bind fun _ _ h4 => .ok h4
  exact h3

theorem decompressStep_endsIn_cursorsFit (hn : n.toNat ≤ c.inMemBytes) (h : CursorsFit c n s) :
    (decompressStep s).EndsIn (CursorsFit c n) := by
  unfold decompressStep
  cases s.seq with
  | decodeCode => exact (decodeSym_endsIn_cursorsFit hn h).bind fun _ _ h1 => .ok h1
  | emitLiteral code => exact (putByte_endsIn_cursorsFit _ h).bind fun _ _ h1 => .ok h1
  | copyBackref r => exact copyBackrefStep_endsIn_cursorsFit hn r h
  | _ => exact .ok h

theorem decompressLoop_endsIn_cursorsFit (hn : n.toNat ≤ c.inMemBytes) (k : Nat) (h : CursorsFit c n s) :
    (decompressLoop k s).EndsIn (CursorsFit c n) := by
  induction k generalizing s with
  | zero => exact .ok h
  | succ k ih => exact .ite (.ok h) ((decompressStep_endsIn_cursorsFit hn h).bind fun _ _ h1 => ih h1)

theorem runDecompress_endsIn_cursorsFit (hn : n.toNat ≤ c.inMemBytes) (h : CursorsFit c n s) :
    (runDecompress s).EndsIn (CursorsFit c n) :=
  (decompressLoop_endsIn_cursorsFit hn _ h).bind fun _ _ h1 => .ok h1

/-! ### The commands -/

/-- After a passed IN_LEN check the reader's bound lies inside `IN` (R37, R143). -/
theorem checkInLen_bind_endsIn_cursorsFit {α : Type} {f : Unit → State → CmdRes α} (h : CursorsFit c n s)
    (hf : n.toNat ≤ c.inMemBytes → (f () s).EndsIn (CursorsFit c n)) :
    ((checkInLen s).bind f).EndsIn (CursorsFit c n) := by
  refine require_bind_endsIn h fun hpass => hf ?_
  obtain ⟨hcfg, hlen, -, -, -⟩ := h
  rw [← hcfg, ← hlen]
  exact of_decide_eq_true hpass

/-- A completed or aborted command is IDLE and leaves the cursors where its body did (R114, R340). -/
theorem finish_cursorsBounded {r : CmdRes Results} {t : State} (hr : r.EndsIn (CursorsFit c n))
    (ht : finish r = .next t) : CursorsBounded t := by
  obtain ⟨u, ⟨hcfg, hlen, hwf, hout, hin⟩, ⟨x, rfl⟩ | ⟨e, i, rfl⟩⟩ := finish_endsIn hr ht
  all_goals
    subst hcfg
    exact ⟨hwf, Or.inl rfl, hout, hin⟩

/-- The body of every command keeps the cursors in their memories. Of the commands that move the read cursor forward, GETF,
HDEC and DECOMPRESS, each has checked IN_LEN before. -/
theorem exec_body_endsIn_cursorsFit (i : Instr) (h : CursorsFit c n s) :
    ∃ r, exec i s = finish r ∧ r.EndsIn (CursorsFit c n) := by
  cases i with
  | nop => exact ⟨_, rfl, .ok h⟩
  | init => exact ⟨_, rfl, .ok h.initState⟩
  | compress =>
    refine ⟨_, rfl, ?_⟩
    refine (require_endsIn _ _ _ h).bind fun _ s1 h1 => runCompress_endsIn_cursorsFit ?_
    exact h1.initState
  | decompress =>
    refine ⟨_, rfl, ?_⟩
    refine checkInLen_bind_endsIn_cursorsFit h fun hn => runDecompress_endsIn_cursorsFit hn ?_
    exact h.initState
  | mupd =>
    refine ⟨_, rfl, ?_⟩
    refine (require_endsIn _ _ _ h).bind fun _ s1 h1 => ?_
    exact (updateModel_endsIn_cursorsFit _ h1).bind fun _ _ h2 => .ok h2
  | henc =>
    refine ⟨_, rfl, ?_⟩
    refine (require_endsIn _ _ _ h).bind fun _ s1 h1 => ?_
    exact (encodeSym_endsIn_cursorsFit _ h1).bind fun _ _ h2 => .ok h2
  | hdec =>
    refine ⟨_, rfl, ?_⟩
    refine checkInLen_bind_endsIn_cursorsFit h fun hn => ?_
    exact (decodeSym_endsIn_cursorsFit hn h).bind fun _ _ h1 => .ok h1
  | putf =>
    refine ⟨_, rfl, ?_⟩
    refine (require_endsIn _ _ _ h).bind fun _ s1 h1 => ?_
    exact (putField_endsIn_cursorsFit _ _ h1).bind fun _ _ h2 => .ok h2
  | getf =>
    refine ⟨_, rfl, ?_⟩
    refine checkInLen_bind_endsIn_cursorsFit h fun hn => ?_
    refine (require_endsIn _ _ _ h).bind fun _ s1 h1 => ?_
    exact (getField_endsIn_cursorsFit hn _ h1).bind fun _ _ h2 => .ok h2
  | flsh =>
    refine ⟨_, rfl, ?_⟩
    exact (flush_endsIn_cursorsFit h).bind fun _ _ h1 => .ok h1
  | hins =>
    refine ⟨_, rfl, ?_⟩
    refine (require_endsIn _ _ _ h).bind fun _ s1 h1 => ?_
    refine (require_endsIn _ _ _ h1).bind fun _ s2 h2 => ?_
    exact .ok (h2.insertPosition s2.arg0.toNat)
  | fmat =>
    refine ⟨_, rfl, ?_⟩
    refine (require_endsIn _ _ _ h).bind fun _ s1 h1 => ?_
    exact (require_endsIn _ _ _ h1).bind fun _ _ h2 => .ok h2
  | nread | rfnd | rrd | mscan =>
    refine ⟨_, rfl, ?_⟩
    exact (require_endsIn _ _ _ h).bind fun _ _ h1 => .ok h1

/-- Every command ends IDLE, with the cursors in their memories. -/
theorem exec_cursorsBounded (i : Instr) {t : State} (h : CursorsFit c n s) (ht : exec i s = .next t) :
    CursorsBounded t := by
  obtain ⟨r, he, hr⟩ := exec_body_endsIn_cursorsFit i h
  exact finish_cursorsBounded hr (he.symm.trans ht)

end CursorsFit

/-! ### The engine's turn and the host's -/

section Events

variable {s t : State}

/-- The engine's turn: an idle engine stays, a command runs to its end, an illegal word aborts (R382, R116). A state inside
COMPRESS or DECOMPRESS is not `CursorsBounded`. -/
theorem engineStep_cursorsBounded (hs : CursorsBounded s) (ht : engineStep s = .next t) : CursorsBounded t := by
  obtain ⟨hseq, hfit⟩ := (cursorsBounded_iff s).1 hs
  rcases engineStep_cases s with ⟨_, he⟩ | ⟨w, i, _, _, he⟩ | ⟨w, e, _, _, he⟩ | ⟨hidle, hrun, _⟩
  · cases he.symm.trans ht
    exact hs
  · exact exec_cursorsBounded i hfit (he.symm.trans ht)
  · exact finish_cursorsBounded (.abort hfit : (CmdRes.abort .illegalCommand w s).EndsIn _) (he.symm.trans ht)
  · rcases hseq with h | ⟨w, h⟩
    · exact absurd h hidle
    · exact absurd h (hrun w)

/-- A register read changes what the host has read and the count of free values, and nothing else (R90, R384). -/
theorem State.hostReadReg_eq (s : State) (r : Reg) :
    ∃ v k, s.hostReadReg r = { s with readData := v, freeCount := k } := by
  unfold State.hostReadReg
  split
  · exact ⟨_, _, rfl⟩
  · exact ⟨_, s.freeCount, rfl⟩

/-- A bus read likewise, at every address of the window (R30, R86). -/
theorem hostBusRead_next {addr size : Nat} (ht : hostBusRead addr size s = .next t) :
    ∃ v k, t = { s with readData := v, freeCount := k } := by
  unfold hostBusRead at ht
  split at ht
  · cases ht
  · split at ht
    · split at ht
      · cases ht
        exact s.hostReadReg_eq _
      · cases ht
        exact ⟨_, s.freeCount, rfl⟩
    · cases ht
      exact ⟨_, s.freeCount, rfl⟩

/-- A host read of `IN` likewise (R80, R90). -/
theorem hostInRead_next {a : Nat} (ht : hostInRead a s = .next t) :
    ∃ v k, t = { s with readData := v, freeCount := k } := by
  unfold hostInRead at ht
  split at ht <;> cases ht
  exact ⟨_, s.freeCount, rfl⟩

/-- A host read of `OUT` likewise (R81, R98). -/
theorem hostOutRead_next {a : Nat} (ht : hostOutRead a s = .next t) :
    ∃ v k, t = { s with readData := v, freeCount := k } := by
  unfold hostOutRead at ht
  split at ht
  · cases ht
  · split at ht <;> cases ht
    · exact ⟨_, _, rfl⟩
    · exact ⟨_, s.freeCount, rfl⟩

/-- A host write of `IN` that is a step writes the byte (R80, R386). -/
theorem hostInWrite_next {a : Nat} {b : Byte} (ht : hostInWrite a b s = .next t) : t = s.setInByte a b := by
  unfold hostInWrite at ht
  split at ht
  · cases ht
  · split at ht <;> cases ht
    rfl

/-- A host write of `OUT` that is a step writes the byte (R81, R386). -/
theorem hostOutWrite_next {a : Nat} {b : Byte} (ht : hostOutWrite a b s = .next t) : t = s.setOutByte a b := by
  unfold hostOutWrite at ht
  split at ht
  · cases ht
  · split at ht <;> cases ht
    rfl

/-- A bus write that is a step is a register write at an aligned offset of the window, or is ignored (R86). -/
theorem hostBusWrite_next {addr size : Nat} {v : Word} (ht : hostBusWrite addr size v s = .next t) :
    t = s ∨ ∃ offset, t = s.hostWriteOffset offset v := by
  unfold hostBusWrite at ht
  split at ht
  · cases ht
  · split at ht <;> cases ht
    · exact Or.inr ⟨_, rfl⟩
    · exact Or.inl rfl

/-- The host cannot write a cursor; a write of CMD makes the sequencer RUN (R38, R39, R113). -/
theorem CursorsBounded.writeReg (r : Reg) (v : Word) (hs : CursorsBounded s) : CursorsBounded (s.writeReg r v) := by
  cases r with
  | cmd =>
    obtain ⟨hwf, -, hout, hin⟩ := hs
    exact ⟨hwf, Or.inr ⟨v, rfl⟩, hout, hin⟩
  | _ => exact hs

theorem CursorsBounded.hostWriteOffset (offset : Nat) (v : Word) (hs : CursorsBounded s) :
    CursorsBounded (s.hostWriteOffset offset v) := by
  unfold State.hostWriteOffset
  split
  · exact hs
  · split
    · exact hs.writeReg _ v
    · exact hs

/-- Reset keeps the platform, and has IDLE and both cursors at 0 (R370). -/
theorem CursorsBounded.hardwareReset (hs : CursorsBounded s) : CursorsBounded s.hardwareReset := by
  obtain ⟨hwf, -, -, -⟩ := hs
  exact ⟨hwf, Or.inl rfl, Nat.zero_le _, Nat.zero_le _⟩

theorem takeEvent_cursorsBounded (e : Event) (hs : CursorsBounded s) (ht : takeEvent e s = .next t) :
    CursorsBounded t := by
  cases e with
  | engine => exact engineStep_cursorsBounded hs ht
  | reset =>
    cases ht
    exact hs.hardwareReset
  | busRead addr size =>
    obtain ⟨v, k, rfl⟩ := hostBusRead_next ht
    exact hs
  | busWrite addr size v =>
    obtain rfl | ⟨offset, rfl⟩ := hostBusWrite_next ht
    · exact hs
    · exact hs.hostWriteOffset offset v
  | inRead a =>
    obtain ⟨v, k, rfl⟩ := hostInRead_next ht
    exact hs
  | inWrite a b =>
    obtain rfl := hostInWrite_next ht
    exact hs
  | outRead a =>
    obtain ⟨v, k, rfl⟩ := hostOutRead_next ht
    exact hs
  | outWrite a b =>
    obtain rfl := hostOutWrite_next ht
    exact hs

end Events

/-- Settles O55, by the two forms of a step: the engine's turn with nothing on the agenda, or the first event on it. -/
theorem cursorsBoundedKept : Obligations.CursorsBoundedKept := by
  unfold Obligations.CursorsBoundedKept
  intro s t hs ht
  rcases step_cases s with ⟨_, he⟩ | ⟨e, rest, _, he⟩
  · exact engineStep_cursorsBounded hs (he.symm.trans ht)
  · exact takeEvent_cursorsBounded (s := { s with agenda := rest }) e hs (he.symm.trans ht)

end Sys2Proof.Machine
end

section
/-! PROOFS. What every command keeps (60_exceptions R340, R343; 10_state R34 to R37, R44, R51). The sub-steps of the
commands are walked once, for any predicate that the few kinds of change they make keep (`KeptByMoves`); each statement
then gives its own predicate. -/

namespace Sys2Proof.Machine

/-! ### A predicate kept by the sub-steps, and an abort that names its error -/

/-- The state in which a sub-step ends satisfies `P`, and an abort's error has a code that is not 0 (R341). -/
inductive CmdRes.Keeps {α : Type} (P : State → Prop) : CmdRes α → Prop
  | ok {a : α} {s : State} (h : P s) : Keeps P (.ok a s)
  | abort {e : ErrCode} {i : Word} {s : State} (he : e ≠ .none) (h : P s) : Keeps P (.abort e i s)

section Keeps

variable {α β : Type} {P : State → Prop}

theorem CmdRes.Keeps.bind {r : CmdRes α} {f : α → State → CmdRes β} (hr : r.Keeps P)
    (hf : ∀ a s, P s → (f a s).Keeps P) : (r.bind f).Keeps P := by
  cases hr with
  | ok h => exact hf _ _ h
  | abort he h => exact .abort he h

theorem CmdRes.Keeps.ite {b : Prop} [Decidable b] {r r' : CmdRes α} (h : r.Keeps P) (h' : r'.Keeps P) :
    (if b then r else r').Keeps P := by
  split
  · exact h
  · exact h'

theorem require_keeps {s : State} (b : Bool) {e : ErrCode} (he : e ≠ .none) (i : Word) (hs : P s) :
    (require b e i s).Keeps P := by
  cases b with
  | true => exact .ok hs
  | false => exact .abort he hs

/-- A command ends as a completion or as an abort with an error, of the state its body ends in (R114, R340). -/
theorem finish_keeps {r : CmdRes Results} {t : State} (hr : r.Keeps P) (h : finish r = .next t) :
    ∃ u, P u ∧ ((∃ x, t = u.complete x) ∨ ∃ e i, e ≠ .none ∧ t = u.raise e i) := by
  cases hr with
  | ok hu =>
    cases h
    exact ⟨_, hu, Or.inl ⟨_, rfl⟩⟩
  | abort he hu =>
    cases h
    exact ⟨_, hu, Or.inr ⟨_, _, he, rfl⟩⟩

end Keeps

/-! ### The changes a command's body can make -/

/-- Every change that a sub-step of a command can make keeps `P`: the stream, the sequencer and the counters, one symbol's
update of the tree, one insertion into a chain, and InitState's fresh tree and heads. -/
structure KeptByMoves (P : State → Prop) : Prop where
  /-- The streams (R140, R143), MODE (R230, R257), the counters (R48, R49), the sequencer (R36) and the path stack (R51). -/
  scratch : ∀ (s : State) (outMem : Memory) (outBitpos inBitpos : Word) (mode : Mode) (symcount bytesRead : Word)
    (seq : Seq) (pathStack : List Bool), P s → P { s with
      outMem := outMem, outBitpos := outBitpos, inBitpos := inBitpos, mode := mode, symcount := symcount,
      bytesRead := bytesRead, seq := seq, pathStack := pathStack }
  /-- `Update(code)` (R176). -/
  update : ∀ (s : State) (code : Nat), code ≤ Config.maxChar → P s →
    P { s with nodes := s.nodes.update code, symcount := s.symcount + 1 }
  /-- `Insert(p)` of a position with a key (R214). -/
  link : ∀ (s : State) (p : Nat), P s → P (linkPosition s p)
  /-- InitState (R321). -/
  initState : ∀ s : State, P s → P s.initState

section Walk

variable {P : State → Prop} (hP : KeptByMoves P) {s : State}
include hP

/-! ### The bit writer and reader, and symbols -/

theorem putBits_keeps (vs : List Bool) (h : P s) : (putBits vs s).Keeps P := by
  rcases putBits_cases vs s with ⟨m, b, he⟩ | ⟨m, b, he⟩
  · rw [he]
    exact .ok (hP.scratch _ _ _ _ _ _ _ _ _ h)
  · rw [he]
    exact .abort (by decide) (hP.scratch _ _ _ _ _ _ _ _ _ h)

theorem putField_keeps (v : Word) (w : Nat) (h : P s) : (putField v w s).Keeps P := putBits_keeps hP _ h

theorem flush_keeps (h : P s) : (flush s).Keeps P :=
  (putBits_keeps hP _ h).bind fun _ _ h1 => .ok h1

theorem getField_keeps (w : Nat) (h : P s) : (getField w s).Keeps P := by
  rcases getField_cases w s with ⟨v, b, he⟩ | ⟨b, he⟩
  · rw [he]
    exact .ok (hP.scratch _ _ _ _ _ _ _ _ _ h)
  · rw [he]
    exact .abort (by decide) (hP.scratch _ _ _ _ _ _ _ _ _ h)

theorem updateModel_keeps (code : Nat) (h : P s) : (updateModel code s).Keeps P := by
  rcases updateModel_cases code s with ⟨hc, he⟩ | ⟨_, he⟩
  · rw [he]
    exact .ok (hP.update s code hc h)
  · rw [he]
    exact .abort (by decide) h

theorem encodeSym_keeps (code : Nat) (h : P s) : (encodeSym code s).Keeps P := by
  unfold encodeSym
  refine (putBits_keeps hP _ (hP.scratch _ _ _ _ _ _ _ _ _ h)).bind fun _ s1 h1 => ?_
  refine (updateModel_keeps hP code ?_).bind fun _ _ h2 => .ok h2
  exact hP.scratch _ _ _ _ _ _ _ _ _ h1

theorem decodeSym_keeps (h : P s) : (decodeSym s).Keeps P := by
  rcases decodeSym_cases s with ⟨code, n, b, hc, he⟩ | ⟨e, i, b, hname, he⟩
  · rw [he]
    exact .ok (hP.update { s with inBitpos := b } code hc (hP.scratch _ _ _ _ _ _ _ _ _ h))
  · rw [he]
    refine .abort ?_ (hP.scratch _ _ _ _ _ _ _ _ _ h)
    rcases hname with rfl | rfl | rfl <;> decide

/-! ### COMPRESS -/

theorem readAhead_keeps (p : Nat) (h : P s) : P (readAhead p s) := by
  obtain ⟨b, d, he⟩ := readAhead_cases p s
  rw [he]
  exact hP.scratch _ _ _ _ _ _ _ _ _ h

theorem insertPosition_keeps (p : Nat) (h : P s) : P (insertPosition s p).2 := by
  rcases insertPosition_cases s p with ⟨_, he, _⟩ | ⟨_, he⟩
  · rw [he]
    exact hP.link s p h
  · rw [he]
    exact h

theorem setSeq_keeps (q : Seq) (h : P s) : P { s with seq := q } := hP.scratch _ _ _ _ _ _ _ _ _ h

theorem emitCopy_keeps (len dist : Nat) (h : P s) : (emitCopy len dist s).Keeps P := by
  unfold emitCopy
  exact (encodeSym_keeps hP _ h).bind fun _ _ h1 => putField_keeps hP _ _ h1

theorem decideStep_keeps (p : Word) (h : P s) : (decideStep p s).Keeps P := by
  have hinserted := insertPosition_keeps hP p.toNat h
  unfold decideStep
  refine .ite ?_ ?_
  · exact (emitCopy_keeps hP _ _ hinserted).bind fun _ _ h2 => .ok (setSeq_keeps hP _ h2)
  · refine (encodeSym_keeps hP _ hinserted).bind fun _ _ h2 => .ok (setSeq_keeps hP _ ?_)
    exact readAhead_keeps hP _ h2

theorem copyStep_keeps (p len dist rest : Word) (h : P s) : P (copyStep p len dist rest s) := by
  have hread := readAhead_keeps hP (p.toNat + 1) h
  unfold copyStep
  dsimp only
  split
  · exact setSeq_keeps hP _ hread
  · exact setSeq_keeps hP _ (insertPosition_keeps hP _ hread)

theorem fillLookahead_keeps (h : P s) : P (fillLookahead s) :=
  hP.scratch _ _ _ _ _ _ _ _ _ (readAhead_keeps hP 0 h)

theorem flushStream_keeps (h : P s) : (flushStream s).Keeps P := by
  refine (encodeSym_keeps hP _ h).bind fun _ _ h1 => ?_
  exact (flush_keeps hP h1).bind fun _ _ h2 => .ok h2

theorem compressStep_keeps (h : P s) : (compressStep s).Keeps P := by
  unfold compressStep
  cases s.seq with
  | fill => exact .ok (setSeq_keeps hP _ (fillLookahead_keeps hP h))
  | decide p => exact .ite (decideStep_keeps hP p h) (.ok (setSeq_keeps hP _ h))
  | copy p len dist rest => exact .ok (copyStep_keeps hP p len dist rest h)
  | flush => exact (flushStream_keeps hP h).bind fun _ _ h1 => .ok (setSeq_keeps hP _ h1)
  | _ => exact .ok h

theorem compressLoop_keeps (n : Nat) (h : P s) : (compressLoop n s).Keeps P := by
  induction n generalizing s with
  | zero => exact .ok h
  | succ n ih => exact .ite (.ok h) ((compressStep_keeps hP h).bind fun _ _ h1 => ih h1)

theorem runCompress_keeps (h : P s) : (runCompress s).Keeps P :=
  (compressLoop_keeps hP _ h).bind fun _ _ h1 => .ok h1

/-! ### DECOMPRESS -/

theorem copyBytes_keeps (n : Nat) (r : Backref) (h : P s) : (copyBytes n r s).Keeps P := by
  induction n generalizing r s with
  | zero => exact .ok h
  | succ n ih => exact (putBits_keeps hP _ h).bind fun _ _ h1 => ih _ (setSeq_keeps hP _ h1)

theorem copyBackrefStep_keeps (r : Backref) (h : P s) : (copyBackrefStep r s).Keeps P := by
  unfold copyBackrefStep
  refine (getField_keeps hP _ h).bind fun _ s1 h1 => ?_
  refine (require_keeps _ (by decide) _ h1).bind fun _ s2 h2 => ?_
  refine (require_keeps _ (by decide) _ h2).bind fun _ s3 h3 => ?_
  refine (copyBytes_keeps hP _ _ (setSeq_keeps hP _ h3)).bind fun _ _ h4 => ?_
  exact .ok (setSeq_keeps hP _ h4)

theorem decompressStep_keeps (h : P s) : (decompressStep s).Keeps P := by
  unfold decompressStep
  cases s.seq with
  | decodeCode => exact (decodeSym_keeps hP h).bind fun _ _ h1 => .ok (setSeq_keeps hP _ h1)
  | emitLiteral code => exact (putBits_keeps hP _ h).bind fun _ _ h1 => .ok (setSeq_keeps hP _ h1)
  | copyBackref r => exact copyBackrefStep_keeps hP r h
  | _ => exact .ok h

theorem decompressLoop_keeps (n : Nat) (h : P s) : (decompressLoop n s).Keeps P := by
  induction n generalizing s with
  | zero => exact .ok h
  | succ n ih => exact .ite (.ok h) ((decompressStep_keeps hP h).bind fun _ _ h1 => ih h1)

theorem runDecompress_keeps (h : P s) : (runDecompress s).Keeps P :=
  (decompressLoop_keeps hP _ h).bind fun _ _ h1 => .ok h1

/-! ### The commands and the engine's turn -/

/-- Every command is the ending of a body that keeps `P` and that aborts with an error. -/
theorem exec_body_keeps (i : Instr) (h : P s) : ∃ r, exec i s = finish r ∧ r.Keeps P := by
  cases i with
  | nop => exact ⟨_, rfl, .ok h⟩
  | init => exact ⟨_, rfl, .ok (hP.initState s h)⟩
  | compress =>
    refine ⟨_, rfl, (require_keeps _ (by decide) _ h).bind fun _ s1 h1 => ?_⟩
    exact runCompress_keeps hP (setSeq_keeps hP _ (hP.initState _ h1))
  | decompress =>
    refine ⟨_, rfl, (require_keeps _ (by decide) _ h).bind fun _ s1 h1 => ?_⟩
    exact runDecompress_keeps hP (setSeq_keeps hP _ (hP.initState _ h1))
  | mupd =>
    refine ⟨_, rfl, (require_keeps _ (by decide) _ h).bind fun _ s1 h1 => ?_⟩
    exact (updateModel_keeps hP _ h1).bind fun _ _ h2 => .ok h2
  | henc =>
    refine ⟨_, rfl, (require_keeps _ (by decide) _ h).bind fun _ s1 h1 => ?_⟩
    exact (encodeSym_keeps hP _ h1).bind fun _ _ h2 => .ok h2
  | hdec =>
    refine ⟨_, rfl, (require_keeps _ (by decide) _ h).bind fun _ s1 h1 => ?_⟩
    exact (decodeSym_keeps hP h1).bind fun _ _ h2 => .ok h2
  | putf =>
    refine ⟨_, rfl, (require_keeps _ (by decide) _ h).bind fun _ s1 h1 => ?_⟩
    exact (putField_keeps hP _ _ h1).bind fun _ _ h2 => .ok h2
  | getf =>
    refine ⟨_, rfl, (require_keeps _ (by decide) _ h).bind fun _ s1 h1 => ?_⟩
    refine (require_keeps _ (by decide) _ h1).bind fun _ s2 h2 => ?_
    exact (getField_keeps hP _ h2).bind fun _ _ h3 => .ok h3
  | flsh => exact ⟨_, rfl, (flush_keeps hP h).bind fun _ _ h1 => .ok h1⟩
  | hins =>
    refine ⟨_, rfl, (require_keeps _ (by decide) _ h).bind fun _ s1 h1 => ?_⟩
    refine (require_keeps _ (by decide) _ h1).bind fun _ s2 h2 => ?_
    exact .ok (insertPosition_keeps hP _ h2)
  | fmat =>
    refine ⟨_, rfl, (require_keeps _ (by decide) _ h).bind fun _ s1 h1 => ?_⟩
    exact (require_keeps _ (by decide) _ h1).bind fun _ _ h2 => .ok h2
  | mscan =>
    refine ⟨_, rfl, (require_keeps _ (by decide) _ h).bind fun _ s1 h1 => ?_⟩
    exact .ok (hP.scratch _ _ _ _ _ _ _ _ _ h1)
  | nread | rfnd | rrd =>
    exact ⟨_, rfl, (require_keeps _ (by decide) _ h).bind fun _ _ h1 => .ok h1⟩

/-- The engine's turn: an idle engine stays as it is; else a body that keeps `P` ends, an illegal word's abort and a state
inside COMPRESS or DECOMPRESS included (R116, R382). -/
theorem engineStep_keeps (h : P s) :
    (s.seq = .idle ∧ engineStep s = .next s) ∨ (s.seq ≠ .idle ∧ ∃ r, engineStep s = finish r ∧ r.Keeps P) := by
  rcases engineStep_cases s with hidle | ⟨w, i, hseq, _, he⟩ | ⟨w, e, hseq, _, he⟩ | ⟨hidle, hrun, _⟩
  · exact Or.inl hidle
  · rw [he, hseq]
    exact Or.inr ⟨by simp, exec_body_keeps hP i h⟩
  · rw [he, hseq]
    exact Or.inr ⟨by simp, .abort .illegalCommand w s, rfl, .abort (by decide) h⟩
  · refine Or.inr ⟨hidle, ?_⟩
    unfold engineStep
    cases hseq : s.seq with
    | idle => exact absurd hseq hidle
    | run w => exact absurd hseq (hrun w)
    | fill | decide | copy | flush | compressDone => exact ⟨_, rfl, runCompress_keeps hP h⟩
    | decodeCode | emitLiteral | copyBackref | decompressDone => exact ⟨_, rfl, runDecompress_keeps hP h⟩

end Walk

/-! ### What a step can be -/

section Inversion

variable {s t : State}

/-- An event that is a step: the engine's turn, a reset, a read, a register write, or a write of a memory byte. An ignored
write reads as one that leaves what the host has read. -/
theorem takeEvent_inversion {e : Event} (ht : takeEvent e s = .next t) :
    engineStep s = .next t ∨ t = s.hardwareReset ∨ (∃ v k, t = { s with readData := v, freeCount := k })
      ∨ (∃ offset v, t = s.hostWriteOffset offset v) ∨ (∃ a b, t = s.setInByte a b) ∨ ∃ a b, t = s.setOutByte a b := by
  cases e with
  | engine => exact Or.inl ht
  | reset =>
    cases ht
    exact Or.inr (Or.inl rfl)
  | busRead addr size => exact Or.inr (Or.inr (Or.inl (hostBusRead_next ht)))
  | busWrite addr size v =>
    rcases hostBusWrite_next ht with h | ⟨offset, h⟩
    · exact Or.inr (Or.inr (Or.inl ⟨s.readData, s.freeCount, h⟩))
    · exact Or.inr (Or.inr (Or.inr (Or.inl ⟨offset, v, h⟩)))
  | inRead a => exact Or.inr (Or.inr (Or.inl (hostInRead_next ht)))
  | inWrite a b => exact Or.inr (Or.inr (Or.inr (Or.inr (Or.inl ⟨a, b, hostInWrite_next ht⟩))))
  | outRead a => exact Or.inr (Or.inr (Or.inl (hostOutRead_next ht)))
  | outWrite a b => exact Or.inr (Or.inr (Or.inr (Or.inr (Or.inr ⟨a, b, hostOutWrite_next ht⟩))))

/-- A step, with the event it takes off the agenda (R382). -/
theorem step_inversion (ht : step s = .next t) : ∃ u : State, (∃ rest, u = { s with agenda := rest })
    ∧ (engineStep u = .next t ∨ t = u.hardwareReset ∨ (∃ v k, t = { u with readData := v, freeCount := k })
      ∨ (∃ offset v, t = u.hostWriteOffset offset v) ∨ (∃ a b, t = u.setInByte a b) ∨ ∃ a b, t = u.setOutByte a b) := by
  rcases step_cases s with ⟨_, he⟩ | ⟨e, rest, _, he⟩
  · exact ⟨s, ⟨s.agenda, rfl⟩, Or.inl (he.symm.trans ht)⟩
  · exact ⟨_, ⟨rest, rfl⟩, takeEvent_inversion (he.symm.trans ht)⟩

end Inversion

end Sys2Proof.Machine
end

section
/-! PROOFS. How a command ends: what an abort and a completion leave (60_exceptions R340), the host's state, which no command
changes (10_state R34 to R37), and the consistency of the sequencer, BUSY and the report (10_state R36, R51). -/

namespace Sys2Proof.Machine

/-! ### What a command's body leaves -/

/-- `t` agrees with `s` on everything that a command's body leaves alone: the platform and the host's registers and memory
(R37, R80), STATUS, the results and the report, which only a command's end writes (R34, R35), and the model's own fields. -/
def BodyFrame (s t : State) : Prop :=
  t.cfg = s.cfg ∧ t.ctrl = s.ctrl ∧ t.status = s.status ∧ t.arg0 = s.arg0 ∧ t.arg1 = s.arg1 ∧ t.res0 = s.res0
    ∧ t.res1 = s.res1 ∧ t.inLen = s.inLen ∧ t.errinfo = s.errinfo ∧ t.inMem = s.inMem ∧ t.agenda = s.agenda
    ∧ t.readData = s.readData ∧ t.freeCount = s.freeCount

theorem BodyFrame.refl (s : State) : BodyFrame s s :=
  ⟨rfl, rfl, rfl, rfl, rfl, rfl, rfl, rfl, rfl, rfl, rfl, rfl, rfl⟩

theorem BodyFrame.keptByMoves (s : State) : KeptByMoves (BodyFrame s) where
  scratch _ _ _ _ _ _ _ _ _ h := h
  update _ _ _ h := h
  link _ _ h := h
  initState _ h := h

/-- A command completes or aborts, with an error, from a state that its body's frame ties to the one it started in. -/
theorem exec_ending {i : Instr} {s t : State} (ht : exec i s = .next t) :
    ∃ u, BodyFrame s u ∧ ((∃ x, t = u.complete x) ∨ ∃ e info, e ≠ .none ∧ t = u.raise e info) := by
  obtain ⟨r, he, hr⟩ := exec_body_keeps (BodyFrame.keptByMoves s) i (BodyFrame.refl s)
  exact finish_keeps hr (he.symm.trans ht)

/-- Settles O40, by the two ways a command ends: only an abort sets ERR, and only a completion writes a result. -/
theorem abortKeepsResults : Obligations.AbortKeepsResults := by
  unfold Obligations.AbortKeepsResults
  intro i s t herr ht
  obtain ⟨u, ⟨-, -, hstatus, -, -, hres0, hres1, -, hinfo, -⟩, ⟨x, rfl⟩ | ⟨e, info, hname, rfl⟩⟩ := exec_ending ht
  · simp [hstatus, herr, hinfo]
  · simp [hres0, hres1, hname]

/-- Settles O41: the body leaves the host's state alone, and neither ending writes any of it. -/
theorem commandsKeepHostState : Obligations.CommandsKeepHostState := by
  unfold Obligations.CommandsKeepHostState
  intro i s t ht
  obtain ⟨u, ⟨hcfg, hctrl, hstatus, harg0, harg1, -, -, hlen, -, hmem, hagenda, hread, hfree⟩,
    ⟨x, rfl⟩ | ⟨e, info, -, rfl⟩⟩ := exec_ending ht
  all_goals exact ⟨hcfg, hctrl, harg0, harg1, hlen, hmem, (congrArg Status.bwi hstatus :), hagenda, hread, hfree⟩

/-! ### The sequencer, BUSY and the report -/

section Control

variable {s t : State}

/-- Only the sequencer, STATUS, ERRINFO and the path stack matter. -/
theorem ControlConsistent.frame (hs : ControlConsistent s) (hseq : t.seq = s.seq) (hstatus : t.status = s.status)
    (hinfo : t.errinfo = s.errinfo) (hpath : t.pathStack = s.pathStack) : ControlConsistent t := by
  unfold ControlConsistent
  rw [hseq, hstatus, hinfo, hpath]
  exact hs

/-- A change of DONE and BWI keeps the invariant, if a busy engine gets no DONE (R34, R385). -/
theorem ControlConsistent.setFlags (hs : ControlConsistent s) (done bwi : Bool)
    (hdone : s.status.busy = true → done = false) :
    ControlConsistent { s with status := { s.status with done := done, bwi := bwi } } := by
  obtain ⟨hseq, hbusy, hreport, herr, hinfo, hpath⟩ := hs
  exact ⟨hseq, hbusy, fun h => ⟨hdone h, (hreport h).2⟩, herr, hinfo, hpath⟩

/-- The start actions: RUN, BUSY, and no report (R113). -/
theorem ControlConsistent.startCommand (hs : ControlConsistent s) (w : Word) : ControlConsistent (s.startCommand w) := by
  obtain ⟨-, -, -, -, -, hpath⟩ := hs
  exact ⟨Or.inr ⟨w, rfl⟩, by simp, by simp, by simp, by simp, hpath⟩

/-- A completion: IDLE, and the report as it was (R114). -/
theorem ControlConsistent.complete {u : State} (hs : ControlConsistent s) (hu : BodyFrame s u) (x : Results) :
    ControlConsistent (u.complete x) := by
  obtain ⟨-, -, -, herr, hinfo, -⟩ := hs
  obtain ⟨-, -, hstatus, -, -, -, -, -, hkept, -⟩ := hu
  refine ⟨Or.inl rfl, by simp, by simp, ?_, ?_, rfl⟩
  · simpa [hstatus] using herr
  · simpa [hstatus, hkept] using hinfo

/-- An abort: IDLE, and ERR with its code (R340). -/
theorem controlConsistent_raise (u : State) {e : ErrCode} (info : Word) (he : e ≠ .none) :
    ControlConsistent (u.raise e info) :=
  ⟨Or.inl rfl, by simp, by simp, by simp [he], by simp, rfl⟩

theorem engineStep_controlConsistent (hs : ControlConsistent s) (ht : engineStep s = .next t) : ControlConsistent t := by
  rcases engineStep_keeps (BodyFrame.keptByMoves s) (BodyFrame.refl s) with ⟨_, he⟩ | ⟨_, r, he, hr⟩
  · cases he.symm.trans ht
    exact hs
  · obtain ⟨u, hu, ⟨x, rfl⟩ | ⟨e, info, hname, rfl⟩⟩ := finish_keeps hr (he.symm.trans ht)
    · exact hs.complete hu x
    · exact controlConsistent_raise u info hname

/-- An idle register write: CMD starts a command, STATUS can only clear DONE and BWI, the others are not control (R30). -/
theorem ControlConsistent.writeReg (hs : ControlConsistent s) (hidle : s.status.busy = false) (r : Reg) (v : Word) :
    ControlConsistent (s.writeReg r v) := by
  cases r with
  | cmd => exact hs.startCommand v
  | status => exact hs.setFlags _ _ (by simp [hidle])
  | _ => exact hs.frame rfl rfl rfl rfl

theorem ControlConsistent.hostWriteOffset (hs : ControlConsistent s) (offset : Nat) (v : Word) :
    ControlConsistent (s.hostWriteOffset offset v) := by
  unfold State.hostWriteOffset
  split
  · obtain ⟨-, -, hreport, -⟩ := id hs
    exact hs.setFlags _ _ fun h => (hreport h).1
  · rename_i hidle
    split
    · exact hs.writeReg (Bool.eq_false_iff.2 hidle) _ v
    · exact hs

theorem controlConsistent_hardwareReset (s : State) : ControlConsistent s.hardwareReset := by
  simp [ControlConsistent, State.hardwareReset, State.resetOn]

end Control

/-- Settles O52, by what a step can be: the engine's turn, a reset or a register write; the other host steps touch nothing
that the invariant speaks of. -/
theorem controlConsistentKept : Obligations.ControlConsistentKept := by
  unfold Obligations.ControlConsistentKept
  intro s t hs ht
  obtain ⟨u, ⟨rest, rfl⟩, hstep⟩ := step_inversion ht
  have hu : ControlConsistent { s with agenda := rest } := hs
  rcases hstep with he | rfl | ⟨v, k, rfl⟩ | ⟨offset, v, rfl⟩ | ⟨a, b, rfl⟩ | ⟨a, b, rfl⟩
  · exact engineStep_controlConsistent hu he
  · exact controlConsistent_hardwareReset _
  · exact hs
  · exact hu.hostWriteOffset offset v
  · exact hs
  · exact hs

end Sys2Proof.Machine
end

section
/-! PROOFS. Invariants of the tables, the node arena, the heads and the `next` links, carried over a step; and the links that
a chain can reach (10_state R44, 42_match R214, R221). -/

namespace Sys2Proof.Machine

/-! ### Invariants of the tables -/

/-- `P` speaks of the node arena, the head table and the `next` links alone. -/
def OfTables (P : State → Prop) : Prop :=
  ∀ s t : State, t.nodes = s.nodes → t.head = s.head → t.next = s.next → P s → P t

section Tables

variable {P : State → Prop} {s t : State}

/-- For an invariant of the tables, the moves that count are the update, the insertion and InitState. -/
theorem OfTables.keptByMoves (hT : OfTables P)
    (update : ∀ (s : State) (code : Nat), code ≤ Config.maxChar → P s → P { s with nodes := s.nodes.update code })
    (link : ∀ (s : State) (p : Nat), P s → P (linkPosition s p))
    (clear : ∀ s : State, P s → P { s with nodes := [], head := [] }) : KeptByMoves P where
  scratch s _ _ _ _ _ _ _ _ h := hT s _ rfl rfl rfl h
  update s code hc h := hT { s with nodes := s.nodes.update code } _ rfl rfl rfl (update s code hc h)
  link := link
  initState s h := hT { s with nodes := [], head := [] } _ rfl rfl rfl (clear s h)

theorem engineStep_keeps_tables (hP : KeptByMoves P) (hT : OfTables P) (hs : P s) (ht : engineStep s = .next t) :
    P t := by
  rcases engineStep_keeps hP hs with ⟨_, he⟩ | ⟨_, r, he, hr⟩
  · cases he.symm.trans ht
    exact hs
  · obtain ⟨u, hu, ⟨x, rfl⟩ | ⟨e, info, _, rfl⟩⟩ := finish_keeps hr (he.symm.trans ht)
    · exact hT u _ rfl rfl rfl hu
    · exact hT u _ rfl rfl rfl hu

/-- No register write touches a table (R30). -/
theorem State.hostWriteOffset_tables (s : State) (offset : Nat) (v : Word) :
    (s.hostWriteOffset offset v).nodes = s.nodes ∧ (s.hostWriteOffset offset v).head = s.head
      ∧ (s.hostWriteOffset offset v).next = s.next := by
  unfold State.hostWriteOffset
  split
  · exact ⟨rfl, rfl, rfl⟩
  · split
    · rename_i r _
      cases r <;> exact ⟨rfl, rfl, rfl⟩
    · exact ⟨rfl, rfl, rfl⟩

/-- An invariant of the tables that the commands' moves keep is kept by every step; a reset's tables are InitState's
(R321, R370). -/
theorem step_keeps_tables (hP : KeptByMoves P) (hT : OfTables P) (hs : P s) (ht : step s = .next t) : P t := by
  obtain ⟨u, ⟨rest, rfl⟩, hstep⟩ := step_inversion ht
  rcases hstep with he | rfl | ⟨v, k, rfl⟩ | ⟨offset, v, rfl⟩ | ⟨a, b, rfl⟩ | ⟨a, b, rfl⟩
  · exact engineStep_keeps_tables hP hT (hT s { s with agenda := rest } rfl rfl rfl hs) he
  · exact hT s.initState _ rfl rfl rfl (hP.initState s hs)
  · exact hT s _ rfl rfl rfl hs
  · obtain ⟨hnodes, hhead, hnext⟩ := State.hostWriteOffset_tables { s with agenda := rest } offset v
    exact hT s _ hnodes hhead hnext hs
  · exact hT s _ rfl rfl rfl hs
  · exact hT s _ rfl rfl rfl hs

end Tables

/-! ### The links that a chain can reach -/

/-- Only the heads and the `next` links matter. -/
theorem LinksWritten.frame {s t : State} (h : LinksWritten s) (hhead : t.head = s.head) (hnext : t.next = s.next) :
    LinksWritten t := by
  unfold LinksWritten State.headAt at h ⊢
  rw [hhead, hnext]
  exact h

theorem linksWritten_ofTables : OfTables LinksWritten := fun _ _ _ hhead hnext h => h.frame hhead hnext

/-- Which `next` links are written after an insertion: the new position's, with the old head, and those written before
(R214). -/
theorem linkPosition_find (s : State) (p a : Nat) :
    sparseFind (linkPosition s p).next a
      = if (BitVec.ofNat 32 p : Word).toNat = a then some (s.headAt (hashKey s p)) else sparseFind s.next a := by
  unfold linkPosition
  dsimp only
  split
  · rename_i h
    subst h
    exact sparseFind_list_same _ _ _
  · rename_i h
    exact sparseFind_list_other _ _ h

/-- A written link stays written. -/
theorem linkPosition_find_ne_none (s : State) (p : Nat) {a : Nat} (h : sparseFind s.next a ≠ none) :
    sparseFind (linkPosition s p).next a ≠ none := by
  rw [linkPosition_find]
  split
  · simp
  · exact h

/-- The new head's link is written by its insertion; it leads to the old head, whose link was written (R214). -/
theorem LinksWritten.linkPosition {s : State} (p : Nat) (h : LinksWritten s) : LinksWritten (linkPosition s p) := by
  obtain ⟨hheads, hlinks⟩ := h
  constructor
  · intro k c hc
    rw [linkPosition_head] at hc
    split at hc
    · cases hc
      simp [linkPosition_find]
    · exact linkPosition_find_ne_none s p (hheads k c hc)
  · intro a c hc
    rw [linkPosition_find] at hc
    refine linkPosition_find_ne_none s p ?_
    split at hc
    · exact hheads _ c (Option.some.inj hc)
    · exact hlinks a c hc

/-- With every head NONE only the written links count. -/
theorem LinksWritten.clear {s : State} (h : LinksWritten s) : LinksWritten { s with nodes := [], head := [] } := by
  obtain ⟨-, hlinks⟩ := h
  refine ⟨fun k c hc => ?_, hlinks⟩
  simp [State.headAt] at hc

/-- Settles O56: of a command's moves only an insertion writes a link, and it writes the one of the position it makes a
head. -/
theorem linksWrittenKept : Obligations.LinksWrittenKept := by
  unfold Obligations.LinksWrittenKept
  intro s t hs ht
  have hmoves : KeptByMoves LinksWritten :=
    linksWritten_ofTables.keptByMoves (fun _ _ _ h => h.frame rfl rfl)
      (fun _ p h => h.linkPosition p) (fun _ h => h.clear)
  exact step_keeps_tables hmoves linksWritten_ofTables hs ht

end Sys2Proof.Machine
end

section
/-! PROOFS. The register block as the host sees it (10_state R30 to R39, R46 to R49; 60_exceptions R350; 20_memory R86), and
the host steps that are no step (70_reset R386). -/

namespace Sys2Proof.Machine

/-! ### What a register reads as, and what STATUS takes -/

/-- R34 with R341's numbers: STATUS as a sum of its fields. -/
theorem Status.word_eq (t : Status) : t.word = BitVec.ofNat 32 (t.busy.toNat + 2 * t.done.toNat + 4 * t.err.toNat
    + 8 * t.bwi.toNat + 256 * errorNumber t.errcode) := by
  obtain ⟨busy, done, err, bwi, errcode⟩ := t
  cases errcode <;> revert busy done err bwi <;> decide

/-- R46: MODE as a sum of its fields. -/
theorem Mode.word_eq (m : Mode) : m.word = BitVec.ofNat 32 (m.bin.toNat + 2 * m.dict.toNat) := by
  obtain ⟨bin, dict⟩ := m
  revert bin dict
  decide

/-- R34: a written 1 clears DONE or BWI. -/
theorem Status.clearWritten_eq (t : Status) (v : Word) : t.clearWritten v = { t with
    done := if v.getLsbD 1 then false else t.done
    bwi := if v.getLsbD 3 then false else t.bwi } := by
  unfold Status.clearWritten
  cases v.getLsbD 1 <;> cases v.getLsbD 3 <;> simp

/-- Each register reads as the rules say (R31 to R39, R46 to R49). -/
theorem readReg_eq_registerValue (s : State) (r : Reg) : s.readReg r = registerValue s r := by
  cases r with
  | ctrl => exact BitVec.shiftLeft_zero _
  | status => exact s.status.word_eq
  | mode => exact s.mode.word_eq
  | _ => rfl

/-- The value of a register does not depend on the agenda. -/
theorem registerValue_agenda (s : State) (rest : List Event) (r : Reg) :
    registerValue { s with agenda := rest } r = registerValue s r := by
  cases r <;> rfl

/-! ### An aligned access of a register of the table -/

/-- The window's offset of an address given by its offset (R30). -/
theorem windowOffset_base_add (c : Config.Platform) {offset : Nat} (h : offset < 256) :
    windowOffset c (c.engineBase + offset) = some offset := by
  unfold windowOffset
  rw [if_pos (by omega)]
  simp

/-- The table of R30 lists word-aligned offsets of the window, each with its register. -/
theorem registerTable_offsets : ∀ p ∈ registerTable, p.1 < 256 ∧ p.1 % 4 = 0 ∧ regAt p.1 = some p.2 := by
  decide

theorem cmd_mem_registerTable : (0x08, Reg.cmd) ∈ registerTable := by decide

section Access

variable {s : State} {rest : List Event} {p : Nat × Reg}

/-- An aligned read of a register that is not left open returns its value and changes nothing else (R90, R384). -/
theorem step_busRead (hp : p ∈ registerTable) (h : s.agenda = .busRead (s.cfg.engineBase + p.1) 4 :: rest)
    (hclosed : s.status.busy = false ∨ p.2.openWhileBusy = false) :
    step s = .next { s with agenda := rest, readData := registerValue s p.2 } := by
  obtain ⟨hwindow, haligned, hreg⟩ := registerTable_offsets p hp
  have hread : step s = .next ({ s with agenda := rest }.hostReadReg p.2) := by
    simp [step, h, takeEvent, hostBusRead, windowOffset_base_add s.cfg hwindow, alignedWord, haligned, hreg]
  rw [hread, State.hostReadReg, if_neg (by rcases hclosed with h | h <;> simp [h]), readReg_eq_registerValue,
    registerValue_agenda]
  rfl

/-- An aligned write of a register: it sets BWI alone while BUSY, and reaches the register while idle (R30, R385). -/
theorem step_busWrite {v : Word} (hp : p ∈ registerTable)
    (h : s.agenda = .busWrite (s.cfg.engineBase + p.1) 4 v :: rest) :
    step s = .next (if s.status.busy then { s with agenda := rest, status := { s.status with bwi := true } }
      else { s with agenda := rest }.writeReg p.2 v) := by
  obtain ⟨hwindow, haligned, hreg⟩ := registerTable_offsets p hp
  simp [step, h, takeEvent, hostBusWrite, windowOffset_base_add s.cfg hwindow, alignedWord, haligned,
    State.hostWriteOffset, hreg]

end Access

/-- Settles O5: the write reaches CMD while idle and only sets BWI while BUSY; CMD's read is open in neither. -/
theorem cmdRegisterStartsCommands : Obligations.CmdRegisterStartsCommands := by
  unfold Obligations.CmdRegisterStartsCommands
  intro s rest v
  refine ⟨fun h => ⟨fun hidle => ?_, fun hbusy => ?_⟩, fun h => step_busRead cmd_mem_registerTable h (Or.inr rfl)⟩
  · refine ⟨_, step_busWrite cmd_mem_registerTable h, ?_⟩
    rw [if_neg (by simp [hidle])]
    exact ⟨rfl, Bool.and_false _⟩
  · refine ⟨_, step_busWrite cmd_mem_registerTable h, ?_⟩
    rw [if_pos hbusy]
    exact ⟨rfl, rfl⟩

/-- Settles O45, register by register: the write reaches the register of its offset, and IRQ follows CTRL and DONE. -/
theorem idleRegisterWrites : Obligations.IdleRegisterWrites := by
  unfold Obligations.IdleRegisterWrites
  intro s rest v hidle p hp h
  refine ⟨_, step_busWrite hp h, ?_⟩
  rw [if_neg (by simp [hidle])]
  obtain ⟨offset, r⟩ := p
  cases r with
  | cmd => exact ⟨rfl, Bool.and_false _⟩
  | status =>
    dsimp only [State.writeReg, State.irq]
    rw [Status.clearWritten_eq]
    cases v.getLsbD 1 with
    | false => exact ⟨rfl, rfl⟩
    | true => exact ⟨rfl, Bool.and_false _⟩
  | _ => exact ⟨rfl, rfl⟩

/-- Settles O46: an idle read is never left open. -/
theorem registerReads : Obligations.RegisterReads := by
  unfold Obligations.RegisterReads
  exact fun s rest hidle p hp h => step_busRead hp h (Or.inl hidle)

/-- Settles O9: the tables of the state after reset are empty, and an empty table reads as its defaults. -/
theorem resetRegisterValues : Obligations.ResetRegisterValues := by
  unfold Obligations.ResetRegisterValues
  refine ⟨by decide, rfl, rfl, rfl, fun k => ?_, fun key => ?_⟩
  · exact Arena.get_nil k
  · exact sparseGet_nil none key.toNat

/-! ### The host steps that are no step -/

section Events

variable {s : State}

theorem windowOffset_isSome_iff (c : Config.Platform) (addr : Nat) :
    (∃ offset, windowOffset c addr = some offset) ↔ c.engineBase ≤ addr ∧ addr < c.engineBase + 256 := by
  unfold windowOffset
  split <;> simp_all

theorem hostBusRead_isNext_iff (addr size : Nat) (s : State) :
    (∃ t, hostBusRead addr size s = .next t) ↔ s.cfg.engineBase ≤ addr ∧ addr < s.cfg.engineBase + 256 := by
  rw [← windowOffset_isSome_iff]
  unfold hostBusRead
  cases windowOffset s.cfg addr with
  | none => simp
  | some offset =>
    simp only [Option.some.injEq, exists_eq', iff_true]
    split
    · split <;> exact ⟨_, rfl⟩
    · exact ⟨_, rfl⟩

theorem hostBusWrite_isNext_iff (addr size : Nat) (v : Word) (s : State) :
    (∃ t, hostBusWrite addr size v s = .next t) ↔ s.cfg.engineBase ≤ addr ∧ addr < s.cfg.engineBase + 256 := by
  rw [← windowOffset_isSome_iff]
  unfold hostBusWrite
  cases windowOffset s.cfg addr with
  | none => simp
  | some offset =>
    simp only [Option.some.injEq, exists_eq', iff_true]
    split <;> exact ⟨_, rfl⟩

theorem hostInRead_isNext_iff (a : Nat) (s : State) : (∃ t, hostInRead a s = .next t) ↔ a < s.cfg.inMemBytes := by
  unfold hostInRead
  split <;> simp_all

theorem hostInWrite_isNext_iff (a : Nat) (b : Byte) (s : State) :
    (∃ t, hostInWrite a b s = .next t) ↔ a < s.cfg.inMemBytes ∧ s.status.busy = false := by
  unfold hostInWrite
  by_cases ha : a < s.cfg.inMemBytes
  · rw [if_neg (not_le.2 ha)]
    cases s.status.busy <;> simp [ha]
  · rw [if_pos (not_lt.1 ha)]
    simp [ha]

theorem hostOutRead_isNext_iff (a : Nat) (s : State) : (∃ t, hostOutRead a s = .next t) ↔ a < s.cfg.outMemBytes := by
  unfold hostOutRead
  by_cases ha : a < s.cfg.outMemBytes
  · rw [if_neg (not_le.2 ha)]
    cases s.status.busy <;> simp [ha]
  · rw [if_pos (not_lt.1 ha)]
    simp [ha]

theorem hostOutWrite_isNext_iff (a : Nat) (b : Byte) (s : State) :
    (∃ t, hostOutWrite a b s = .next t) ↔ a < s.cfg.outMemBytes ∧ s.status.busy = false := by
  unfold hostOutWrite
  by_cases ha : a < s.cfg.outMemBytes
  · rw [if_neg (not_le.2 ha)]
    cases s.status.busy <;> simp [ha]
  · rw [if_pos (not_lt.1 ha)]
    simp [ha]

/-- An event is a step exactly when the spec gives the host that move (R30, R80, R81, R386). -/
theorem takeEvent_isNext_iff (e : Event) (s : State) : (∃ t, takeEvent e s = .next t) ↔ eventAllowed s e := by
  cases e with
  | engine => exact iff_of_true (engineStep_next s) trivial
  | reset => exact iff_of_true ⟨_, rfl⟩ trivial
  | busRead addr size => exact hostBusRead_isNext_iff addr size s
  | busWrite addr size v => exact hostBusWrite_isNext_iff addr size v s
  | inRead a => exact hostInRead_isNext_iff a s
  | inWrite a b => exact hostInWrite_isNext_iff a b s
  | outRead a => exact hostOutRead_isNext_iff a s
  | outWrite a b => exact hostOutWrite_isNext_iff a b s

/-- A write of `IN` while BUSY is the fault of its own name (R386, log 9). -/
theorem hostInWrite_busy {a : Nat} (b : Byte) (ha : a < s.cfg.inMemBytes) (hbusy : s.status.busy = true) :
    hostInWrite a b s = .fault .memoryWriteWhileBusy := by
  unfold hostInWrite
  rw [if_neg (by omega), if_pos hbusy]

/-- A write of `OUT` while BUSY likewise (R98, R386). -/
theorem hostOutWrite_busy {a : Nat} (b : Byte) (ha : a < s.cfg.outMemBytes) (hbusy : s.status.busy = true) :
    hostOutWrite a b s = .fault .memoryWriteWhileBusy := by
  unfold hostOutWrite
  rw [if_neg (by omega), if_pos hbusy]

theorem step_of_agenda {e : Event} {rest : List Event} (h : s.agenda = e :: rest) :
    step s = takeEvent e { s with agenda := rest } := by
  simp [step, h]

end Events

/-- Settles O49, event by event: the engine's turn always ends in a state, and each host step is refused exactly where no
rule gives it a move. -/
theorem stopsExactlyOnForbiddenHostSteps : Obligations.StopsExactlyOnForbiddenHostSteps := by
  unfold Obligations.StopsExactlyOnForbiddenHostSteps
  refine ⟨fun s h => ?_, fun s e rest h => ?_, fun s rest a b hbusy => ⟨fun h ha => ?_, fun h ha => ?_⟩⟩
  · rw [step, h]
    exact engineStep_next s
  · rw [step_of_agenda h, takeEvent_isNext_iff]
    cases e <;> rfl
  · rw [step_of_agenda h]
    exact hostInWrite_busy b ha hbusy
  · rw [step_of_agenda h]
    exact hostOutWrite_busy b ha hbusy

end Sys2Proof.Machine
end

section
/-! PROOFS. The shape of the Huffman tree (10_state R41). A rank that falls towards the root says that every node reaches it,
and the number of internal nodes bounds the path; an exchange swaps two nodes' places in the links (41_huffman R175). -/

namespace Sys2Proof.Machine

/-! ### Node ids -/

theorem isInternal_root : isInternal Config.root := by
  unfold isInternal
  decide

theorem not_isBelowRoot_root : ¬ isBelowRoot Config.root := by
  unfold isBelowRoot
  decide

theorem isBelowRoot.ne_root {k : NodeId} (h : isBelowRoot k) : k ≠ Config.root := by
  rintro rfl
  exact not_isBelowRoot_root h

theorem isInternal.ne_nil {k : NodeId} (h : isInternal k) : k ≠ Config.nil := by
  rintro rfl
  exact absurd h.1 (by decide)

/-- An internal node is the root or a node below it. -/
theorem isInternal.belowRoot {k : NodeId} (h : isInternal k) (hr : k ≠ Config.root) : isBelowRoot k := by
  obtain ⟨h1, h2⟩ := h
  have hne : k.toNat ≠ 1 := fun e => hr (BitVec.eq_of_toNat_eq e)
  rw [maxChar_eq] at h2
  exact ⟨by omega, by rw [twiceMax_eq]; omega⟩

/-- The internal nodes are at most 628. -/
theorem card_internal_le {S : Finset NodeId} (h : ∀ k ∈ S, isInternal k) : S.card ≤ Config.maxChar := by
  have hmaps : ∀ k ∈ S, k.toNat ∈ Finset.Icc 1 Config.maxChar := fun k hk => Finset.mem_Icc.2 (h k hk)
  have hinj : Set.InjOn BitVec.toNat (S : Set NodeId) := fun _ _ _ _ e => BitVec.eq_of_toNat_eq e
  simpa using Finset.card_le_card_of_injOn BitVec.toNat hmaps hinj

/-! ### Depth: a rank that falls towards the root -/

/-- How many parent steps lead from a node to the root. -/
noncomputable def Arena.depth (m : Arena) (k : NodeId) : Nat := sInf { d | m.ancestor d k = Config.root }

section Depth

variable {m : Arena}

theorem TreeShape.depth_le (h : TreeShape m) {k : NodeId} (hk : isBelowRoot k) : m.depth k ≤ Config.maxChar := by
  obtain ⟨d, -, hd, hroot⟩ := h.reachesRoot k hk
  exact (Nat.sInf_le hroot).trans hd

/-- A node is one step further from the root than its parent. -/
theorem TreeShape.depth_eq (h : TreeShape m) {k : NodeId} (hk : isBelowRoot k) :
    m.depth k = m.depth (m.get k).parent + 1 := by
  obtain ⟨d, -, -, hd⟩ := h.reachesRoot k hk
  have hmem : m.ancestor (m.depth k) k = Config.root :=
    Nat.sInf_mem (s := { d | m.ancestor d k = Config.root }) ⟨d, hd⟩
  cases hdepth : m.depth k with
  | zero =>
    rw [hdepth] at hmem
    exact absurd hmem hk.ne_root
  | succ n =>
    rw [hdepth] at hmem
    have hle : m.depth (m.get k).parent ≤ n := Nat.sInf_le hmem
    have hparent : m.ancestor (m.depth (m.get k).parent) (m.get k).parent = Config.root :=
      Nat.sInf_mem (s := { d | m.ancestor d (m.get k).parent = Config.root }) ⟨n, hmem⟩
    have hge : m.depth k ≤ m.depth (m.get k).parent + 1 := Nat.sInf_le hparent
    omega

theorem TreeShape.depth_parent_lt (h : TreeShape m) {k : NodeId} (hk : isBelowRoot k) :
    m.depth (m.get k).parent < m.depth k := by
  rw [h.depth_eq hk]
  exact Nat.lt_succ_self _

/-- Where a rank falls at every step to the parent, the nodes on the way to the root are distinct internal nodes: the root
is reached, in at most 628 steps. -/
theorem reachesRoot_of_rank (rank : NodeId → Nat) (hp : ∀ k, isBelowRoot k → isInternal (m.get k).parent)
    (hrank : ∀ k, isBelowRoot k → rank (m.get k).parent < rank k) (k : NodeId) (hk : isBelowRoot k) :
    ∃ d, 1 ≤ d ∧ d ≤ Config.maxChar ∧ m.ancestor d k = Config.root := by
  have path : ∃ S : Finset NodeId, (∀ a ∈ S, isInternal a ∧ rank a < rank k) ∧ 1 ≤ S.card
      ∧ m.ancestor S.card k = Config.root := by
    induction hn : rank k using Nat.strong_induction_on generalizing k with
    | _ n ih =>
      subst hn
      have hparent := hp k hk
      have hlt := hrank k hk
      by_cases hroot : (m.get k).parent = Config.root
      · rw [hroot] at hparent hlt
        exact ⟨{Config.root}, by simp [hparent, hlt], by simp, by simpa [Arena.ancestor] using hroot⟩
      · obtain ⟨S, hS, -, hanc⟩ := ih _ hlt _ (hparent.belowRoot hroot) rfl
        have hnew : (m.get k).parent ∉ S := fun hmem => lt_irrefl _ (hS _ hmem).2
        refine ⟨insert (m.get k).parent S, ?_, by simp [Finset.card_insert_of_notMem hnew], ?_⟩
        · intro a ha
          rcases Finset.mem_insert.1 ha with rfl | ha
          · exact ⟨hparent, hlt⟩
          · exact ⟨(hS a ha).1, (hS a ha).2.trans hlt⟩
        · rw [Finset.card_insert_of_notMem hnew]
          exact hanc
  obtain ⟨S, hS, hone, hanc⟩ := path
  exact ⟨S.card, hone, card_internal_le fun a ha => (hS a ha).1, hanc⟩

/-- A node below the root is not its own parent. -/
theorem TreeShape.parent_ne (h : TreeShape m) {k : NodeId} (hk : isBelowRoot k) : (m.get k).parent ≠ k := by
  intro e
  have hlt := h.depth_parent_lt hk
  rw [e] at hlt
  exact lt_irrefl _ hlt

end Depth

/-! ### Children, parents and siblings -/

section Links

variable {m : Arena}

/-- The children of an internal node are the nodes below the root whose parent it is. -/
theorem TreeShape.child_iff (h : TreeShape m) {j k : NodeId} (hj : isInternal j) :
    (m.get j).left = k ∨ (m.get j).right = k ↔ isBelowRoot k ∧ (m.get k).parent = j := by
  obtain ⟨hl, hr, -⟩ := h.internalChildren j hj
  obtain ⟨hpl, hpr⟩ := h.childParent j hj
  constructor
  · rintro (rfl | rfl)
    · exact ⟨hl, hpl⟩
    · exact ⟨hr, hpr⟩
  · rintro ⟨hk, rfl⟩
    exact (h.parentChild k hk).2

/-- The sibling of a node below the root: another child of the same parent (R172). -/
theorem TreeShape.sibling_spec (h : TreeShape m) {k : NodeId} (hk : isBelowRoot k) :
    isBelowRoot (m.sibling k) ∧ m.sibling k ≠ k ∧ (m.get (m.sibling k)).parent = (m.get k).parent := by
  obtain ⟨hp, hchild⟩ := h.parentChild k hk
  obtain ⟨hl, hr, hne⟩ := h.internalChildren _ hp
  obtain ⟨hpl, hpr⟩ := h.childParent _ hp
  unfold Arena.sibling
  dsimp only
  split
  · rename_i e
    exact ⟨hr, fun e' => hne (e.trans e'.symm), hpr⟩
  · rename_i e
    exact ⟨hl, e, hpl⟩

end Links

/-! ### The exchange (R175) -/

/-- `x` may be exchanged with `u`: the parent `p` of `x` lies below the root, and `u` is the other child of `p`'s parent. -/
structure Exchangeable (m : Arena) (x u : NodeId) : Prop where
  belowRoot : isBelowRoot x
  parentBelowRoot : isBelowRoot (m.get x).parent
  uncleBelowRoot : isBelowRoot u
  uncleParent : (m.get u).parent = (m.get (m.get x).parent).parent
  uncleOther : u ≠ (m.get x).parent

/-- The comparison of a walk is with an exchangeable node (R172, R176). -/
theorem TreeShape.exchangeable_uncle {m : Arena} (h : TreeShape m) {x : NodeId} (hx : isBelowRoot x)
    (hp : (m.get x).parent ≠ Config.root) : Exchangeable m x (m.uncle x) := by
  have hbelow : isBelowRoot (m.get x).parent := (h.parentChild x hx).1.belowRoot hp
  obtain ⟨hu, hother, hparent⟩ := h.sibling_spec hbelow
  exact ⟨hx, hbelow, hu, hparent, hother⟩

theorem Arena.get_replaceChild (m : Arena) (k old new j : NodeId) :
    (m.replaceChild k old new).get j = if k = j then
      (if (m.get k).left = old then { m.get k with left := new } else { m.get k with right := new }) else m.get j := by
  unfold Arena.replaceChild
  split
  · rw [Arena.get_setLeft]
  · rw [Arena.get_setRight]

section Exchange

variable {m : Arena} {x u : NodeId}

/-- The four nodes that an exchange writes are different. -/
theorem Exchangeable.distinct (h : TreeShape m) (e : Exchangeable m x u) :
    x ≠ u ∧ x ≠ (m.get x).parent ∧ x ≠ (m.get (m.get x).parent).parent ∧ u ≠ (m.get (m.get x).parent).parent
      ∧ (m.get x).parent ≠ (m.get (m.get x).parent).parent := by
  have hx := h.depth_parent_lt e.belowRoot
  have hp := h.depth_parent_lt e.parentBelowRoot
  have hu := h.depth_parent_lt e.uncleBelowRoot
  rw [e.uncleParent] at hu
  refine ⟨?_, ?_, ?_, ?_, ?_⟩
  · rintro rfl
    rw [← e.uncleParent] at hp
    exact lt_irrefl _ hp
  · intro h'
    rw [← h'] at hx
    exact lt_irrefl _ hx
  · intro h'
    rw [← h'] at hp
    exact lt_asymm hx hp
  · intro h'
    rw [← h'] at hu
    exact lt_irrefl _ hu
  · intro h'
    rw [← h'] at hp
    exact lt_irrefl _ hp

/-- The exchange, node by node. -/
theorem Exchangeable.get_exchange (h : TreeShape m) (e : Exchangeable m x u) (j : NodeId) :
    (m.exchange x u).get j =
      if j = x then { m.get x with parent := (m.get (m.get x).parent).parent }
      else if j = u then { m.get u with parent := (m.get x).parent }
      else if j = (m.get x).parent then
        (if (m.get j).left = x then { m.get j with left := u } else { m.get j with right := u })
      else if j = (m.get (m.get x).parent).parent then
        (if (m.get j).left = u then { m.get j with left := x } else { m.get j with right := x })
      else m.get j := by
  obtain ⟨hxu, hxp, hxg, hug, hpg⟩ := e.distinct h
  have hup := e.uncleOther
  clear e h
  unfold Arena.exchange
  dsimp only
  generalize (m.get x).parent = p at *
  generalize (m.get p).parent = g at *
  simp only [Arena.get_setParent, Arena.get_replaceChild]
  by_cases h1 : j = x
  · subst h1
    simp [hxu.symm, hxp.symm, hxg.symm]
  by_cases h2 : j = u
  · subst h2
    simp [hxu, h1, hup.symm, hug.symm]
  by_cases h3 : j = p
  · subst h3
    simp [hxp, hup, hpg.symm, h1, h2]
  by_cases h4 : j = g
  · subst h4
    simp [hxg, hug, hpg, h1, h2, h3]
  simp [h1, h2, h3, h4, Ne.symm h1, Ne.symm h2, Ne.symm h3, Ne.symm h4]

/-- An exchange changes no frequency. -/
theorem Exchangeable.exchange_freq (h : TreeShape m) (e : Exchangeable m x u) (j : NodeId) :
    ((m.exchange x u).get j).freq = (m.get j).freq := by
  rw [e.get_exchange h]
  split_ifs <;> simp_all

/-- `x` and `u` get each other's parent, and no other node's parent changes. -/
theorem Exchangeable.exchange_parent (h : TreeShape m) (e : Exchangeable m x u) (j : NodeId) :
    ((m.exchange x u).get j).parent = (m.get (Equiv.swap x u j)).parent := by
  rw [e.get_exchange h]
  by_cases hx : j = x
  · simp [hx, e.uncleParent]
  by_cases hu : j = u
  · subst hu
    simp [hx]
  rw [Equiv.swap_apply_of_ne_of_ne hx hu, if_neg hx, if_neg hu]
  split_ifs <;> rfl

/-- A node other than the two parents keeps its children. -/
theorem Exchangeable.exchange_children_other (h : TreeShape m) (e : Exchangeable m x u) {j : NodeId}
    (hp : j ≠ (m.get x).parent) (hg : j ≠ (m.get (m.get x).parent).parent) :
    ((m.exchange x u).get j).left = (m.get j).left ∧ ((m.exchange x u).get j).right = (m.get j).right := by
  rw [e.get_exchange h, if_neg hp, if_neg hg]
  split_ifs <;> simp_all

/-- In the child slots of the internal nodes, `x` and `u` stand in each other's place. -/
theorem Exchangeable.exchange_children (h : TreeShape m) (e : Exchangeable m x u) {j : NodeId} (hj : isInternal j) :
    ((m.exchange x u).get j).left = Equiv.swap x u (m.get j).left
      ∧ ((m.exchange x u).get j).right = Equiv.swap x u (m.get j).right := by
  obtain ⟨hxu, hxp, hxg, hug, hpg⟩ := e.distinct h
  obtain ⟨-, -, hne⟩ := h.internalChildren j hj
  obtain ⟨hleft, hright⟩ := h.childParent j hj
  by_cases hp : j = (m.get x).parent
  · have hlu : (m.get j).left ≠ u := by
      intro hlu
      rw [hlu, e.uncleParent] at hleft
      exact hpg (hp.symm.trans hleft.symm)
    have hru : (m.get j).right ≠ u := by
      intro hru
      rw [hru, e.uncleParent] at hright
      exact hpg (hp.symm.trans hright.symm)
    rw [e.get_exchange h, if_neg (hp ▸ hxp.symm), if_neg (hp ▸ e.uncleOther.symm), if_pos hp]
    rcases (h.child_iff hj).2 ⟨e.belowRoot, hp.symm⟩ with hx | hx
    · rw [if_pos hx, hx, Equiv.swap_apply_left, Equiv.swap_apply_of_ne_of_ne (hx ▸ hne.symm) hru]
      exact ⟨rfl, rfl⟩
    · have hlx : (m.get j).left ≠ x := fun hlx => hne (hlx.trans hx.symm)
      rw [if_neg hlx, hx, Equiv.swap_apply_left, Equiv.swap_apply_of_ne_of_ne hlx hlu]
      exact ⟨rfl, rfl⟩
  have hlx : (m.get j).left ≠ x := fun hlx => hp (by rw [← hleft, hlx])
  have hrx : (m.get j).right ≠ x := fun hrx => hp (by rw [← hright, hrx])
  by_cases hg : j = (m.get (m.get x).parent).parent
  · rw [e.get_exchange h, if_neg (hg ▸ hxg.symm), if_neg (hg ▸ hug.symm), if_neg hp, if_pos hg]
    rcases (h.child_iff hj).2 ⟨e.uncleBelowRoot, e.uncleParent.trans hg.symm⟩ with hu | hu
    · rw [if_pos hu, hu, Equiv.swap_apply_right, Equiv.swap_apply_of_ne_of_ne hrx (hu ▸ hne.symm)]
      exact ⟨rfl, rfl⟩
    · have hlu : (m.get j).left ≠ u := fun hlu => hne (hlu.trans hu.symm)
      rw [if_neg hlu, hu, Equiv.swap_apply_right, Equiv.swap_apply_of_ne_of_ne hlx hlu]
      exact ⟨rfl, rfl⟩
  have hlu : (m.get j).left ≠ u := fun hlu => hg (by rw [← hleft, hlu, e.uncleParent])
  have hru : (m.get j).right ≠ u := fun hru => hg (by rw [← hright, hru, e.uncleParent])
  rw [Equiv.swap_apply_of_ne_of_ne hlx hlu, Equiv.swap_apply_of_ne_of_ne hrx hru]
  exact e.exchange_children_other h hp hg

/-- The two nodes' places lie below the root, so a swap keeps below the root what is. -/
theorem Exchangeable.isBelowRoot_swap (e : Exchangeable m x u) {k : NodeId} (hk : isBelowRoot k) :
    isBelowRoot (Equiv.swap x u k) := by
  rw [Equiv.swap_apply_def]
  split_ifs
  · exact e.uncleBelowRoot
  · exact e.belowRoot
  · exact hk

/-- An exchange keeps the shape of R41. `u` comes one level below `p`, its old level, and `x` rises. -/
theorem TreeShape.exchange (h : TreeShape m) (e : Exchangeable m x u) : TreeShape (m.exchange x u) := by
  have hparent : ∀ k, isBelowRoot k → isInternal ((m.exchange x u).get k).parent := fun k hk => by
    rw [e.exchange_parent h]
    exact (h.parentChild _ (e.isBelowRoot_swap hk)).1
  refine ⟨?_, ?_, ?_, ?_, ?_, ?_⟩
  · rw [e.exchange_parent h, Equiv.swap_apply_of_ne_of_ne e.belowRoot.ne_root.symm e.uncleBelowRoot.ne_root.symm]
    exact h.rootParent
  · intro k hk
    have hnot : ∀ j, isInternal j → k ≠ j := by
      rintro _ ⟨-, h2⟩ rfl
      have h1 := hk.1
      rw [maxChar_eq] at h2
      rw [successMax_eq] at h1
      omega
    obtain ⟨hl, hr⟩ := e.exchange_children_other h (hnot _ (h.parentChild x e.belowRoot).1)
      (hnot _ (h.parentChild _ e.parentBelowRoot).1)
    rw [hl, hr]
    exact h.leafChildren k hk
  · intro k hk
    obtain ⟨hl, hr, hne⟩ := h.internalChildren k hk
    obtain ⟨hl', hr'⟩ := e.exchange_children h hk
    rw [hl', hr']
    exact ⟨e.isBelowRoot_swap hl, e.isBelowRoot_swap hr, (Equiv.swap x u).injective.ne hne⟩
  · intro k hk
    obtain ⟨hl', hr'⟩ := e.exchange_children h hk
    rw [hl', hr', e.exchange_parent h, e.exchange_parent h, Equiv.swap_apply_self, Equiv.swap_apply_self]
    exact h.childParent k hk
  · intro k hk
    refine ⟨hparent k hk, ?_⟩
    obtain ⟨hl', hr'⟩ := e.exchange_children h (hparent k hk)
    rw [hl', hr', e.exchange_parent h, Equiv.swap_apply_eq_iff, Equiv.swap_apply_eq_iff]
    exact (h.parentChild _ (e.isBelowRoot_swap hk)).2
  · refine reachesRoot_of_rank (fun k => 2 * m.depth k + if k = u then 1 else 0) hparent fun k hk => ?_
    have hx := h.depth_parent_lt e.belowRoot
    have hp := h.depth_parent_lt e.parentBelowRoot
    rw [e.exchange_parent h]
    by_cases hkx : k = x
    · subst hkx
      rw [Equiv.swap_apply_left, e.uncleParent]
      split_ifs <;> omega
    by_cases hku : k = u
    · subst hku
      have hlevel := h.depth_eq e.uncleBelowRoot
      rw [e.uncleParent, ← h.depth_eq e.parentBelowRoot] at hlevel
      rw [Equiv.swap_apply_right, if_neg e.uncleOther.symm, if_pos rfl]
      omega
    · have hk' := h.depth_parent_lt hk
      rw [Equiv.swap_apply_of_ne_of_ne hkx hku]
      split_ifs <;> omega

end Exchange

/-! ### The update keeps the shape (R176) -/

section Update

variable {m : Arena}

theorem TreeShape.recompute (h : TreeShape m) (k : NodeId) : TreeShape (m.recompute k) :=
  h.sameLinks (fun j => (Arena.recomputeFrom_links _ m k j).1) (fun j => (Arena.recomputeFrom_links _ m k j).2.1)
    (fun j => (Arena.recomputeFrom_links _ m k j).2.2)

theorem TreeShape.halveIfFull (h : TreeShape m) : TreeShape m.halveIfFull := by
  unfold Arena.halveIfFull
  split
  · exact h.sameLinks (fun j => (m.halve_links j).1) (fun j => (m.halve_links j).2.1) (fun j => (m.halve_links j).2.2)
  · exact h

theorem TreeShape.count (h : TreeShape m) (leaf : NodeId) : TreeShape (m.count leaf) :=
  (h.setFreq leaf _).recompute _

theorem TreeShape.compareUncle (h : TreeShape m) {cur : NodeId} (hcur : isBelowRoot cur)
    (hp : (m.get cur).parent ≠ Config.root) : TreeShape (m.compareUncle cur) := by
  unfold Arena.compareUncle
  dsimp only
  split
  · exact (h.exchange (h.exchangeable_uncle hcur hp)).recompute _
  · exact h

/-- A property of trees that each comparison of the walk keeps is kept by the walk, which stays below the root (R176,
R177). -/
theorem rebalanceFrom_keeps {Q : Arena → Prop} (hQ : ∀ m, Q m → TreeShape m)
    (hstep : ∀ m cur, Q m → isBelowRoot cur → (m.get cur).parent ≠ Config.root → Q (m.compareUncle cur))
    (n : Nat) {cur : NodeId} (h : Q m) (hcur : isBelowRoot cur) : Q (Arena.rebalanceFrom n m cur) := by
  induction n generalizing m cur with
  | zero => exact h
  | succ n ih =>
    unfold Arena.rebalanceFrom
    dsimp only
    split
    · exact h
    · rename_i hp
      exact ih (hstep m cur h hcur hp) (((hQ m h).parentChild cur hcur).1.belowRoot hp)

/-- The leaf of a symbol is a leaf (R171). -/
theorem isLeaf_leafOf {code : Nat} (hc : code ≤ Config.maxChar) : isLeaf (leafOf code) := by
  rw [maxChar_eq] at hc
  unfold isLeaf leafOf
  rw [successMax_eq, twiceMax_eq, toNat_ofNat_id (by omega)]
  omega

theorem isLeaf.belowRoot {k : NodeId} (h : isLeaf k) : isBelowRoot k := by
  obtain ⟨h1, h2⟩ := h
  rw [successMax_eq] at h1
  exact ⟨by omega, h2⟩

/-- One symbol's update keeps the shape. -/
theorem TreeShape.update (h : TreeShape m) {code : Nat} (hc : code ≤ Config.maxChar) : TreeShape (m.update code) :=
  rebalanceFrom_keeps (fun _ h => h) (fun _ _ h hcur hp => h.compareUncle hcur hp) _ (h.count _).halveIfFull
    (isLeaf_leafOf hc).belowRoot

end Update

/-- A property of the tree that the initial tree has and that every symbol's update keeps is kept by every step: of a
command's moves only the update rewrites nodes, and InitState's tree is the initial one (R170, R176, R321). -/
theorem step_keeps_nodes {Q : Arena → Prop} (hinit : Q [])
    (hupdate : ∀ (m : Arena) (code : Nat), code ≤ Config.maxChar → Q m → Q (m.update code)) {s t : State}
    (hs : Q s.nodes) (ht : step s = .next t) : Q t.nodes := by
  have htables : OfTables fun s => Q s.nodes := fun _ _ hnodes _ _ h => Eq.mpr (congrArg Q hnodes) h
  have hmoves : KeptByMoves fun s => Q s.nodes :=
    htables.keptByMoves (fun s code hc h => by dsimp only; exact hupdate s.nodes code hc h) (fun _ _ h => h)
      (fun _ _ => hinit)
  exact step_keeps_tables hmoves htables hs ht

/-- Settles O53, by the update, whose only change of links is the exchange. -/
theorem treeShapeKept : Obligations.TreeShapeKept := by
  unfold Obligations.TreeShapeKept
  intro s t hs ht
  exact step_keeps_nodes initialTree_shape (fun _ _ hc h => h.update hc) hs ht

end Sys2Proof.Machine
end

section
/-! PROOFS. The frequencies of the Huffman tree (10_state R42, 41_huffman R183). A recompute climbs from a node to the root;
before each of its steps only the node it stands on may fall short of its children's sum, and by no more than the one count
that an update adds. An exchange moves the greater frequency up, so no sum above it grows. -/

namespace Sys2Proof.Machine

/-! ### The sum of a node's children -/

/-- The frequencies of a node's children, summed without a bound of 16 bits. -/
def Arena.childSum (m : Arena) (k : NodeId) : Nat :=
  (m.get (m.get k).left).freq.toNat + (m.get (m.get k).right).freq.toNat

/-- R42 at every internal node except possibly `q`. -/
def SumsBoundedBut (m : Arena) (q : NodeId) : Prop :=
  ∀ k, isInternal k → k ≠ q → m.childSum k ≤ (m.get k).freq.toNat

/-- R42 at every internal node. -/
def SumsBounded (m : Arena) : Prop := ∀ k, isInternal k → m.childSum k ≤ (m.get k).freq.toNat

theorem frequencyBound_iff (m : Arena) :
    FrequencyBound m ↔ SumsBounded m ∧ (m.get Config.root).freq.toNat ≤ 1999 :=
  ⟨fun h => ⟨h.childSum, h.rootBound⟩, fun h => ⟨h.1, h.2⟩⟩

section Sums

variable {m : Arena}

/-- A child's frequency is a part of its parent's sum. -/
theorem TreeShape.freq_le_childSum (h : TreeShape m) {k : NodeId} (hk : isBelowRoot k) :
    (m.get k).freq.toNat ≤ m.childSum (m.get k).parent := by
  unfold Arena.childSum
  rcases (h.parentChild k hk).2 with e | e <;> rw [e] <;> omega

/-- A node whose ancestors obey R42 is no heavier than the root. -/
theorem TreeShape.freq_le_root (h : TreeShape m) {k : NodeId} (hk : isInternal k ∨ isBelowRoot k)
    (hsum : ∀ j, isInternal j → m.depth j < m.depth k → m.childSum j ≤ (m.get j).freq.toNat) :
    (m.get k).freq.toNat ≤ (m.get Config.root).freq.toNat := by
  induction hn : m.depth k using Nat.strong_induction_on generalizing k with
  | _ n ih =>
    subst hn
    by_cases hroot : k = Config.root
    · rw [hroot]
    · have hbelow : isBelowRoot k := hk.elim (fun hi => hi.belowRoot hroot) id
      have hp := (h.parentChild k hbelow).1
      have hlt := h.depth_parent_lt hbelow
      calc (m.get k).freq.toNat
        _ ≤ m.childSum (m.get k).parent := h.freq_le_childSum hbelow
        _ ≤ (m.get (m.get k).parent).freq.toNat := hsum _ hp hlt
        _ ≤ (m.get Config.root).freq.toNat := ih _ hlt (Or.inl hp) (fun j hj hd => hsum j hj (hd.trans hlt)) rfl

/-! ### One frequency write -/

theorem Arena.freq_setFreq (m : Arena) (k j : NodeId) (f : Freq) :
    ((m.setFreq k f).get j).freq = if k = j then f else (m.get j).freq := by
  rw [Arena.get_setFreq]
  split <;> rfl

theorem Arena.childSum_setFreq (m : Arena) (k j : NodeId) (f : Freq) :
    (m.setFreq k f).childSum j = (if k = (m.get j).left then f else (m.get (m.get j).left).freq).toNat
      + (if k = (m.get j).right then f else (m.get (m.get j).right).freq).toNat := by
  unfold Arena.childSum
  rw [Arena.setFreq_left, Arena.setFreq_right, Arena.freq_setFreq, Arena.freq_setFreq]

@[simp] theorem Arena.depth_setFreq (m : Arena) (k j : NodeId) (f : Freq) : (m.setFreq k f).depth j = m.depth j := by
  unfold Arena.depth
  simp only [ancestor_sameParents (fun i => Arena.setFreq_parent m k i f)]

/-- Only the parent's sum depends on a node's frequency. -/
theorem TreeShape.childSum_setFreq_other (h : TreeShape m) {j k : NodeId} (f : Freq) (hj : isInternal j)
    (hne : ¬ (isBelowRoot k ∧ (m.get k).parent = j)) : (m.setFreq k f).childSum j = m.childSum j := by
  obtain ⟨hl, hr⟩ := not_or.1 ((h.child_iff hj).not.2 hne)
  rw [Arena.childSum_setFreq, if_neg (Ne.symm hl), if_neg (Ne.symm hr)]
  rfl

/-- In the parent's sum the new frequency stands for the old one. -/
theorem TreeShape.childSum_setFreq_parent (h : TreeShape m) {k : NodeId} (f : Freq) (hk : isBelowRoot k) :
    (m.setFreq k f).childSum (m.get k).parent + (m.get k).freq.toNat
      = m.childSum (m.get k).parent + f.toNat := by
  obtain ⟨hp, hchild⟩ := h.parentChild k hk
  obtain ⟨-, -, hne⟩ := h.internalChildren _ hp
  rw [Arena.childSum_setFreq, Arena.childSum]
  rcases hchild with e | e
  · rw [e] at hne ⊢
    rw [if_pos rfl, if_neg hne]
    omega
  · rw [e] at hne ⊢
    rw [if_pos rfl, if_neg hne.symm]
    omega

/-- A sum that fits in 16 bits is what a recompute step writes (R173). -/
theorem Arena.childSum_toNat (m : Arena) (k : NodeId) (h : m.childSum k < 65536) :
    ((m.get (m.get k).left).freq + (m.get (m.get k).right).freq).toNat = m.childSum k := by
  rw [BitVec.toNat_add]
  exact Nat.mod_eq_of_lt h

/-- One step of a recompute at `k`: R42 holds at `k`, and only at its parent may it fail (R173). -/
theorem TreeShape.sumsBoundedBut_setFreq (h : TreeShape m) {k : NodeId} {f : Freq} (hf : m.childSum k ≤ f.toNat)
    (hsum : ∀ j, isInternal j → j ≠ k → j ≠ (m.get k).parent → m.childSum j ≤ (m.get j).freq.toNat) :
    SumsBoundedBut (m.setFreq k f) (m.get k).parent := by
  intro j hj hjp
  rw [h.childSum_setFreq_other f hj fun hc => hjp hc.2.symm, Arena.freq_setFreq]
  split
  · rename_i hkj
    exact hkj ▸ hf
  · rename_i hkj
    exact hsum j hj (Ne.symm hkj) hjp

end Sums

/-! ### The recompute (R173) -/

section Recompute

variable {m : Arena}

@[simp] theorem Arena.recomputeFrom_nil (n : Nat) (m : Arena) : Arena.recomputeFrom n m Config.nil = m := by
  cases n <;> simp [Arena.recomputeFrom]

/-- With its sum short by at most `c` at the node it starts from, a recompute makes R42 hold everywhere, and adds at most `c`
to the root. -/
theorem TreeShape.recomputeFrom_bounds (n : Nat) {k : NodeId} {c : Nat} (h : TreeShape m) (hk : isInternal k)
    (hn : m.depth k < n) (hsum : SumsBoundedBut m k) (hshort : m.childSum k ≤ (m.get k).freq.toNat + c)
    (hroot : (m.get Config.root).freq.toNat + c ≤ 2000) :
    SumsBounded (Arena.recomputeFrom n m k)
      ∧ ((Arena.recomputeFrom n m k).get Config.root).freq.toNat ≤ (m.get Config.root).freq.toNat + c := by
  induction n generalizing m k with
  | zero => exact absurd hn (Nat.not_lt_zero _)
  | succ n ih =>
    have hheavy : (m.get k).freq.toNat ≤ (m.get Config.root).freq.toNat :=
      h.freq_le_root (Or.inl hk) fun j hj hd => hsum j hj fun e => absurd hd (e ▸ lt_irrefl _)
    have hval := m.childSum_toNat k (by omega)
    rw [Arena.recomputeFrom, if_neg hk.ne_nil]
    dsimp only
    generalize (m.get (m.get k).left).freq + (m.get (m.get k).right).freq = f at hval
    have hstep := h.sumsBoundedBut_setFreq hval.ge fun j hj hjk _ => hsum j hj hjk
    by_cases hkr : k = Config.root
    · subst hkr
      rw [h.rootParent, Arena.recomputeFrom_nil]
      rw [h.rootParent] at hstep
      refine ⟨fun j hj => hstep j hj hj.ne_nil, ?_⟩
      rw [Arena.freq_setFreq, if_pos rfl]
      omega
    · have hbelow := hk.belowRoot hkr
      have hp := (h.parentChild k hbelow).1
      have hlt := h.depth_parent_lt hbelow
      have hparent := h.childSum_setFreq_parent f hbelow
      have hpsum := hsum _ hp (h.parent_ne hbelow)
      have hsame : ((m.setFreq k f).get Config.root).freq = (m.get Config.root).freq := by
        rw [Arena.freq_setFreq, if_neg hkr]
      have hpfreq : ((m.setFreq k f).get (m.get k).parent).freq = (m.get (m.get k).parent).freq := by
        rw [Arena.freq_setFreq, if_neg (h.parent_ne hbelow).symm]
      rw [← hsame] at hroot ⊢
      refine ih (h.setFreq k f) hp ?_ hstep ?_ hroot
      · rw [Arena.depth_setFreq]
        omega
      · rw [hpfreq]
        omega

theorem TreeShape.depth_le_of_internal (h : TreeShape m) {k : NodeId} (hk : isInternal k) :
    m.depth k ≤ Config.maxChar := by
  by_cases hkr : k = Config.root
  · rw [hkr]
    exact (Nat.sInf_le (rfl : m.ancestor 0 Config.root = Config.root)).trans (Nat.zero_le _)
  · exact h.depth_le (hk.belowRoot hkr)

/-- The climb is long enough for every node (R41 item 4, log 12). -/
theorem TreeShape.recompute_bounds {k : NodeId} {c : Nat} (h : TreeShape m) (hk : isInternal k)
    (hsum : SumsBoundedBut m k) (hshort : m.childSum k ≤ (m.get k).freq.toNat + c)
    (hroot : (m.get Config.root).freq.toNat + c ≤ 2000) :
    SumsBounded (m.recompute k)
      ∧ ((m.recompute k).get Config.root).freq.toNat ≤ (m.get Config.root).freq.toNat + c := by
  have hdepth := h.depth_le_of_internal hk
  rw [maxChar_eq] at hdepth
  exact h.recomputeFrom_bounds climbBound hk (by rw [climbBound, twiceMax_eq]; omega) hsum hshort hroot

/-- A recompute from a node writes its sum and goes on from its parent. -/
theorem Arena.recompute_eq (m : Arena) {k : NodeId} (hk : k ≠ Config.nil) :
    m.recompute k = Arena.recomputeFrom 1256
      (m.setFreq k ((m.get (m.get k).left).freq + (m.get (m.get k).right).freq)) (m.get k).parent := by
  rw [Arena.recompute, climbBound, twiceMax_eq, Arena.recomputeFrom, if_neg hk]

end Recompute

/-! ### The count and the halving (R174, R176, R178) -/

section Count

variable {m : Arena}

theorem isLeaf.not_internal {k : NodeId} (h : isLeaf k) : ¬ isInternal k := by
  rintro ⟨-, h2⟩
  have h1 := h.1
  rw [successMax_eq] at h1
  rw [maxChar_eq] at h2
  omega

/-- One more count of a leaf: R42 holds, and the root counts at most one more. -/
theorem TreeShape.count_bounds (h : TreeShape m) (hf : FrequencyBound m) {leaf : NodeId} (hleaf : isLeaf leaf) :
    SumsBounded (m.count leaf) ∧ ((m.count leaf).get Config.root).freq.toNat ≤ 2000 := by
  obtain ⟨hsum, hroot⟩ := (frequencyBound_iff m).1 hf
  have hbelow := hleaf.belowRoot
  have hp := (h.parentChild leaf hbelow).1
  have hheavy := h.freq_le_root (Or.inr hbelow) fun j hj _ => hsum j hj
  have hinc : ((m.get leaf).freq + 1).toNat = (m.get leaf).freq.toNat + 1 := by
    rw [BitVec.toNat_add]
    exact Nat.mod_eq_of_lt (by have : (1 : Freq).toNat = 1 := rfl; omega)
  unfold Arena.count
  dsimp only
  rw [Arena.setFreq_parent]
  generalize (m.get leaf).freq + 1 = f at hinc
  have hkept : ∀ j, isInternal j → ((m.setFreq leaf f).get j).freq = (m.get j).freq := by
    intro j hj
    rw [Arena.freq_setFreq, if_neg]
    rintro rfl
    exact hleaf.not_internal hj
  have hparent := h.childSum_setFreq_parent f hbelow
  have hpsum := hsum _ hp
  have hbut : SumsBoundedBut (m.setFreq leaf f) (m.get leaf).parent := by
    intro j hj hjp
    rw [h.childSum_setFreq_other f hj fun hc => hjp hc.2.symm, hkept j hj]
    exact hsum j hj
  obtain ⟨hsum', hroot'⟩ := (h.setFreq leaf f).recompute_bounds (c := 1) hp hbut
    (by rw [hkept _ hp]; omega) (by rw [hkept _ isInternal_root]; omega)
  rw [hkept _ isInternal_root] at hroot'
  exact ⟨hsum', by omega⟩

/-- Halving reaches the nodes one after another (R174). -/
theorem Arena.halveFirst_freq (m : Arena) (n : Nat) (hn : n ≤ Config.twiceMax) (j : NodeId) :
    (((List.range n).foldl (fun m i => m.halveNode (BitVec.ofNat 11 (i + 1))) m).get j).freq
      = if 1 ≤ j.toNat ∧ j.toNat ≤ n then (m.get j).freq >>> 1 else (m.get j).freq := by
  induction n with
  | zero => rw [if_neg (by omega)]; rfl
  | succ n ih =>
    rw [twiceMax_eq] at hn ih
    have hid : (BitVec.ofNat 11 (n + 1)).toNat = n + 1 := toNat_ofNat_id (by omega)
    rw [List.range_succ, List.foldl_append, List.foldl_cons, List.foldl_nil, Arena.halveNode, Arena.freq_setFreq]
    split
    · rename_i hj
      subst hj
      rw [ih (by omega), hid, if_neg (by omega), if_pos (by omega)]
    · rename_i hj
      have hne : j.toNat ≠ n + 1 := fun e => hj (BitVec.eq_of_toNat_eq (hid.trans e.symm))
      rw [ih (by omega)]
      exact if_congr (by omega) rfl rfl

/-- Halving, node by node (R174). -/
theorem Arena.halve_freq (m : Arena) {j : NodeId} (hj : isInternal j ∨ isBelowRoot j) :
    (m.halve.get j).freq.toNat = (m.get j).freq.toNat / 2 := by
  have hid : 1 ≤ j.toNat ∧ j.toNat ≤ Config.twiceMax := by
    rw [twiceMax_eq]
    rcases hj with ⟨h1, h2⟩ | ⟨h1, h2⟩
    · rw [maxChar_eq] at h2
      omega
    · rw [twiceMax_eq] at h2
      omega
  rw [Arena.halve, Arena.halveFirst_freq m _ le_rfl, if_pos hid, BitVec.toNat_ushiftRight, Nat.shiftRight_one]

/-- After the halving check the root is below 2000 again (R178, R183). -/
theorem TreeShape.halveIfFull_frequencyBound (h : TreeShape m) (hsum : SumsBounded m)
    (hroot : (m.get Config.root).freq.toNat ≤ 2000) : FrequencyBound m.halveIfFull := by
  rw [frequencyBound_iff]
  unfold Arena.halveIfFull
  split
  · refine ⟨fun j hj => ?_, ?_⟩
    · obtain ⟨hl, hr, -⟩ := h.internalChildren j hj
      obtain ⟨-, hleft, hright⟩ := m.halve_links j
      have hj' := hsum j hj
      unfold Arena.childSum at hj' ⊢
      rw [hleft, hright, m.halve_freq (Or.inr hl), m.halve_freq (Or.inr hr), m.halve_freq (Or.inl hj)]
      omega
    · rw [m.halve_freq (Or.inl isInternal_root)]
      omega
  · rename_i hfull
    have hmax : Config.maxFrequency = 2000 := rfl
    exact ⟨hsum, by omega⟩

end Count

/-! ### The exchange (R175, R176) -/

section Exchange

variable {m : Arena} {x u : NodeId}

/-- In the sum of one of the two parents the exchange puts the other node's frequency in the place of the child's. -/
theorem Exchangeable.childSum_exchange (h : TreeShape m) (e : Exchangeable m x u) {j y z : NodeId} (hj : isInternal j)
    (hswap : Equiv.swap x u = Equiv.swap y z) (hy : isBelowRoot y) (hyj : (m.get y).parent = j)
    (hzj : (m.get z).parent ≠ j) :
    (m.exchange x u).childSum j + (m.get y).freq.toNat = m.childSum j + (m.get z).freq.toNat := by
  obtain ⟨-, -, hne⟩ := h.internalChildren j hj
  obtain ⟨hleft, hright⟩ := h.childParent j hj
  obtain ⟨hl, hr⟩ := e.exchange_children h hj
  unfold Arena.childSum
  rw [hl, hr, e.exchange_freq h, e.exchange_freq h, hswap]
  rcases (h.child_iff hj).2 ⟨hy, hyj⟩ with hc | hc
  · have hrz : (m.get j).right ≠ z := fun hrz => hzj (hrz ▸ hright)
    rw [hc, Equiv.swap_apply_left, Equiv.swap_apply_of_ne_of_ne (hc ▸ hne.symm) hrz]
    omega
  · have hlz : (m.get j).left ≠ z := fun hlz => hzj (hlz ▸ hleft)
    rw [hc, Equiv.swap_apply_left, Equiv.swap_apply_of_ne_of_ne (hc ▸ hne) hlz]
    omega

theorem Exchangeable.childSum_exchange_parent (h : TreeShape m) (e : Exchangeable m x u) :
    (m.exchange x u).childSum (m.get x).parent + (m.get x).freq.toNat
      = m.childSum (m.get x).parent + (m.get u).freq.toNat := by
  obtain ⟨-, -, -, -, hpg⟩ := e.distinct h
  have hup : (m.get u).parent ≠ (m.get x).parent := by
    rw [e.uncleParent]
    exact hpg.symm
  exact e.childSum_exchange h (h.parentChild x e.belowRoot).1 rfl e.belowRoot rfl hup

theorem Exchangeable.childSum_exchange_grandparent (h : TreeShape m) (e : Exchangeable m x u) :
    (m.exchange x u).childSum (m.get (m.get x).parent).parent + (m.get u).freq.toNat
      = m.childSum (m.get (m.get x).parent).parent + (m.get x).freq.toNat := by
  obtain ⟨-, -, -, -, hpg⟩ := e.distinct h
  have hg := (h.parentChild _ e.parentBelowRoot).1
  exact e.childSum_exchange h hg (Equiv.swap_comm x u) e.uncleBelowRoot e.uncleParent hpg

theorem Exchangeable.childSum_exchange_other (h : TreeShape m) (e : Exchangeable m x u) {j : NodeId}
    (hp : j ≠ (m.get x).parent) (hg : j ≠ (m.get (m.get x).parent).parent) :
    (m.exchange x u).childSum j = m.childSum j := by
  obtain ⟨hl, hr⟩ := e.exchange_children_other h hp hg
  unfold Arena.childSum
  rw [hl, hr, e.exchange_freq h, e.exchange_freq h]

/-- The parent keeps its own parent. -/
theorem Exchangeable.exchange_grandparent (h : TreeShape m) (e : Exchangeable m x u) :
    ((m.exchange x u).get (m.get x).parent).parent = (m.get (m.get x).parent).parent := by
  obtain ⟨-, hxp, -⟩ := e.distinct h
  rw [e.exchange_parent h, Equiv.swap_apply_of_ne_of_ne hxp.symm e.uncleOther.symm]

/-- After an exchange with a node that is no heavier, and the recompute, R42 and the root's bound hold again: the parent's
sum falls by the difference of the two frequencies, the grandparent's recomputed sum is no greater than before. -/
theorem FrequencyBound.exchange (hf : FrequencyBound m) (h : TreeShape m) (e : Exchangeable m x u)
    (hle : (m.get u).freq.toNat ≤ (m.get x).freq.toNat) :
    FrequencyBound ((m.exchange x u).recompute (m.get x).parent) := by
  obtain ⟨hsum, hroot⟩ := (frequencyBound_iff m).1 hf
  obtain ⟨-, -, -, -, hpg⟩ := e.distinct h
  have h' := h.exchange e
  have hp := (h.parentChild x e.belowRoot).1
  have hg := (h.parentChild _ e.parentBelowRoot).1
  have hsump := e.childSum_exchange_parent h
  have hsumg := e.childSum_exchange_grandparent h
  have hheavy := h.freq_le_root (Or.inl hp) fun j hj _ => hsum j hj
  have hpsum := hsum _ hp
  have hgsum := hsum _ hg
  have hval := (m.exchange x u).childSum_toNat (m.get x).parent (by omega)
  rw [frequencyBound_iff, Arena.recompute_eq _ hp.ne_nil, e.exchange_grandparent h]
  generalize ((m.exchange x u).get ((m.exchange x u).get (m.get x).parent).left).freq
    + ((m.exchange x u).get ((m.exchange x u).get (m.get x).parent).right).freq = f at hval ⊢
  have hstep := h'.sumsBoundedBut_setFreq hval.ge fun j hj hjp hjg => by
    rw [e.exchange_grandparent h] at hjg
    rw [e.childSum_exchange_other h hjp hjg, e.exchange_freq h]
    exact hsum j hj
  have hgnew := h'.childSum_setFreq_parent f e.parentBelowRoot
  rw [e.exchange_grandparent h] at hstep hgnew
  rw [e.exchange_freq h] at hgnew
  have hfreq : ∀ j, j ≠ (m.get x).parent →
      (((m.exchange x u).setFreq (m.get x).parent f).get j).freq = (m.get j).freq := by
    intro j hj
    rw [Arena.freq_setFreq, if_neg hj.symm, e.exchange_freq h]
  have hrootfreq := hfreq _ e.parentBelowRoot.ne_root.symm
  have hdepth := (h'.setFreq (m.get x).parent f).depth_le_of_internal hg
  rw [maxChar_eq] at hdepth
  obtain ⟨hsum', hroot'⟩ := (h'.setFreq (m.get x).parent f).recomputeFrom_bounds 1256 (c := 0) hg (by omega) hstep
    (by rw [hfreq _ hpg.symm]; omega) (by rw [hrootfreq]; omega)
  rw [hrootfreq] at hroot'
  exact ⟨hsum', by omega⟩

end Exchange

/-! ### The update (R176) -/

section Update

variable {m : Arena}

theorem FrequencyBound.compareUncle (hf : FrequencyBound m) (h : TreeShape m) {cur : NodeId} (hcur : isBelowRoot cur)
    (hp : (m.get cur).parent ≠ Config.root) : FrequencyBound (m.compareUncle cur) := by
  unfold Arena.compareUncle
  dsimp only
  split
  · rename_i hlt
    exact hf.exchange h (h.exchangeable_uncle hcur hp) (BitVec.lt_def.1 hlt).le
  · exact hf

/-- One symbol's update keeps the shape, the frequency relation and the root's bound. -/
theorem FrequencyBound.update (h : TreeShape m ∧ FrequencyBound m) {code : Nat} (hc : code ≤ Config.maxChar) :
    TreeShape (m.update code) ∧ FrequencyBound (m.update code) := by
  obtain ⟨hshape, hfreq⟩ := h
  have hleaf := isLeaf_leafOf hc
  have hcount := hshape.count (leafOf code)
  obtain ⟨hsum, hroot⟩ := hshape.count_bounds hfreq hleaf
  unfold Arena.update Arena.rebalance
  exact rebalanceFrom_keeps (Q := fun m => TreeShape m ∧ FrequencyBound m) (fun _ h => h.1)
    (fun _ _ h hcur hp => ⟨h.1.compareUncle hcur hp, h.2.compareUncle h.1 hcur hp⟩) climbBound
    ⟨hcount.halveIfFull, hcount.halveIfFull_frequencyBound hsum hroot⟩ hleaf.belowRoot

end Update

/-- Settles O54, by the update: the count adds at most 1 to the root, the halving check brings a root of 2000 down, and the
exchange raises no sum above it. -/
theorem frequencyKept : Obligations.FrequencyKept := by
  unfold Obligations.FrequencyKept
  intro s t hshape hfreq ht
  exact (step_keeps_nodes (Q := fun m => TreeShape m ∧ FrequencyBound m) ⟨initialTree_shape, initialTree_frequency⟩
    (fun _ _ hc h => FrequencyBound.update h hc) ⟨hshape, hfreq⟩ ht).2

end Sys2Proof.Machine
end

section
/-! PROOFS. The accesses of the host that reach no register (20_memory R86, 10_state R30) and those of the two memories
(20_memory R80, R81, R90, R98). -/

namespace Sys2Proof.Machine

/-! ### Reserved offsets and accesses that are not aligned words -/

/-- No register stands at a reserved offset (R30). -/
theorem regAt_reserved {offset : Nat} (h : 0x40 ≤ offset) : regAt offset = none := by
  obtain ⟨k, rfl⟩ := Nat.exists_eq_add_of_le' h
  rfl

theorem alignedWord_eq_false_iff (offset size : Nat) : alignedWord offset size = false ↔ size ≠ 4 ∨ offset % 4 ≠ 0 := by
  simp [alignedWord, or_iff_not_imp_left]

section Ignored

variable {s : State} {offset size : Nat}

/-- A read that reaches no register returns 0 (R30, R86). -/
theorem hostBusRead_zero (hwindow : offset < 256) (h : 0x40 ≤ offset ∨ alignedWord offset size = false) :
    hostBusRead (s.cfg.engineBase + offset) size s = .next (s.returns 0) := by
  unfold hostBusRead
  rw [windowOffset_base_add s.cfg hwindow]
  rcases h with hreserved | hnarrow
  · simp [regAt_reserved hreserved]
  · simp [hnarrow]

/-- A write that reaches no register changes nothing; at a reserved offset this needs an idle engine, since a busy one
sets BWI (R30, R86, R385). -/
theorem hostBusWrite_ignored {v : Word} (hwindow : offset < 256)
    (h : alignedWord offset size = false ∨ 0x40 ≤ offset ∧ s.status.busy = false) :
    hostBusWrite (s.cfg.engineBase + offset) size v s = .next s := by
  unfold hostBusWrite
  rw [windowOffset_base_add s.cfg hwindow]
  rcases h with hnarrow | ⟨hreserved, hidle⟩
  · simp [hnarrow]
  · simp [State.hostWriteOffset, regAt_reserved hreserved, hidle]

end Ignored

/-- Settles O47: such an access reaches no register, by its offset or by its alignment. -/
theorem narrowAndReservedAccesses : Obligations.NarrowAndReservedAccesses := by
  unfold Obligations.NarrowAndReservedAccesses
  intro s rest offset size v hwindow
  refine ⟨fun h hagenda => ?_, fun h hagenda => ?_⟩
  · rw [← alignedWord_eq_false_iff] at h
    rw [step_of_agenda hagenda]
    exact hostBusRead_zero (s := { s with agenda := rest }) hwindow h
  · rw [← or_assoc, ← alignedWord_eq_false_iff] at h
    rw [step_of_agenda hagenda]
    exact hostBusWrite_ignored (s := { s with agenda := rest }) hwindow h

/-! ### The two memories -/

section Memories

variable {s : State} {a : Nat}

theorem hostInRead_inside (h : a < s.cfg.inMemBytes) :
    hostInRead a s = .next (s.returns ((s.inByte a).setWidth 32)) := if_pos h

theorem hostOutRead_idle (h : a < s.cfg.outMemBytes) (hidle : s.status.busy = false) :
    hostOutRead a s = .next (s.returns ((s.outByte a).setWidth 32)) := by
  unfold hostOutRead
  rw [if_neg (not_le.2 h), if_neg (by simp [hidle])]

/-- A read of `OUT` while BUSY draws a free byte (R98, log 7). -/
theorem hostOutRead_busy (h : a < s.cfg.outMemBytes) (hbusy : s.status.busy = true) : hostOutRead a s = .next { s with
    readData := (Config.busyOutByte s.freeCount a).setWidth 32, freeCount := s.freeCount + 1 } := by
  unfold hostOutRead
  rw [if_neg (not_le.2 h), if_pos hbusy]

theorem hostInWrite_idle (b : Byte) (h : a < s.cfg.inMemBytes) (hidle : s.status.busy = false) :
    hostInWrite a b s = .next (s.setInByte a b) := by
  obtain ⟨t, ht⟩ := (hostInWrite_isNext_iff a b s).2 ⟨h, hidle⟩
  rw [ht, hostInWrite_next ht]

theorem hostOutWrite_idle (b : Byte) (h : a < s.cfg.outMemBytes) (hidle : s.status.busy = false) :
    hostOutWrite a b s = .next (s.setOutByte a b) := by
  obtain ⟨t, ht⟩ := (hostOutWrite_isNext_iff a b s).2 ⟨h, hidle⟩
  rw [ht, hostOutWrite_next ht]

end Memories

/-- Settles O50, access by access; a byte written reads back and every other byte of that memory reads as before. -/
theorem hostMemoryAccess : Obligations.HostMemoryAccess := by
  unfold Obligations.HostMemoryAccess
  intro s rest a b
  refine ⟨fun h ha => ?_, fun hidle h ha => ?_, fun hbusy h ha => ⟨Config.busyOutByte s.freeCount a, ?_⟩,
    fun hidle h ha => ?_, fun hidle h ha => ?_⟩
  all_goals rw [step_of_agenda h]
  · exact hostInRead_inside (s := { s with agenda := rest }) ha
  · exact hostOutRead_idle (s := { s with agenda := rest }) ha hidle
  · exact hostOutRead_busy (s := { s with agenda := rest }) ha hbusy
  · refine ⟨_, hostInWrite_idle (s := { s with agenda := rest }) b ha hidle, rfl, fun x => ?_⟩
    rw [State.setInByte_inByte]
    exact if_congr eq_comm rfl rfl
  · refine ⟨_, hostOutWrite_idle (s := { s with agenda := rest }) b ha hidle, rfl, fun x => ?_⟩
    rw [State.setOutByte_outByte]
    exact if_congr eq_comm rfl rfl

end Sys2Proof.Machine
end

section
/-! PROOFS. The canonical form of the memories and tables (20_memory R80, R81; 10_state R40, R43, R44). `KeptByMoves` lets
a move of a command put anything into `OUT`, so the commands are walked here bit by bit of the writer: every write of `OUT`
goes to a byte that exists (R140). -/

namespace Sys2Proof.Machine

/-! ### Memories -/

/-- A memory in canonical form that lists only addresses below `n`. -/
def Memory.StoredBelow (m : Memory) (n : Nat) : Prop := Memory.wf m = true ∧ ∀ e ∈ m, e.1 < n

/-- The invariant, memory by memory and table by table. -/
theorem canonicalStores_iff (s : State) : CanonicalStores s ↔
    Memory.StoredBelow s.inMem s.cfg.inMemBytes ∧ Memory.StoredBelow s.outMem s.cfg.outMemBytes
      ∧ sparseWf initNode s.nodes = true ∧ sparseWf (fun _ => none) s.head = true
      ∧ sparseRising s.next = true ∧ sparseRising s.prev = true := by
  unfold CanonicalStores Memory.StoredBelow
  tauto

theorem Memory.StoredBelow.memPut {m : Memory} {n a : Nat} (b : Byte) (h : m.StoredBelow n) (ha : a < n) :
    Memory.StoredBelow (memPut m a b) n := by
  obtain ⟨hwf, hlisted⟩ := h
  refine ⟨Memory.wf_memPut a b hwf, fun e he => ?_⟩
  rcases mem_memPut he with rfl | he
  · exact ha
  · exact hlisted e he

/-- The bytes that a reset leaves free exist (R371, log 8). -/
theorem Memory.StoredBelow.tearOut {m : Memory} {n first count : Nat} (draw : Nat) (h : m.StoredBelow n)
    (hend : first + count ≤ n) : Memory.StoredBelow (tearOut draw first count m) n := by
  induction count generalizing first m with
  | zero => exact h
  | succ count ih => exact ih (h.memPut _ (by omega)) (by omega)

/-! ### The node arena: the update is a sequence of node writes (R173 to R176) -/

section Nodes

variable {m : Arena}

theorem recomputeFrom_canonical (n : Nat) (k : NodeId) (h : sparseWf initNode m = true) :
    sparseWf initNode (Arena.recomputeFrom n m k) = true := by
  induction n generalizing m k with
  | zero => exact h
  | succ n ih =>
    unfold Arena.recomputeFrom
    split
    · exact h
    · exact ih _ (Arena.wf_put k _ h)

theorem halve_canonical (h : sparseWf initNode m = true) : sparseWf initNode m.halve = true := by
  unfold Arena.halve
  generalize List.range Config.twiceMax = ids
  induction ids generalizing m with
  | nil => exact h
  | cons i ids ih => exact ih (Arena.wf_put _ _ h)

theorem replaceChild_canonical (k old new : NodeId) (h : sparseWf initNode m = true) :
    sparseWf initNode (m.replaceChild k old new) = true := by
  unfold Arena.replaceChild
  split <;> exact Arena.wf_put _ _ h

theorem exchange_canonical (x u : NodeId) (h : sparseWf initNode m = true) :
    sparseWf initNode (m.exchange x u) = true :=
  Arena.wf_put _ _ (Arena.wf_put _ _ (replaceChild_canonical _ _ _ (replaceChild_canonical _ _ _ h)))

theorem compareUncle_canonical (cur : NodeId) (h : sparseWf initNode m = true) :
    sparseWf initNode (m.compareUncle cur) = true := by
  unfold Arena.compareUncle
  dsimp only
  split
  · exact recomputeFrom_canonical _ _ (exchange_canonical _ _ h)
  · exact h

theorem rebalanceFrom_canonical (n : Nat) (cur : NodeId) (h : sparseWf initNode m = true) :
    sparseWf initNode (Arena.rebalanceFrom n m cur) = true := by
  induction n generalizing m cur with
  | zero => exact h
  | succ n ih =>
    unfold Arena.rebalanceFrom
    dsimp only
    split
    · exact h
    · exact ih _ (compareUncle_canonical cur h)

theorem update_canonical (code : Nat) (h : sparseWf initNode m = true) : sparseWf initNode (m.update code) = true := by
  have hcount : sparseWf initNode (m.count (leafOf code)) = true := recomputeFrom_canonical _ _ (Arena.wf_put _ _ h)
  refine rebalanceFrom_canonical _ _ ?_
  unfold Arena.halveIfFull
  split
  · exact halve_canonical hcount
  · exact hcount

end Nodes

/-! ### The changes that a command's body makes -/

section Moves

variable {s : State}

/-- A write of a byte of `OUT` that exists; where the cursor stands does not matter (R12, R140). -/
theorem CanonicalStores.setOutByte {a : Nat} (b : Byte) (h : CanonicalStores s) (ha : a < s.cfg.outMemBytes) :
    CanonicalStores (s.setOutByte a b) := by
  rw [canonicalStores_iff] at h ⊢
  obtain ⟨hin, hout, htables⟩ := h
  exact ⟨hin, hout.memPut b ha, htables⟩

theorem CanonicalStores.setInByte {a : Nat} (b : Byte) (h : CanonicalStores s) (ha : a < s.cfg.inMemBytes) :
    CanonicalStores (s.setInByte a b) := by
  rw [canonicalStores_iff] at h ⊢
  obtain ⟨hin, houtTables⟩ := h
  exact ⟨hin.memPut b ha, houtTables⟩

/-- One symbol's update of the tree, which counts the symbol as well (R48, R176). -/
theorem CanonicalStores.updateNodes (code : Nat) (h : CanonicalStores s) :
    CanonicalStores { s with nodes := s.nodes.update code, symcount := s.symcount + 1 } := by
  rw [canonicalStores_iff] at h ⊢
  obtain ⟨hin, hout, hnodes, hlinks⟩ := h
  dsimp only
  exact ⟨hin, hout, update_canonical code hnodes, hlinks⟩

/-- An insertion writes one head and one or two links of each kind (R214). -/
theorem CanonicalStores.linkPosition (p : Nat) (h : CanonicalStores s) : CanonicalStores (linkPosition s p) := by
  rw [canonicalStores_iff] at h ⊢
  obtain ⟨hin, hout, hnodes, hhead, hnext, hprev⟩ := h
  unfold Machine.linkPosition
  dsimp only
  refine ⟨hin, hout, hnodes, sparseWf_put (fun _ => none) _ _ hhead, sparseRising_list _ _ hnext, ?_⟩
  cases s.headAt (hashKey s p) with
  | none => exact sparseRising_list _ _ hprev
  | some c => exact sparseRising_list _ _ (sparseRising_list _ _ hprev)

theorem CanonicalStores.insertPosition (p : Nat) (h : CanonicalStores s) : CanonicalStores (insertPosition s p).2 := by
  rcases insertPosition_cases s p with ⟨_, he, _⟩ | ⟨_, he⟩
  · rw [he]
    exact h.linkPosition p
  · rw [he]
    exact h

theorem CanonicalStores.initState (h : CanonicalStores s) : CanonicalStores s.initState := by
  rw [canonicalStores_iff] at h ⊢
  obtain ⟨hin, hout, -, -, hlinks⟩ := h
  exact ⟨hin, hout, rfl, rfl, hlinks⟩

theorem CanonicalStores.readAhead (p : Nat) (h : CanonicalStores s) : CanonicalStores (readAhead p s) := by
  obtain ⟨b, d, he⟩ := readAhead_cases p s
  rw [he]
  exact h

/-! ### Bits and symbols -/

theorem putBit_endsIn_canonical (v : Bool) (h : CanonicalStores s) : (putBit v s).EndsIn CanonicalStores := by
  by_cases hroom : s.outBitpos.toNat / 8 < s.cfg.outMemBytes
  · rw [putBit_room v hroom]
    exact .ok (h.setOutByte _ hroom)
  · rw [putBit_full v (not_lt.1 hroom)]
    exact .abort h

theorem putBits_endsIn_canonical (vs : List Bool) (h : CanonicalStores s) : (putBits vs s).EndsIn CanonicalStores := by
  induction vs generalizing s with
  | nil => exact .ok h
  | cons v vs ih => exact (putBit_endsIn_canonical v h).bind fun _ _ h1 => ih h1

theorem getField_endsIn_canonical (w : Nat) (h : CanonicalStores s) : (getField w s).EndsIn CanonicalStores := by
  rcases getField_cases w s with ⟨v, b, he⟩ | ⟨b, he⟩
  · rw [he]
    exact .ok h
  · rw [he]
    exact .abort h

theorem updateModel_endsIn_canonical (code : Nat) (h : CanonicalStores s) :
    (updateModel code s).EndsIn CanonicalStores := by
  rcases updateModel_cases code s with ⟨_, he⟩ | ⟨_, he⟩
  · rw [he]
    exact .ok (h.updateNodes code)
  · rw [he]
    exact .abort h

theorem encodeSym_endsIn_canonical (code : Nat) (h : CanonicalStores s) :
    (encodeSym code s).EndsIn CanonicalStores := by
  unfold encodeSym
  dsimp only
  generalize s.nodes.codeOf code = path
  have hpath : CanonicalStores { s with pathStack := path } := h
  refine (putBits_endsIn_canonical _ hpath).bind fun _ s1 h1 => ?_
  have hempty : CanonicalStores { s1 with pathStack := [] } := h1
  exact (updateModel_endsIn_canonical code hempty).bind fun _ _ h2 => .ok h2

theorem decodeSym_endsIn_canonical (h : CanonicalStores s) : (decodeSym s).EndsIn CanonicalStores := by
  rcases decodeSym_cases s with ⟨code, n, b, _, he⟩ | ⟨e, i, b, _, he⟩
  · rw [he]
    have hread : CanonicalStores { s with inBitpos := b } := h
    exact .ok (hread.updateNodes code)
  · rw [he]
    exact .abort h

/-! ### COMPRESS and DECOMPRESS -/

theorem decideStep_endsIn_canonical (p : Word) (h : CanonicalStores s) : (decideStep p s).EndsIn CanonicalStores := by
  have hinserted := h.insertPosition p.toNat
  unfold decideStep emitCopy
  refine .ite ?_ ?_
  · refine ((encodeSym_endsIn_canonical _ hinserted).bind fun _ _ h1 => ?_).bind fun _ _ h2 => .ok h2
    exact putBits_endsIn_canonical _ h1
  · exact (encodeSym_endsIn_canonical _ hinserted).bind fun _ _ h1 => .ok (h1.readAhead (p.toNat + 1))

theorem CanonicalStores.copyStep (p len dist rest : Word) (h : CanonicalStores s) :
    CanonicalStores (copyStep p len dist rest s) := by
  have hread := h.readAhead (p.toNat + 1)
  unfold Machine.copyStep
  dsimp only
  split
  · exact hread
  · exact hread.insertPosition (p.toNat + 1)

theorem flushStream_endsIn_canonical (h : CanonicalStores s) : (flushStream s).EndsIn CanonicalStores := by
  refine (encodeSym_endsIn_canonical _ h).bind fun _ _ h1 => ?_
  exact ((putBits_endsIn_canonical _ h1).bind fun _ _ h2 => .ok h2).bind fun _ _ h3 => .ok h3

theorem compressStep_endsIn_canonical (h : CanonicalStores s) : (compressStep s).EndsIn CanonicalStores := by
  unfold compressStep
  cases s.seq with
  | fill => exact .ok (h.readAhead 0)
  | decide p => exact .ite (decideStep_endsIn_canonical p h) (.ok h)
  | copy p len dist rest => exact .ok (h.copyStep p len dist rest)
  | flush => exact (flushStream_endsIn_canonical h).bind fun _ _ h1 => .ok h1
  | _ => exact .ok h

theorem compressLoop_endsIn_canonical (n : Nat) (h : CanonicalStores s) :
    (compressLoop n s).EndsIn CanonicalStores := by
  induction n generalizing s with
  | zero => exact .ok h
  | succ n ih => exact .ite (.ok h) ((compressStep_endsIn_canonical h).bind fun _ _ h1 => ih h1)

theorem copyBytes_endsIn_canonical (n : Nat) (r : Backref) (h : CanonicalStores s) :
    (copyBytes n r s).EndsIn CanonicalStores := by
  induction n generalizing r s with
  | zero => exact .ok h
  | succ n ih => exact (putBits_endsIn_canonical _ h).bind fun _ _ h1 => ih _ h1

theorem copyBackrefStep_endsIn_canonical (r : Backref) (h : CanonicalStores s) :
    (copyBackrefStep r s).EndsIn CanonicalStores := by
  refine (getField_endsIn_canonical _ h).bind fun _ s1 h1 => ?_
  refine (require_endsIn _ _ _ h1).bind fun _ s2 h2 => ?_
  refine (require_endsIn _ _ _ h2).bind fun _ s3 h3 => ?_
  refine (copyBytes_endsIn_canonical _ _ ?_).bind fun _ _ h4 => .ok h4
  exact h3

theorem decompressStep_endsIn_canonical (h : CanonicalStores s) : (decompressStep s).EndsIn CanonicalStores := by
  unfold decompressStep
  cases s.seq with
  | decodeCode => exact (decodeSym_endsIn_canonical h).bind fun _ _ h1 => .ok h1
  | emitLiteral code => exact (putBits_endsIn_canonical _ h).bind fun _ _ h1 => .ok h1
  | copyBackref r => exact copyBackrefStep_endsIn_canonical r h
  | _ => exact .ok h

theorem decompressLoop_endsIn_canonical (n : Nat) (h : CanonicalStores s) :
    (decompressLoop n s).EndsIn CanonicalStores := by
  induction n generalizing s with
  | zero => exact .ok h
  | succ n ih => exact .ite (.ok h) ((decompressStep_endsIn_canonical h).bind fun _ _ h1 => ih h1)

/-! ### The commands and the engine's turn -/

/-- The body of every command keeps the stores canonical. -/
theorem exec_body_endsIn_canonical (i : Instr) (h : CanonicalStores s) :
    ∃ r, exec i s = finish r ∧ r.EndsIn CanonicalStores := by
  cases i with
  | nop => exact ⟨_, rfl, .ok h⟩
  | init => exact ⟨_, rfl, .ok h.initState⟩
  | compress =>
    refine ⟨_, rfl, (require_endsIn _ _ _ h).bind fun _ s1 h1 => ?_⟩
    refine (compressLoop_endsIn_canonical _ ?_).bind fun _ _ h2 => .ok h2
    exact h1.initState
  | decompress =>
    refine ⟨_, rfl, (require_endsIn _ _ _ h).bind fun _ s1 h1 => ?_⟩
    refine (decompressLoop_endsIn_canonical _ ?_).bind fun _ _ h2 => .ok h2
    exact h1.initState
  | mupd =>
    refine ⟨_, rfl, (require_endsIn _ _ _ h).bind fun _ s1 h1 => ?_⟩
    exact (updateModel_endsIn_canonical _ h1).bind fun _ _ h2 => .ok h2
  | henc =>
    refine ⟨_, rfl, (require_endsIn _ _ _ h).bind fun _ s1 h1 => ?_⟩
    exact (encodeSym_endsIn_canonical _ h1).bind fun _ _ h2 => .ok h2
  | hdec =>
    refine ⟨_, rfl, (require_endsIn _ _ _ h).bind fun _ s1 h1 => ?_⟩
    exact (decodeSym_endsIn_canonical h1).bind fun _ _ h2 => .ok h2
  | putf =>
    refine ⟨_, rfl, (require_endsIn _ _ _ h).bind fun _ s1 h1 => ?_⟩
    exact (putBits_endsIn_canonical _ h1).bind fun _ _ h2 => .ok h2
  | getf =>
    refine ⟨_, rfl, (require_endsIn _ _ _ h).bind fun _ s1 h1 => ?_⟩
    refine (require_endsIn _ _ _ h1).bind fun _ s2 h2 => ?_
    exact (getField_endsIn_canonical _ h2).bind fun _ _ h3 => .ok h3
  | flsh =>
    exact ⟨_, rfl, ((putBits_endsIn_canonical _ h).bind fun _ _ h1 => .ok h1).bind fun _ _ h2 => .ok h2⟩
  | hins =>
    refine ⟨_, rfl, (require_endsIn _ _ _ h).bind fun _ s1 h1 => ?_⟩
    refine (require_endsIn _ _ _ h1).bind fun _ s2 h2 => ?_
    exact .ok (h2.insertPosition _)
  | fmat =>
    refine ⟨_, rfl, (require_endsIn _ _ _ h).bind fun _ s1 h1 => ?_⟩
    exact (require_endsIn _ _ _ h1).bind fun _ _ h2 => .ok h2
  | nread | rfnd | rrd | mscan =>
    exact ⟨_, rfl, (require_endsIn _ _ _ h).bind fun _ _ h1 => .ok h1⟩

end Moves

section Events

variable {s t : State}

theorem finish_canonicalStores {r : CmdRes Results} (hr : r.EndsIn CanonicalStores) (ht : finish r = .next t) :
    CanonicalStores t := by
  obtain ⟨u, hu, ⟨x, rfl⟩ | ⟨e, i, rfl⟩⟩ := finish_endsIn hr ht
  · exact hu
  · exact hu

/-- The engine's turn between steps, where no command is under way (R382). -/
theorem engineStep_canonicalStores (hc : CursorsBounded s) (hs : CanonicalStores s) (ht : engineStep s = .next t) :
    CanonicalStores t := by
  rcases engineStep_cases s with ⟨_, he⟩ | ⟨w, i, _, _, he⟩ | ⟨w, e, _, _, he⟩ | ⟨hidle, hrun, _⟩
  · cases he.symm.trans ht
    exact hs
  · obtain ⟨r, hexec, hr⟩ := exec_body_endsIn_canonical i hs
    exact finish_canonicalStores hr (hexec.symm.trans (he.symm.trans ht))
  · cases he.symm.trans ht
    exact hs
  · obtain ⟨-, h | ⟨w, h⟩, -⟩ := hc
    · exact absurd h hidle
    · exact absurd h (hrun w)

/-- No command changes the platform (R9). -/
theorem engineStep_cfg (ht : engineStep s = .next t) : t.cfg = s.cfg := by
  rcases engineStep_keeps (BodyFrame.keptByMoves s) (BodyFrame.refl s) with ⟨_, he⟩ | ⟨_, r, he, hr⟩
  · cases he.symm.trans ht
    rfl
  · obtain ⟨u, ⟨hcfg, -⟩, ⟨x, rfl⟩ | ⟨e, info, -, rfl⟩⟩ := finish_keeps hr (he.symm.trans ht)
    · exact hcfg
    · exact hcfg

/-- A reset leaves free only bytes below the running command's last cursor, which stands inside `OUT` (R371, log 8). -/
theorem outAfterReset_storedBelow (hc : CursorsBounded s) (h : Memory.StoredBelow s.outMem s.cfg.outMemBytes) :
    Memory.StoredBelow (outAfterReset s) s.cfg.outMemBytes := by
  obtain ⟨u, hu⟩ := engineStep_next s
  have hafter : afterEngine s = u := by simp [afterEngine, hu]
  obtain ⟨-, -, hstop, -⟩ := engineStep_cursorsBounded hc hu
  rw [engineStep_cfg hu] at hstop
  unfold outAfterReset
  rw [hafter]
  dsimp only
  split
  · split
    · rename_i hlt
      exact h.tearOut _ (by omega)
    · exact h
  · exact h

theorem CanonicalStores.hardwareReset (hc : CursorsBounded s) (h : CanonicalStores s) :
    CanonicalStores s.hardwareReset := by
  rw [canonicalStores_iff] at h ⊢
  obtain ⟨hin, hout, -, -, hlinks⟩ := h
  exact ⟨hin, outAfterReset_storedBelow hc hout, rfl, rfl, hlinks⟩

/-- No register write touches a memory or a table (R30). -/
theorem CanonicalStores.hostWriteOffset (offset : Nat) (v : Word) (h : CanonicalStores s) :
    CanonicalStores (s.hostWriteOffset offset v) := by
  unfold State.hostWriteOffset
  split
  · exact h
  · split
    · rename_i r _
      cases r <;> exact h
    · exact h

theorem takeEvent_canonicalStores (e : Event) (hc : CursorsBounded s) (hs : CanonicalStores s)
    (ht : takeEvent e s = .next t) : CanonicalStores t := by
  cases e with
  | engine => exact engineStep_canonicalStores hc hs ht
  | reset =>
    cases ht
    exact hs.hardwareReset hc
  | busRead addr size =>
    obtain ⟨v, k, rfl⟩ := hostBusRead_next ht
    exact hs
  | busWrite addr size v =>
    obtain rfl | ⟨offset, rfl⟩ := hostBusWrite_next ht
    · exact hs
    · exact hs.hostWriteOffset offset v
  | inRead a =>
    obtain ⟨v, k, rfl⟩ := hostInRead_next ht
    exact hs
  | inWrite a b =>
    obtain ⟨ha, -⟩ := (hostInWrite_isNext_iff a b s).1 ⟨t, ht⟩
    obtain rfl := hostInWrite_next ht
    exact hs.setInByte b ha
  | outRead a =>
    obtain ⟨v, k, rfl⟩ := hostOutRead_next ht
    exact hs
  | outWrite a b =>
    obtain ⟨ha, -⟩ := (hostOutWrite_isNext_iff a b s).1 ⟨t, ht⟩
    obtain rfl := hostOutWrite_next ht
    exact hs.setOutByte b ha

end Events

/-- Settles O51, by the two forms of a step; the cursor invariant bounds the bytes that a reset leaves free. -/
theorem canonicalStoresKept : Obligations.CanonicalStoresKept := by
  unfold Obligations.CanonicalStoresKept
  intro s t hc hs ht
  rcases step_cases s with ⟨_, he⟩ | ⟨e, rest, _, he⟩
  · exact engineStep_canonicalStores hc hs (he.symm.trans ht)
  · exact takeEvent_canonicalStores (s := { s with agenda := rest }) e hc hs (he.symm.trans ht)

end Sys2Proof.Machine
end

section
/-! PROOFS. The command word (30_encoding R110, R112, R116): the decoder as an `↔` on the word's two fields, its inverse, and
what the engine does with a legal and with an illegal word (R113, R116, 70_reset R382). -/

namespace Sys2Proof.Machine

/-! ### The fields of a command word (R110) -/

theorem opcField_toNat (w : Word) : (opcField w).toNat = w.toNat % 256 := by
  simp [opcField]

theorem rsvdField_eq_zero_iff (w : Word) : rsvdField w = 0 ↔ w.toNat < 256 := by
  have hlt := w.isLt
  simp only [rsvdField, ← BitVec.toNat_inj, BitVec.extractLsb'_toNat, Nat.shiftRight_eq_div_pow]
  simp only [BitVec.ofNat_eq_ofNat, BitVec.toNat_ofNat]
  omega

theorem encode_toNat (i : Instr) : (encode i).toNat = (opcodeOf i).toNat :=
  BitVec.toNat_setWidth_of_le (by decide)

/-- A command's word is the one whose RSVD is 0 and whose OPC is the command's opcode. -/
theorem eq_encode_iff (w : Word) (i : Instr) : w = encode i ↔ rsvdField w = 0 ∧ opcField w = opcodeOf i := by
  have hopc := (opcodeOf i).isLt
  rw [rsvdField_eq_zero_iff, ← BitVec.toNat_inj, ← BitVec.toNat_inj, encode_toNat, opcField_toNat]
  omega

/-! ### The opcode map (R112) -/

theorem opcodeMap_opcodeOf (i : Instr) : opcodeMap (opcodeOf i) = some i := by
  cases i <;> rfl

/-- No opcode but a command's own leads to it. -/
theorem opcodeMap_eq_some_iff (opc : BitVec 8) (i : Instr) : opcodeMap opc = some i ↔ opc = opcodeOf i := by
  constructor
  · intro h
    unfold opcodeMap at h
    split at h <;> cases h
    all_goals
      rename_i hopc
      exact BitVec.eq_of_toNat_eq hopc
  · rintro rfl
    exact opcodeMap_opcodeOf i

/-- The ranges of numbers that the opcode map of R112 assigns. -/
def AssignedOpcode (n : Nat) : Prop :=
  n ≤ 0x03 ∨ (0x10 ≤ n ∧ n ≤ 0x13) ∨ (0x20 ≤ n ∧ n ≤ 0x24) ∨ (0x30 ≤ n ∧ n ≤ 0x32)

/-- The opcode map names a command exactly for the numbers of its ranges. -/
theorem exists_opcodeMap_iff (opc : BitVec 8) : (∃ i, opcodeMap opc = some i) ↔ AssignedOpcode opc.toNat := by
  unfold opcodeMap AssignedOpcode
  split
  case h_17 =>
    -- the default row of the map, whose hypotheses exclude every listed number
    simp only [reduceCtorEq, exists_false, false_iff, imp_false] at *
    omega
  all_goals
    rename_i hopc
    simp [hopc]

theorem opcodeAssigned_iff (w : Word) : opcodeAssigned w = true ↔ AssignedOpcode (opcField w).toNat := by
  simp [opcodeAssigned, AssignedOpcode, opcField, or_assoc]

/-! ### The decoder -/

theorem decode_eq_ok_iff_fields (w : Word) (i : Instr) :
    decode w = .ok i ↔ rsvdField w = 0 ∧ opcodeMap (opcField w) = some i := by
  unfold decode
  split
  · rename_i hrsvd
    cases opcodeMap (opcField w) <;> simp [hrsvd]
  · rename_i hrsvd
    exact ⟨nofun, fun ⟨hzero, _⟩ => absurd hzero hrsvd⟩

/-- The decoder inverts the encoder (R112). -/
theorem decode_eq_ok_iff (w : Word) (i : Instr) : decode w = .ok i ↔ w = encode i := by
  rw [decode_eq_ok_iff_fields, opcodeMap_eq_some_iff, eq_encode_iff]

theorem decode_encode (i : Instr) : decode (encode i) = .ok i := (decode_eq_ok_iff _ i).2 rfl

/-- The words that decode are the well-formed ones (R110, R112). -/
theorem wordWellFormed_iff_decodes (w : Word) : wordWellFormed w = true ↔ ∃ i, decode w = .ok i := by
  have hrsvd : reservedClear w = true ↔ rsvdField w = 0 := by simp [reservedClear, rsvdField]
  simp only [wordWellFormed, Bool.and_eq_true, decode_eq_ok_iff_fields, exists_and_left, exists_opcodeMap_iff,
    opcodeAssigned_iff, hrsvd]

/-- The same in the number of the word, as R116 counts it. -/
theorem wordWellFormed_iff_toNat (w : Word) :
    wordWellFormed w = true ↔ w.toNat < 256 ∧ AssignedOpcode (w.toNat % 256) := by
  rw [wordWellFormed_iff_decodes]
  simp only [decode_eq_ok_iff_fields, exists_and_left, exists_opcodeMap_iff, rsvdField_eq_zero_iff, opcField_toNat]

/-- Settles O1, by the two fields: RSVD must be 0, and the opcode map is inverse to the commands' opcodes. -/
theorem decodeInvertsEncode : Obligations.DecodeInvertsEncode := by
  unfold Obligations.DecodeInvertsEncode
  exact ⟨decode_eq_ok_iff, wordWellFormed_iff_decodes⟩

/-- Settles O2: the five legal words are their commands' encodings. -/
theorem knownCommandWords : Obligations.KnownCommandWords := by
  unfold Obligations.KnownCommandWords
  exact ⟨decode_encode .nop, decode_encode .compress, decode_encode .henc, decode_encode .putf, decode_encode .mscan,
    by decide, by decide⟩

/-! ### The engine's turn on a command word -/

section Run

variable {s : State} {w : Word}

/-- A legal word runs its command (R113). -/
theorem engineStep_of_decode {i : Instr} (hseq : s.seq = .run w) (hw : decode w = .ok i) : engineStep s = exec i s := by
  unfold engineStep
  rw [hseq]
  simp only [hw]

/-- An illegal word aborts (R116). -/
theorem engineStep_of_illegal (hseq : s.seq = .run w) (hw : wordWellFormed w = false) :
    engineStep s = .next (s.afterAbort .illegalCommand w) := by
  cases hdec : decode w with
  | ok i =>
    have hlegal : wordWellFormed w = true := (wordWellFormed_iff_decodes w).2 ⟨i, hdec⟩
    exact absurd hlegal (by simp [hw])
  | error e =>
    unfold engineStep
    rw [hseq]
    simp only [hdec]
    rfl

theorem engineStep_of_idle (hseq : s.seq = .idle) : engineStep s = .next s := by
  unfold engineStep
  rw [hseq]

theorem step_of_agenda_nil (h : s.agenda = []) : step s = engineStep s := by
  unfold step
  rw [h]

end Run

/-- Settles O3: the gaps that R116 lists are the numbers that the opcode map leaves out. -/
theorem illegalWordsAbort : Obligations.IllegalWordsAbort := by
  unfold Obligations.IllegalWordsAbort
  intro s w hseq opc illegal
  have hlegal : wordWellFormed w = true ↔ ¬ illegal := by
    rw [wordWellFormed_iff_toNat]
    simp only [AssignedOpcode, illegal, opc]
    omega
  constructor
  · intro h
    exact engineStep_of_illegal hseq (Bool.eq_false_iff.2 fun hw => hlegal.1 hw h)
  · intro h
    obtain ⟨i, hi⟩ := (wordWellFormed_iff_decodes w).1 (hlegal.2 h)
    exact ⟨i, (decode_eq_ok_iff w i).1 hi, engineStep_of_decode hseq hi⟩

/-- All 32 bits of a word given, the table's word is the word itself. -/
theorem tableWord_toNat (w : Word) : tableWord 32 w.toNat = w := by
  simp [tableWord, Nat.mod_eq_of_lt w.isLt]

/-- Settles O4: each way for the engine's turn to come leads to `engineStep`, which runs what the word decodes to. -/
theorem stepRunsDecodedCommand : Obligations.StepRunsDecodedCommand := by
  unfold Obligations.StepRunsDecodedCommand
  refine ⟨fun s w i hseq hw => ⟨fun hnil => ?_, fun rest hagenda => ?_⟩, fun s hseq hnil => ?_, fun s i => ?_⟩
  · rw [step_of_agenda_nil hnil]
    exact engineStep_of_decode hseq hw
  · rw [step_of_agenda hagenda]
    exact engineStep_of_decode (s := { s with agenda := rest }) hseq hw
  · rw [step_of_agenda_nil hnil]
    exact engineStep_of_idle hseq
  · rw [step_withFetchWord, tableWord_toNat]
    exact engineStep_of_decode rfl (decode_encode i)

end Sys2Proof.Machine
end

section
/-! PROOFS. The copy-code map (30_encoding R8, R119): its formulas with R6's numbers put in, and the two bijections. -/

namespace Sys2Proof.Machine

/-! ### The formulas in numbers -/

theorem copyCode_eq (i len : Nat) : copyCode i len = 254 + len + 62 * i := by
  simp only [copyCode, Config.codesPerRange, Config.firstCode, Config.minCopy, Config.maxCopy]
  omega

theorem copyCodeRange_eq (c : Nat) : copyCodeRange c = (c - 257) / 62 := rfl

theorem copyCodeLength_eq {c : Nat} (h : 257 ≤ c) : copyCodeLength c = c - 254 - 62 * copyCodeRange c := by
  simp only [copyCodeLength, Config.codesPerRange, Config.firstCode, Config.minCopy, Config.maxCopy]
  omega

/-! ### Each map inverts the other -/

theorem copyCode_mem_range {i len : Nat} (hi : i ≤ 5) (hmin : 3 ≤ len) (hmax : len ≤ 64) :
    257 ≤ copyCode i len ∧ copyCode i len ≤ 628 := by
  rw [copyCode_eq]
  omega

theorem copyCodeRange_copyCode (i : Nat) {len : Nat} (hmin : 3 ≤ len) (hmax : len ≤ 64) :
    copyCodeRange (copyCode i len) = i := by
  rw [copyCodeRange_eq, copyCode_eq]
  omega

theorem copyCodeLength_copyCode {i len : Nat} (hmin : 3 ≤ len) (hmax : len ≤ 64) :
    copyCodeLength (copyCode i len) = len := by
  rw [copyCodeLength_eq (by rw [copyCode_eq]; omega), copyCodeRange_copyCode i hmin hmax, copyCode_eq]
  omega

/-- The pair of a copy code lies in `{0..5} × {3..64}`. -/
theorem copyCode_pair_mem_range {c : Nat} (hmin : 257 ≤ c) (hmax : c ≤ 628) :
    copyCodeRange c ≤ 5 ∧ 3 ≤ copyCodeLength c ∧ copyCodeLength c ≤ 64 := by
  rw [copyCodeLength_eq hmin, copyCodeRange_eq]
  omega

theorem copyCode_copyCodeRange_copyCodeLength {c : Nat} (hmin : 257 ≤ c) :
    copyCode (copyCodeRange c) (copyCodeLength c) = c := by
  rw [copyCode_eq, copyCodeLength_eq hmin, copyCodeRange_eq]
  omega

/-- Settles O16, map by map; the four boundary values by the formula. -/
theorem copyCodeMapBijective : Obligations.CopyCodeMapBijective := by
  unfold Obligations.CopyCodeMapBijective
  refine ⟨fun i len hi hmin hmax => ?_, fun c hmin hmax => ?_, copyCode_eq 0 3, copyCode_eq 0 64, copyCode_eq 1 3,
    copyCode_eq 5 64⟩
  · obtain ⟨hlow, hhigh⟩ := copyCode_mem_range hi hmin hmax
    exact ⟨copyCode_eq i len, hlow, hhigh, copyCodeRange_copyCode i hmin hmax, copyCodeLength_copyCode hmin hmax⟩
  · obtain ⟨hrange, hshort, hlong⟩ := copyCode_pair_mem_range hmin hmax
    exact ⟨copyCodeRange_eq c, copyCodeLength_eq hmin, hrange, hshort, hlong,
      copyCode_copyCodeRange_copyCodeLength hmin⟩

end Sys2Proof.Machine
end

section
/-! PROOFS. How every command ends (30_encoding R114, 60_exceptions R340, R350), and which commands write which piece of the
state (10_state sections 1 to 4, 30_encoding R115). -/

namespace Sys2Proof.Machine

/-- Settles O38: both endings, the completion of R114 and the abort of R340, are IDLE and DONE, so that IRQ is CTRL.IE. -/
theorem everyCommandCompletes : Obligations.EveryCommandCompletes := by
  unfold Obligations.EveryCommandCompletes
  intro i s
  obtain ⟨t, ht⟩ := exec_next i s
  refine ⟨t, ht, ?_⟩
  obtain ⟨u, ⟨-, hctrl, hstatus, -⟩, ⟨x, rfl⟩ | ⟨e, info, -, rfl⟩⟩ := exec_ending ht
  all_goals simp [State.irq, hctrl, hstatus]

/-! ### Which commands write which piece of the state -/

/-- The pieces of the state that the commands write, as the rules group them. -/
inductive Piece where
  /-- The tree and SYMCOUNT (R40, R48). -/
  | model
  /-- The heads and the links (R43, R44). -/
  | chains
  /-- The bytes of `OUT` (R81). -/
  | out
  /-- OUT_BITPOS (R38). -/
  | writer
  /-- IN_BITPOS (R39). -/
  | reader
  /-- MODE (R46). -/
  | mode
  /-- BYTES_READ (R49). -/
  | bytesRead
  /-- RES0 (R115). -/
  | res0
  /-- RES1 (R115). -/
  | res1

/-- The commands that may write a piece. -/
def writers : Piece → List Instr
  | .model => [.init, .compress, .decompress, .mupd, .henc, .hdec]
  | .chains => [.init, .compress, .decompress, .hins]
  | .out => [.compress, .decompress, .henc, .putf, .flsh]
  | .writer => [.init, .compress, .decompress, .henc, .putf, .flsh]
  | .reader => [.init, .compress, .decompress, .hdec, .getf]
  | .mode => [.init, .compress, .decompress, .mscan]
  | .bytesRead => [.init, .compress, .decompress]
  | .res0 => [.init, .compress, .decompress, .mupd, .henc, .hdec, .nread, .getf, .flsh, .rfnd, .rrd, .hins, .fmat, .mscan]
  | .res1 => [.init, .compress, .decompress, .mupd, .henc, .hdec, .nread, .rfnd, .rrd, .fmat, .mscan]

/-- From `s` to `t`, every piece that the command `i` does not write is as it was. -/
structure CommandFrame (i : Instr) (s t : State) : Prop where
  model : i ∉ writers .model → t.nodes = s.nodes ∧ t.symcount = s.symcount
  chains : i ∉ writers .chains → t.head = s.head ∧ t.next = s.next ∧ t.prev = s.prev
  out : i ∉ writers .out → t.outMem = s.outMem
  writer : i ∉ writers .writer → t.outBitpos = s.outBitpos
  reader : i ∉ writers .reader → t.inBitpos = s.inBitpos
  mode : i ∉ writers .mode → t.mode = s.mode
  bytesRead : i ∉ writers .bytesRead → t.bytesRead = s.bytesRead
  res0 : i ∉ writers .res0 → t.res0 = s.res0
  res1 : i ∉ writers .res1 → t.res1 = s.res1

section Frame

variable {i : Instr} {s u : State}

theorem CommandFrame.refl (i : Instr) (s : State) : CommandFrame i s s :=
  ⟨fun _ => ⟨rfl, rfl⟩, fun _ => ⟨rfl, rfl, rfl⟩, fun _ => rfl, fun _ => rfl, fun _ => rfl, fun _ => rfl, fun _ => rfl,
    fun _ => rfl, fun _ => rfl⟩

/-- A command that may write every piece has no frame to keep. -/
theorem CommandFrame.of_writes_all (hi : ∀ p, i ∈ writers p) (s t : State) : CommandFrame i s t where
  model hn := absurd (hi _) hn
  chains hn := absurd (hi _) hn
  out hn := absurd (hi _) hn
  writer hn := absurd (hi _) hn
  reader hn := absurd (hi _) hn
  mode hn := absurd (hi _) hn
  bytesRead hn := absurd (hi _) hn
  res0 hn := absurd (hi _) hn
  res1 hn := absurd (hi _) hn

theorem compress_writes_all (p : Piece) : .compress ∈ writers p := by
  cases p <;> decide

theorem decompress_writes_all (p : Piece) : .decompress ∈ writers p := by
  cases p <;> decide

/-! ### One rule per kind of write -/

theorem CommandFrame.setModel (h : CommandFrame i s u) (hi : i ∈ writers .model) (nodes : Arena) (symcount : Word) :
    CommandFrame i s { u with nodes := nodes, symcount := symcount } :=
  { h with model := fun hn => absurd hi hn }

theorem CommandFrame.setChains (h : CommandFrame i s u) (hi : i ∈ writers .chains) (head next prev : LinkTable) :
    CommandFrame i s { u with head := head, next := next, prev := prev } :=
  { h with chains := fun hn => absurd hi hn }

theorem CommandFrame.setOut (h : CommandFrame i s u) (hi : i ∈ writers .out) (hw : i ∈ writers .writer) (outMem : Memory)
    (outBitpos : Word) : CommandFrame i s { u with outMem := outMem, outBitpos := outBitpos } :=
  { h with out := fun hn => absurd hi hn, writer := fun hn => absurd hw hn }

theorem CommandFrame.setReader (h : CommandFrame i s u) (hi : i ∈ writers .reader) (inBitpos : Word) :
    CommandFrame i s { u with inBitpos := inBitpos } :=
  { h with reader := fun hn => absurd hi hn }

theorem CommandFrame.setMode (h : CommandFrame i s u) (hi : i ∈ writers .mode) (mode : Mode) :
    CommandFrame i s { u with mode := mode } :=
  { h with mode := fun hn => absurd hi hn }

/-- The path stack is no piece: it holds nothing between commands (R51). -/
theorem CommandFrame.setPathStack (h : CommandFrame i s u) (pathStack : List Bool) :
    CommandFrame i s { u with pathStack := pathStack } :=
  { h with }

/-- INIT leaves `OUT` as it is (R321). -/
theorem CommandFrame.initState (s : State) : CommandFrame .init s s.initState where
  model hn := absurd (by decide) hn
  chains hn := absurd (by decide) hn
  out _ := rfl
  writer hn := absurd (by decide) hn
  reader hn := absurd (by decide) hn
  mode hn := absurd (by decide) hn
  bytesRead hn := absurd (by decide) hn
  res0 _ := rfl
  res1 _ := rfl

/-! ### The sub-steps -/

theorem putBits_endsIn_frame (vs : List Bool) (h : CommandFrame i s u) (hi : i ∈ writers .out) (hw : i ∈ writers .writer) :
    (putBits vs u).EndsIn (CommandFrame i s) := by
  rcases putBits_cases vs u with ⟨m, b, he⟩ | ⟨m, b, he⟩
  · rw [he]
    exact .ok (h.setOut hi hw m b)
  · rw [he]
    exact .abort (h.setOut hi hw m b)

theorem flush_endsIn_frame (h : CommandFrame i s u) (hi : i ∈ writers .out) (hw : i ∈ writers .writer) :
    (flush u).EndsIn (CommandFrame i s) :=
  (putBits_endsIn_frame _ h hi hw).bind fun _ _ h1 => .ok h1

theorem getField_endsIn_frame (w : Nat) (h : CommandFrame i s u) (hi : i ∈ writers .reader) :
    (getField w u).EndsIn (CommandFrame i s) := by
  rcases getField_cases w u with ⟨v, b, he⟩ | ⟨b, he⟩
  · rw [he]
    exact .ok (h.setReader hi b)
  · rw [he]
    exact .abort (h.setReader hi b)

theorem updateModel_endsIn_frame (code : Nat) (h : CommandFrame i s u) (hi : i ∈ writers .model) :
    (updateModel code u).EndsIn (CommandFrame i s) := by
  rcases updateModel_cases code u with ⟨_, he⟩ | ⟨_, he⟩
  · rw [he]
    exact .ok (h.setModel hi _ _)
  · rw [he]
    exact .abort h

theorem encodeSym_endsIn_frame (code : Nat) (h : CommandFrame i s u) (hm : i ∈ writers .model) (hi : i ∈ writers .out)
    (hw : i ∈ writers .writer) : (encodeSym code u).EndsIn (CommandFrame i s) := by
  unfold encodeSym
  refine (putBits_endsIn_frame _ (h.setPathStack _) hi hw).bind fun _ _ h1 => ?_
  exact (updateModel_endsIn_frame code (h1.setPathStack _) hm).bind fun _ _ h2 => .ok h2

theorem decodeSym_endsIn_frame (h : CommandFrame i s u) (hm : i ∈ writers .model) (hi : i ∈ writers .reader) :
    (decodeSym u).EndsIn (CommandFrame i s) := by
  rcases decodeSym_cases u with ⟨code, n, b, _, he⟩ | ⟨e, info, b, _, he⟩
  · rw [he]
    exact .ok ((h.setReader hi b).setModel hm _ _)
  · rw [he]
    exact .abort (h.setReader hi b)

theorem CommandFrame.insertPosition (p : Nat) (h : CommandFrame i s u) (hi : i ∈ writers .chains) :
    CommandFrame i s (insertPosition u p).2 := by
  rcases insertPosition_cases u p with ⟨_, he, _, _, _, hl⟩ | ⟨_, he⟩
  · rw [he, hl]
    exact h.setChains hi _ _ _
  · rw [he]
    exact h

/-! ### The commands -/

/-- The state that the outcome `o` leads to, if any, keeps the frame of `i` from `s`. -/
def LeavesFrame (i : Instr) (s : State) (o : Host.Outcome State Fault Refusal) : Prop :=
  ∀ t, o = .next t → CommandFrame i s t

/-- A completion writes only the results it is given (R114, R115). -/
theorem CommandFrame.finish_ok {x : Results} (h : CommandFrame i s u) (h0 : x.res0 = none ∨ i ∈ writers .res0)
    (h1 : x.res1 = none ∨ i ∈ writers .res1) : LeavesFrame i s (finish (.ok x u)) := by
  rintro t ⟨⟩
  refine { h with res0 := fun hn => ?_, res1 := fun hn => ?_ }
  · rw [State.complete_res0, h0.resolve_right hn]
    exact h.res0 hn
  · rw [State.complete_res1, h1.resolve_right hn]
    exact h.res1 hn

/-- A sub-step that keeps the frame, then a rest that keeps it; an abort writes no piece (R340). -/
theorem CmdRes.EndsIn.leavesFrame {α : Type} {r : CmdRes α} {f : α → State → CmdRes Results}
    (hr : r.EndsIn (CommandFrame i s)) (hf : ∀ a v, CommandFrame i s v → LeavesFrame i s (finish (f a v))) :
    LeavesFrame i s (finish (r.bind f)) := by
  cases hr with
  | ok h => exact hf _ _ h
  | abort h =>
    rintro t ⟨⟩
    exact { h with }

/-- A check that passes leaves the state to the rest of the command. -/
theorem require_leavesFrame {b : Bool} {e : ErrCode} {info : Word} {f : Unit → State → CmdRes Results}
    (hf : ∀ v, CommandFrame i s v → LeavesFrame i s (finish (f () v))) :
    LeavesFrame i s (finish ((require b e info s).bind f)) :=
  (require_endsIn b e info (CommandFrame.refl i s)).leavesFrame fun _ v h => hf v h

end Frame

/-- Every command writes only its own pieces of the state. -/
theorem exec_leavesFrame (i : Instr) (s : State) : LeavesFrame i s (exec i s) := by
  cases i with
  | nop => exact (CommandFrame.refl _ s).finish_ok (.inl rfl) (.inl rfl)
  | init => exact (CommandFrame.initState s).finish_ok (.inr (by decide)) (.inr (by decide))
  | compress => exact fun t _ => .of_writes_all compress_writes_all s t
  | decompress => exact fun t _ => .of_writes_all decompress_writes_all s t
  | mupd =>
    refine require_leavesFrame fun _ h => ?_
    refine (updateModel_endsIn_frame _ h (by decide)).leavesFrame fun _ _ h1 => ?_
    exact h1.finish_ok (.inr (by decide)) (.inr (by decide))
  | henc =>
    refine require_leavesFrame fun _ h => ?_
    refine (encodeSym_endsIn_frame _ h (by decide) (by decide) (by decide)).leavesFrame fun _ _ h1 => ?_
    exact h1.finish_ok (.inr (by decide)) (.inr (by decide))
  | hdec =>
    refine require_leavesFrame fun _ h => ?_
    refine (decodeSym_endsIn_frame h (by decide) (by decide)).leavesFrame fun _ _ h1 => ?_
    exact h1.finish_ok (.inr (by decide)) (.inr (by decide))
  | putf =>
    refine require_leavesFrame fun _ h => ?_
    refine (putBits_endsIn_frame _ h (by decide) (by decide)).leavesFrame fun _ _ h1 => ?_
    exact h1.finish_ok (.inl rfl) (.inl rfl)
  | getf =>
    refine require_leavesFrame fun _ h => ?_
    refine (require_endsIn _ _ _ h).leavesFrame fun _ _ h1 => ?_
    refine (getField_endsIn_frame _ h1 (by decide)).leavesFrame fun _ _ h2 => ?_
    exact h2.finish_ok (.inr (by decide)) (.inl rfl)
  | flsh =>
    refine (flush_endsIn_frame (.refl _ s) (by decide) (by decide)).leavesFrame fun _ _ h => ?_
    exact h.finish_ok (.inr (by decide)) (.inl rfl)
  | hins =>
    refine require_leavesFrame fun _ h => ?_
    refine (require_endsIn _ _ _ h).leavesFrame fun _ _ h1 => ?_
    exact (h1.insertPosition _ (by decide)).finish_ok (.inr (by decide)) (.inl rfl)
  | fmat =>
    refine require_leavesFrame fun _ h => ?_
    refine (require_endsIn _ _ _ h).leavesFrame fun _ _ h1 => ?_
    exact h1.finish_ok (.inr (by decide)) (.inr (by decide))
  | mscan =>
    refine require_leavesFrame fun _ h => ?_
    exact (h.setMode (by decide) _).finish_ok (.inr (by decide)) (.inr (by decide))
  | nread | rfnd | rrd => exact require_leavesFrame fun _ h => h.finish_ok (.inr (by decide)) (.inr (by decide))

theorem nop_putf_keep_res0 : ∀ i ∈ [Instr.nop, .putf], i ∉ writers .res0 := by decide

theorem five_commands_keep_res1 : ∀ i ∈ [Instr.nop, .putf, .getf, .flsh, .hins], i ∉ writers .res1 := by decide

/-- Settles O42: each piece is one field of the frame that every command leaves. -/
theorem onlyWritersChange : Obligations.OnlyWritersChange := by
  unfold Obligations.OnlyWritersChange
  intro i s t ht
  have h : CommandFrame i s t := exec_leavesFrame i s t ht
  exact ⟨h.model, h.chains, h.out, h.writer, h.reader, h.mode, h.bytesRead,
    fun hi => h.res0 (nop_putf_keep_res0 i hi), fun hi => h.res1 (five_commands_keep_res1 i hi)⟩

end Sys2Proof.Machine
end

section
/-! PROOFS. The bit codec and the copy-range table (40_bitcodec R140 to R153). The writer's effect `WritesBits` composes, so
that of a list of bits follows from that of one; the reader's is the list of stream bits it has passed. Each is said twice:
as far as there is room or stream, and past it. -/

namespace Sys2Proof.Machine

/-! ### The check before a command's body, and the two endings in the words of the claims -/

section Check

variable {p : Prop} [Decidable p] {e : ErrCode} {i : Word} {s : State}

theorem require_bind_of_pass {α : Type} {f : Unit → State → CmdRes α} (hp : p) :
    (require (decide p) e i s).bind f = f () s := by
  rw [decide_eq_true hp, require_true, CmdRes.bind_ok]

/-- A failed operand check is the whole command: it aborts in the state it started in (R111). -/
theorem finish_require_bind_of_fail {f : Unit → State → CmdRes Results} (hp : ¬ p) :
    finish ((require (decide p) e i s).bind f) = .next (s.afterAbort e i) := by
  rw [decide_eq_false hp, require_false, CmdRes.bind_abort, finish_abort]
  rfl

end Check

/-! ### One bit written (R140) -/

/-- Stream bit `c` of a byte that holds only the bit of stream position `b` (R84). -/
theorem getLsbD_byteWithBit (v : Bool) (b c : Nat) :
    (byteWithBit v b).getLsbD (7 - c % 8) = (v && decide (c % 8 = b % 8)) := by
  rw [Bool.eq_iff_iff]
  cases v with
  | false => simp [byteWithBit]
  | true =>
    simp only [byteWithBit, bitInByte, Bool.toNat_true, BitVec.getLsbD_shiftLeft, BitVec.getLsbD_one, Nat.ofNat_pos,
      decide_true, Bool.true_and, Bool.and_eq_true, decide_eq_true_eq, Bool.not_eq_true', decide_eq_false_iff_not]
    omega

section Writer

variable {s u t : State}

/-- `PutBit` with room, bit by bit: in the byte of the cursor, the bits that a new byte does not clear stay, and the bit is
or-ed in at the cursor. -/
theorem outBit_putBit {v : Bool} (hroom : s.outBitpos.toNat / 8 < s.cfg.outMemBytes) (hu : putBit v s = .ok () u)
    (b : Nat) :
    u.outBit b = if b / 8 = s.outBitpos.toNat / 8
      then (decide (s.outBitpos.toNat % 8 ≠ 0) && s.outBit b) || (v && decide (b = s.outBitpos.toNat))
      else s.outBit b := by
  rw [putBit_room v hroom] at hu
  cases hu
  simp only [State.outBit, State.outByte, memGet_memPut]
  by_cases hbyte : b / 8 = s.outBitpos.toNat / 8
  · have hplace : decide (b = s.outBitpos.toNat) = decide (b % 8 = s.outBitpos.toNat % 8) :=
      decide_eq_decide.2 (by omega)
    rw [if_pos hbyte, if_pos hbyte.symm, BitVec.getLsbD_or, getLsbD_byteWithBit, hplace, hbyte]
    by_cases hnew : s.outBitpos.toNat % 8 = 0 <;> simp [hnew]
  · rw [if_neg hbyte, if_neg (Ne.symm hbyte)]

theorem putBit_writesBits (v : Bool) (hwf : s.cfg.wf) (hroom : s.outBitpos.toNat < 8 * s.cfg.outMemBytes) :
    ∃ m b, putBit v s = .ok () { s with outMem := m, outBitpos := b }
      ∧ WritesBits s { s with outMem := m, outBitpos := b } [v] := by
  obtain ⟨-, -, -, hsize⟩ := hwf
  have hput := putBit_room v (s := s) (by omega)
  have hbit := outBit_putBit (by omega) hput
  refine ⟨_, _, hput, cursor_succ_toNat hroom hsize, fun b hge hlt => ?_, fun b hlt => ?_, fun a hge => ?_⟩
  · have hbyte : b / 8 = s.outBitpos.toNat / 8 := by simp only [List.length_singleton] at hlt; omega
    rw [hbit, if_pos hbyte]
    by_cases hb : b = s.outBitpos.toNat
    · simp [hb, State.staleBit, Bool.or_comm]
    · have hpast : b - s.outBitpos.toNat ≠ 0 := by omega
      simp [hb, hbyte, State.staleBit, hpast]
  · rw [hbit]
    split
    · have hpartial : s.outBitpos.toNat % 8 ≠ 0 := by omega
      simp [hlt.ne, hpartial]
    · rfl
  · exact memGet_memPut_other _ _ (by simp only [List.length_singleton] at hge; omega)

/-! ### Bits after bits -/

theorem WritesBits.outBitpos_toNat {vs : List Bool} (h : WritesBits s u vs) :
    u.outBitpos.toNat = s.outBitpos.toNat + vs.length := by
  obtain ⟨hpos, -⟩ := h
  exact hpos

theorem WritesBits.nil (s : State) : WritesBits s s [] := by
  refine ⟨rfl, fun b hge hlt => ?_, fun _ _ => rfl, fun _ _ => rfl⟩
  have hpartial : s.outBitpos.toNat % 8 ≠ 0 ∧ b / 8 = s.outBitpos.toNat / 8 := by
    simp only [List.length_nil] at hlt
    omega
  simp [State.staleBit, hpartial]

/-- Past the written bits, the partial byte holds the stale 1s it held before them. -/
theorem WritesBits.staleBit {vs : List Bool} (h : WritesBits s u vs) {b : Nat}
    (hb : s.outBitpos.toNat + vs.length ≤ b) : u.staleBit b = s.staleBit b := by
  obtain ⟨hpos, hbits, -, -⟩ := h
  by_cases hin : u.outBitpos.toNat % 8 ≠ 0 ∧ b / 8 = u.outBitpos.toNat / 8
  · have hbit := hbits b (by omega) (by omega)
    rw [List.getD_eq_default _ _ (by omega), Bool.false_or] at hbit
    rw [← hbit]
    simp [State.staleBit, hin]
  · have hout : ¬ (s.outBitpos.toNat % 8 ≠ 0 ∧ b / 8 = s.outBitpos.toNat / 8) := by omega
    rw [State.staleBit, State.staleBit, decide_eq_false hin, decide_eq_false hout, Bool.false_and, Bool.false_and]

theorem WritesBits.append {vs ws : List Bool} (h : WritesBits s u vs) (h' : WritesBits u t ws) :
    WritesBits s t (vs ++ ws) := by
  have hstale := fun b => h.staleBit (b := b)
  obtain ⟨hpos, hbits, hbefore, hafter⟩ := h
  obtain ⟨hpos', hbits', hbefore', hafter'⟩ := h'
  have hlen : s.outBitpos.toNat + (vs ++ ws).length = u.outBitpos.toNat + ws.length := by
    rw [List.length_append, hpos]
    omega
  rw [WritesBits, hlen]
  refine ⟨hpos', fun b hge hlt => ?_, fun b hlt => ?_, fun a hge => ?_⟩
  · by_cases hfirst : b < u.outBitpos.toNat
    · rw [hbefore' b hfirst, hbits b hge (by omega), List.getD_append _ _ _ _ (by omega)]
    · rw [hbits' b (by omega) hlt, hstale b (by omega), List.getD_append_right _ _ _ _ (by omega), hpos, Nat.sub_sub]
  · rw [hbefore' b (by omega), hbefore b hlt]
  · rw [hafter' a hge, hafter a (by omega)]

/-- With room for all of them, the writer writes its bits; for no bits there is always room. -/
theorem putBits_writesBits (vs : List Bool) (hwf : s.cfg.wf)
    (hroom : vs = [] ∨ s.outBitpos.toNat + vs.length ≤ 8 * s.cfg.outMemBytes) :
    ∃ m b, putBits vs s = .ok () { s with outMem := m, outBitpos := b }
      ∧ WritesBits s { s with outMem := m, outBitpos := b } vs := by
  induction vs generalizing s with
  | nil => exact ⟨s.outMem, s.outBitpos, rfl, .nil s⟩
  | cons v vs ih =>
    have hfit : s.outBitpos.toNat + (vs.length + 1) ≤ 8 * s.cfg.outMemBytes := by simpa using hroom
    obtain ⟨m, b, hput, hwrites⟩ := putBit_writesBits v hwf (by omega)
    have hpos : b.toNat = s.outBitpos.toNat + 1 := hwrites.outBitpos_toNat
    obtain ⟨m', b', hputs, hwrites'⟩ := ih (s := { s with outMem := m, outBitpos := b }) hwf (.inr (by dsimp only; omega))
    refine ⟨m', b', ?_, hwrites.append hwrites'⟩
    rw [putBits, hput, CmdRes.bind_ok, hputs]

/-- Without room for all of them, the writer writes those that fit and stops at the first that does not (R343). -/
theorem putBits_overflow (vs : List Bool) (hwf : s.cfg.wf) (hne : vs ≠ [])
    (hfull : 8 * s.cfg.outMemBytes < s.outBitpos.toNat + vs.length) :
    ∃ m b, putBits vs s = .abort .outputOverflow b { s with outMem := m, outBitpos := b }
      ∧ WritesBits s { s with outMem := m, outBitpos := b } (vs.take (8 * s.cfg.outMemBytes - s.outBitpos.toNat)) := by
  induction vs generalizing s with
  | nil => exact absurd rfl hne
  | cons v vs ih =>
    by_cases hroom : s.outBitpos.toNat < 8 * s.cfg.outMemBytes
    · rw [List.length_cons] at hfull
      obtain ⟨m, b, hput, hwrites⟩ := putBit_writesBits v hwf hroom
      have hpos : b.toNat = s.outBitpos.toNat + 1 := hwrites.outBitpos_toNat
      have hne' : vs ≠ [] := List.ne_nil_of_length_pos (by omega)
      obtain ⟨m', b', hputs, hwrites'⟩ :=
        ih (s := { s with outMem := m, outBitpos := b }) hwf hne' (by dsimp only; omega)
      have hleft : 8 * s.cfg.outMemBytes - s.outBitpos.toNat = (8 * s.cfg.outMemBytes - b.toNat) + 1 := by omega
      refine ⟨m', b', ?_, ?_⟩
      · rw [putBits, hput, CmdRes.bind_ok, hputs]
      · rw [hleft, List.take_succ_cons]
        exact hwrites.append hwrites'
    · refine ⟨s.outMem, s.outBitpos, ?_, ?_⟩
      · rw [putBits, putBit_full v (by omega), CmdRes.bind_abort]
      · rw [Nat.sub_eq_zero_of_le (by omega), List.take_zero]
        exact .nil s

end Writer

/-! ### PUTF and FLSH -/

theorem length_fieldBits (v : Word) (w : Nat) : (fieldBits v w).length = w := by
  simp [fieldBits]

/-- PUTF after its width check is the writer on the field's bits (R144, R145). -/
theorem exec_putf_of_width {s : State} (hw : s.arg1.toNat ≤ 16) :
    exec .putf s = finish ((putBits (fieldBits s.arg0 s.arg1.toNat) s).bind fun _ s1 => .ok { } s1) :=
  congrArg finish (require_bind_of_pass hw)

/-- Settles O11: the width check, then the writer with and without room for the field's bits. -/
theorem putfWritesField : Obligations.PutfWritesField := by
  unfold Obligations.PutfWritesField
  refine ⟨by decide, fun s hwf => ?_⟩
  dsimp only
  have hlen := length_fieldBits s.arg0 s.arg1.toNat
  refine ⟨fun hw => finish_require_bind_of_fail (not_le.2 hw), fun hw hroom => ?_, fun hw hpos hfull => ?_⟩
  · have hfit : fieldBits s.arg0 s.arg1.toNat = []
        ∨ s.outBitpos.toNat + (fieldBits s.arg0 s.arg1.toNat).length ≤ 8 * s.cfg.outMemBytes := by
      rwa [← List.length_eq_zero_iff, hlen]
    obtain ⟨m, b, hput, hwrites⟩ := putBits_writesBits _ hwf hfit
    rw [exec_putf_of_width hw, hput, CmdRes.bind_ok, finish_ok]
    exact ⟨_, rfl, rfl, hwrites⟩
  · have hne : fieldBits s.arg0 s.arg1.toNat ≠ [] := List.ne_nil_of_length_pos (by omega)
    obtain ⟨m, b, hput, hwrites⟩ := putBits_overflow _ hwf hne (by omega)
    rw [exec_putf_of_width hw, hput, CmdRes.bind_abort, finish_abort]
    exact ⟨_, rfl, rfl, hwrites⟩

theorem padCount_fits {s : State} (h : s.outBitpos.toNat ≤ 8 * s.cfg.outMemBytes) :
    s.outBitpos.toNat + padCount s ≤ 8 * s.cfg.outMemBytes := by
  unfold padCount
  omega

/-- Settles O13: the pad bits end with the byte they fill up, so a cursor inside `OUT` leaves room for them. -/
theorem flshPadsToByte : Obligations.FlshPadsToByte := by
  unfold Obligations.FlshPadsToByte
  refine ⟨by decide, fun s hwf hin => ?_⟩
  have hexec : exec .flsh s = finish ((flush s).bind fun k s1 => .ok { res0 := some (BitVec.ofNat 32 k) } s1) := rfl
  by_cases hbyte : s.outBitpos.toNat % 8 = 0
  · have hpad : padCount s = 0 := by simp [padCount, hbyte]
    have hk : (8 - s.outBitpos.toNat % 8) % 8 = 0 := hpad
    rw [hexec, flush, hpad]
    dsimp only
    rw [hk]
    exact ⟨_, rfl, rfl, .nil s, hbyte, fun _ => ⟨rfl, rfl⟩⟩
  · obtain ⟨m, b, hput, hwrites⟩ := putBits_writesBits (List.replicate (padCount s) false) hwf
      (.inr (by rw [List.length_replicate]; exact padCount_fits hin))
    have hpos : b.toNat = s.outBitpos.toNat + padCount s := by
      rw [← List.length_replicate (n := padCount s) (a := false)]
      exact hwrites.outBitpos_toNat
    rw [hexec, flush, hput, CmdRes.bind_ok, CmdRes.bind_ok, finish_ok]
    refine ⟨_, rfl, rfl, hwrites, ?_, fun h => absurd h hbyte⟩
    change b.toNat % 8 = 0
    rw [hpos, padCount]
    omega

/-! ### The bit reader (R143, R144) -/

section Reader

variable {s : State}

theorem inBits_succ (s : State) (b w : Nat) : s.inBits b (w + 1) = s.inBit b :: s.inBits (b + 1) w := by
  simp only [State.inBits, List.range_succ_eq_map, List.map_cons, List.map_map, Nat.add_zero]
  congr 1
  exact List.map_congr_left fun k _ => by rw [Function.comp_apply, Nat.succ_eq_add_one, Nat.add_right_comm, Nat.add_assoc]

/-- With all of them before the end of the stream, the reader answers its next bits; no bits can always be read. -/
theorem getBits_inBits (w : Nat) (hlen : s.inLen.toNat ≤ 2 ^ 28)
    (hmore : w = 0 ∨ s.inBitpos.toNat + w ≤ 8 * s.inLen.toNat) :
    getBits w s = .ok (s.inBits s.inBitpos.toNat w)
      { s with inBitpos := BitVec.ofNat 32 (s.inBitpos.toNat + w) } := by
  induction w generalizing s with
  | zero => simp [getBits, State.inBits]
  | succ w ih =>
    have hlt : s.inBitpos.toNat < 8 * s.inLen.toNat := by omega
    have hnext := cursor_succ_toNat hlt hlen
    rw [getBits, getBit_more hlt, CmdRes.bind_ok, ih (s := { s with inBitpos := s.inBitpos + 1 }) hlen
      (.inr (by dsimp only; omega))]
    dsimp only
    rw [CmdRes.bind_ok, hnext, inBits_succ, Nat.add_assoc, Nat.add_comm 1 w]
    rfl

/-- A read past the end of the stream consumes the bits up to the end and stops there, or where the cursor already was
(R343). -/
theorem getBits_end (w : Nat) (hlen : s.inLen.toNat ≤ 2 ^ 28) (hw : 0 < w)
    (hend : 8 * s.inLen.toNat < s.inBitpos.toNat + w) :
    getBits w s = .abort .streamCorruptionEof (BitVec.ofNat 32 (max s.inBitpos.toNat (8 * s.inLen.toNat)))
      { s with inBitpos := BitVec.ofNat 32 (max s.inBitpos.toNat (8 * s.inLen.toNat)) } := by
  induction w generalizing s with
  | zero => exact absurd hw (lt_irrefl 0)
  | succ w ih =>
    by_cases hlt : s.inBitpos.toNat < 8 * s.inLen.toNat
    · have hnext := cursor_succ_toNat hlt hlen
      have hmax : max (s.inBitpos.toNat + 1) (8 * s.inLen.toNat) = max s.inBitpos.toNat (8 * s.inLen.toNat) := by omega
      rw [getBits, getBit_more hlt, CmdRes.bind_ok, ih (s := { s with inBitpos := s.inBitpos + 1 }) hlen (by omega)
        (by dsimp only; omega)]
      dsimp only
      rw [CmdRes.bind_abort, hnext, hmax]
    · rw [getBits, getBit_end (not_lt.1 hlt), CmdRes.bind_abort, max_eq_left (not_lt.1 hlt), BitVec.ofNat_toNat,
        BitVec.setWidth_eq]

/-- The bits of the number that a field stands for are the field's bits (R144). -/
theorem testBit_natOfBitsLsb (vs : List Bool) (k : Nat) : (natOfBitsLsb vs).testBit k = vs.getD k false := by
  induction vs generalizing k with
  | nil => simp [natOfBitsLsb]
  | cons v vs ih =>
    cases k with
    | zero => cases v <;> simp [natOfBitsLsb, Nat.testBit_zero]
    | succ k =>
      have hhalf : (v.toNat + 2 * natOfBitsLsb vs) / 2 = natOfBitsLsb vs := by
        have := Bool.toNat_lt v
        omega
      rw [natOfBitsLsb, Nat.testBit_succ, hhalf, ih, List.getD_cons_succ]

/-! ### GETF -/

/-- GETF after both checks is the reader on the field's width (R144, R146). -/
theorem exec_getf_of_checks (hlen : s.inLen.toNat ≤ s.cfg.inMemBytes) (hw : s.arg1.toNat ≤ 16) :
    exec .getf s = finish ((getField s.arg1.toNat s).bind fun v s1 => .ok { res0 := some (BitVec.ofNat 32 v) } s1) :=
  congrArg finish ((require_bind_of_pass hlen).trans (require_bind_of_pass hw))

end Reader

/-- Settles O12: the two checks in their order, then the reader before and past the end of the stream. -/
theorem getfReadsField : Obligations.GetfReadsField := by
  unfold Obligations.GetfReadsField
  refine ⟨by decide, fun s ⟨_, hsize, _, _⟩ => ?_⟩
  dsimp only
  refine ⟨fun hlen => finish_require_bind_of_fail (not_le.2 hlen), fun hlen hw => ?_, fun hlen hw hmore => ?_,
    fun hlen hw hpos hend => ?_⟩
  · exact (congrArg finish (require_bind_of_pass hlen)).trans (finish_require_bind_of_fail (not_le.2 hw))
  · have hbound : natOfBitsLsb (s.inBits s.inBitpos.toNat s.arg1.toNat) < 2 ^ s.arg1.toNat := by
      simpa [State.inBits] using natOfBitsLsb_lt (s.inBits s.inBitpos.toNat s.arg1.toNat)
    have hwidth : 2 ^ s.arg1.toNat ≤ 2 ^ 16 := Nat.pow_le_pow_right (by decide) hw
    refine ⟨BitVec.ofNat 32 (natOfBitsLsb (s.inBits s.inBitpos.toNat s.arg1.toNat)), ?_, fun k hk => ?_, ?_⟩
    · rwa [BitVec.toNat_ofNat, Nat.mod_eq_of_lt (by omega)]
    · have hk32 : k < 32 := by omega
      rw [BitVec.getLsbD_ofNat, testBit_natOfBitsLsb]
      simp [State.inBits, hk, hk32]
    · rw [exec_getf_of_checks hlen hw, getField, getBits_inBits _ (hlen.trans hsize) hmore]
      rfl
  · rw [exec_getf_of_checks hlen hw, getField, getBits_end _ (hlen.trans hsize) hpos hend]
    rfl

/-! ### The copy-range table (R150 to R153) -/

theorem copyMin_values : copyMin 1 = 16 ∧ copyMin 2 = 80 ∧ copyMin 3 = 336 ∧ copyMin 4 = 1360 ∧ copyMin 5 = 5456 := by
  decide

theorem copyMax_values : copyMax 0 = 15 ∧ copyMax 1 = 79 ∧ copyMax 2 = 335 ∧ copyMax 3 = 1359 ∧ copyMax 4 = 5455
    ∧ copyMax 5 = 21839 := by
  decide

/-- R151, row by row: a range, its least and its greatest distance. -/
theorem rangeRows_bounds :
    ∀ r ∈ [(0, 0, 15), (1, 16, 79), (2, 80, 335), (3, 336, 1359), (4, 1360, 5455), (5, 5456, 21839)],
      r.1 ≤ 5 ∧ copyMin r.1 = r.2.1 ∧ copyMax r.1 = r.2.2 ∧ r.2.2 ≤ maxDistance := by
  decide

/-- R153, row by row: RES0 and RES1 of a range, from its field width, its least and its greatest distance. -/
theorem tableRows_results :
    ∀ r ∈ [(0, 4, 0, 15), (1, 6, 16, 79), (2, 8, 80, 335), (3, 10, 336, 1359), (4, 12, 1360, 5455),
        (5, 14, 5456, 21839)],
      r.1 ≤ 5 ∧ copyMin r.1 = r.2.2.1
        ∧ BitVec.ofNat 32 (copyMax r.1) ||| (BitVec.ofNat 32 (copyBits r.1) <<< 16)
          = BitVec.ofNat 32 (r.2.2.2 + 2 ^ 16 * r.2.1) := by
  decide

/-- R151: the range of a distance is the one that holds it. -/
theorem rangeOf_eq {i d : Nat} (hi : i ≤ 5) (hmin : copyMin i ≤ d) (hmax : d ≤ copyMax i) : rangeOf d = i := by
  have hmins := copyMin_values
  have hmaxs := copyMax_values
  unfold rangeOf
  split_ifs <;> interval_cases i <;> omega

theorem exec_rfnd_of_distance {s : State} (h : s.arg0.toNat ≤ maxDistance) :
    exec .rfnd s = .next { s with
      res0 := BitVec.ofNat 32 (rangeOf s.arg0.toNat)
      res1 := BitVec.ofNat 32 (copyMin (rangeOf s.arg0.toNat)) }.afterCompletion :=
  congrArg finish (require_bind_of_pass h)

/-- Settles O14: each row is a range with its bounds, and the last bound is the greatest distance. -/
theorem rfndLooksUpRange : Obligations.RfndLooksUpRange := by
  unfold Obligations.RfndLooksUpRange
  refine ⟨by decide, fun s => ⟨fun r hr hmin hmax => ?_, fun h => ?_⟩⟩
  · obtain ⟨hi, hlow, hhigh, hlast⟩ := rangeRows_bounds r hr
    have hrange : rangeOf s.arg0.toNat = r.1 := rangeOf_eq hi (hlow.trans_le hmin) (hmax.trans_eq hhigh.symm)
    rw [exec_rfnd_of_distance (hmax.trans hlast), hrange, hlow]
  · have hlast : maxDistance ≤ 21839 := by decide
    exact finish_require_bind_of_fail (not_le.2 (hlast.trans_lt h))

theorem exec_rrd_of_range {s : State} (h : s.arg0.toNat ≤ 5) :
    exec .rrd s = .next { s with
      res0 := BitVec.ofNat 32 (copyMin s.arg0.toNat)
      res1 := BitVec.ofNat 32 (copyMax s.arg0.toNat) ||| (BitVec.ofNat 32 (copyBits s.arg0.toNat) <<< 16)
      }.afterCompletion :=
  congrArg finish (require_bind_of_pass h)

/-- Settles O15: each row is the table's, packed as R153 packs it. -/
theorem rrdReadsTableRow : Obligations.RrdReadsTableRow := by
  unfold Obligations.RrdReadsTableRow
  refine ⟨by decide, fun s => ⟨fun r hr hi => ?_, fun h => finish_require_bind_of_fail (not_le.2 h)⟩⟩
  obtain ⟨hbound, hlow, hpacked⟩ := tableRows_results r hr
  rw [exec_rrd_of_range (hi.trans_le hbound), hi, hlow, hpacked]

end Sys2Proof.Machine
end

section
/-! PROOFS. The Huffman model's primitives one at a time (41_huffman R170, R174, R175, R182, R187): the initial tree
node by node and its codes, the halving, the exchange, and the command that reads a node. -/

namespace Sys2Proof.Machine

/-! ### The initial tree (R170) -/

/-- Settles O8, by the kind of node: the root, a node below it, an internal node, a leaf. -/
theorem initialTreeLayout : Obligations.InitialTreeLayout := by
  unfold Obligations.InitialTreeLayout
  refine ⟨fun k hk1 hk2 => ⟨?_, ?_, ?_, fun hleaf => ?_, fun hint => ?_⟩, by decide⟩
  · split_ifs with hroot
    · rw [hroot]
      rfl
    · exact initNode_parent (by omega) hk2
  · split_ifs with hint
    · exact (initNode_internal hk1 hint).1
    · exact (initNode_leaf (by omega) hk2).1
  · split_ifs with hint
    · exact (initNode_internal hk1 hint).2
    · exact (initNode_leaf (by omega) hk2).2
  · have hone : initFreq 11 k.toNat = 1 := if_pos (by rw [maxChar_eq]; omega)
    exact BitVec.eq_of_toNat_eq ((initNode_freq hk1 hk2).trans hone)
  · rw [initNode_freq hk1 hk2, initNode_freq (by omega) (by omega), initNode_freq (by omega) (by omega),
      initFreq_sum k.toNat (by omega) hk1]

/-- In the initial tree the walk to the root reads off the binary form of a node's id, its leading 1 left out: a node's
parent is its half, and a right child is odd. -/
theorem climb_initialTree (n : Nat) {k : Nat} (stack : List Bool) (h1 : 1 ≤ k) (h2 : k ≤ 1257) (hn : Nat.log2 k ≤ n) :
    Arena.climb [] n (BitVec.ofNat 11 k) stack = ((List.range (Nat.log2 k)).map k.testBit).reverse ++ stack := by
  induction n generalizing k stack with
  | zero => rw [Nat.le_zero.1 hn]; rfl
  | succ n ih =>
    by_cases hroot : k = 1
    · subst hroot
      rfl
    have hlog : Nat.log2 k = Nat.log2 (k / 2) + 1 := by
      rw [Nat.log2_def k, if_pos (by omega)]
    have hid : (BitVec.ofNat 11 k).toNat = k := toNat_ofNat_id (by omega)
    have hne : BitVec.ofNat 11 k ≠ Config.root := fun e => hroot (hid.symm.trans (congrArg BitVec.toNat e))
    have hbit : decide ((initNode (k / 2)).right = BitVec.ofNat 11 k) = k.testBit 0 := by
      rw [(initNode_internal (by omega) (by omega)).2, Nat.testBit_zero, decide_eq_decide, ← BitVec.toNat_inj, hid,
        toNat_ofNat_id (by omega)]
      omega
    rw [Arena.climb, if_neg hne]
    simp only [Arena.get_nil, hid, initNode_parent (by omega : 2 ≤ k) h2, toNat_ofNat_id (by omega : k / 2 < 2048),
      hbit]
    rw [ih _ (by omega) (by omega) (by omega), hlog, List.range_succ_eq_map, List.map_cons, List.map_map,
      List.reverse_cons, List.append_assoc, List.singleton_append]
    simp only [Function.comp_def, Nat.testBit_succ]

/-- Settles O25: the walk from the symbol's leaf, and the two bounds on the leading bit of its id. -/
theorem initialCodes : Obligations.InitialCodes := by
  unfold Obligations.InitialCodes
  intro c hc
  have hlog : Nat.log2 (c + 629) = if c ≤ 394 then 9 else 10 := by
    rw [Nat.log2_eq_iff (by omega)]
    split_ifs <;> omega
  have hcode : Arena.codeOf [] c = ((List.range (Nat.log2 (c + 629))).map (c + 629).testBit).reverse := by
    have hbound : Nat.log2 (c + 629) ≤ climbBound := by
      rw [hlog, climbBound, twiceMax_eq]
      split_ifs <;> omega
    have h := climb_initialTree climbBound [] (by omega : 1 ≤ c + 629) (by omega) hbound
    rwa [List.append_nil] at h
  refine ⟨hcode, ?_⟩
  rw [hcode, List.length_reverse, List.length_map, List.length_range, hlog]

/-! ### The halving (R174) -/

/-- Two nodes with the same links differ in the frequency only. -/
theorem Node.eq_with_freq {n n' : Node} (hparent : n.parent = n'.parent) (hleft : n.left = n'.left)
    (hright : n.right = n'.right) : n = { n' with freq := n.freq } := by
  cases n
  cases n'
  cases hparent
  cases hleft
  cases hright
  rfl

/-- Settles O22: links are kept, and each frequency is reached once. -/
theorem halveHalvesEveryNode : Obligations.HalveHalvesEveryNode := by
  unfold Obligations.HalveHalvesEveryNode
  intro m k
  obtain ⟨hparent, hleft, hright⟩ := m.halve_links k
  have hfreq := m.halveFirst_freq _ le_rfl k
  rw [← Arena.halve, twiceMax_eq] at hfreq
  rw [Node.eq_with_freq hparent hleft hright, hfreq]
  split_ifs <;> rfl

/-! ### The exchange (R175) -/

/-- Settles O24: the uncle is exchangeable, and the four nodes that the exchange writes are different. -/
theorem exchangeSwapsSubtrees : Obligations.ExchangeSwapsSubtrees := by
  unfold Obligations.ExchangeSwapsSubtrees
  intro m x h hx hp
  have e := h.exchangeable_uncle hx hp
  have hother := e.uncleOther
  obtain ⟨hxu, hxp, hxg, hug, hpg⟩ := e.distinct h
  refine ⟨?_, ?_, ?_, ?_, fun k hkg hkp hku hkx => ?_, h.exchange e⟩
  · rw [e.get_exchange h, if_neg hxg.symm, if_neg hug.symm, if_neg hpg.symm, if_pos rfl]
  · rw [e.get_exchange h, if_neg hxp.symm, if_neg hother.symm, if_pos rfl]
  · rw [e.get_exchange h, if_neg hxu.symm, if_pos rfl]
  · rw [e.get_exchange h, if_pos rfl]
  · rw [e.get_exchange h, if_neg hkx, if_neg hku, if_neg hkp, if_neg hkg]

/-! ### Reading a node (R182) -/

/-- Two fields of at most 16 bits, packed in a register (R182). -/
theorem packedFields_eq {n : Nat} (hn : n ≤ 16) (low : BitVec n) (high : NodeId) :
    low.setWidth 32 ||| (high.setWidth 32 <<< 16) = BitVec.ofNat 32 (low.toNat + 2 ^ 16 * high.toNat) := by
  have hlow : low.toNat < 2 ^ 16 := low.isLt.trans_le (Nat.pow_le_pow_right (by decide) hn)
  have hhigh := high.isLt
  apply BitVec.eq_of_toNat_eq
  rw [BitVec.toNat_or, BitVec.toNat_shiftLeft, BitVec.toNat_setWidth, BitVec.toNat_setWidth, BitVec.toNat_ofNat,
    Nat.mod_eq_of_lt (by omega : low.toNat < 2 ^ 32), Nat.mod_eq_of_lt (by omega : high.toNat < 2 ^ 32),
    Nat.shiftLeft_eq, Nat.mod_eq_of_lt (by omega), Nat.mod_eq_of_lt (by omega), Nat.or_comm, Nat.mul_comm,
    ← Nat.two_pow_add_eq_or_of_lt hlow, Nat.add_comm]

/-- Settles O21: the check of the node's id, the two packed results, and the shape's clauses on leaves and the root. -/
theorem nreadReadsNode : Obligations.NreadReadsNode := by
  unfold Obligations.NreadReadsNode
  refine ⟨by decide, fun s => ⟨fun hbad => ?_, fun h1 h2 => ?_, fun hshape => ⟨fun h1 h2 => ?_, fun hk => ?_⟩⟩⟩
  · exact finish_require_bind_of_fail (by rw [twiceMax_eq]; omega)
  · have hexec : exec .nread s = .next (s.complete
        { res0 := some ((s.nodes.get (s.arg0.setWidth 11)).freq.setWidth 32
            ||| ((s.nodes.get (s.arg0.setWidth 11)).parent.setWidth 32 <<< 16))
          res1 := some ((s.nodes.get (s.arg0.setWidth 11)).left.setWidth 32
            ||| ((s.nodes.get (s.arg0.setWidth 11)).right.setWidth 32 <<< 16)) }) :=
      congrArg finish (require_bind_of_pass (by rw [twiceMax_eq]; omega))
    rw [hexec, packedFields_eq le_rfl, packedFields_eq (by decide), ← BitVec.ofNat_toNat]
    rfl
  · refine hshape.leafChildren _ ?_
    rw [isLeaf, successMax_eq, twiceMax_eq, toNat_ofNat_id (by omega)]
    omega
  · rw [hk]
    exact hshape.rootParent

end Sys2Proof.Machine
end

section
/-! PROOFS. The recompute and the update, node by node (41_huffman R173, R176 to R178, R184). A recompute writes the
nodes from its start to the root, each once and from below, so a node's children are final when it is written; the walk
of an update moves subtrees beside its path only, so the path it still has to climb keeps its length. -/

namespace Sys2Proof.Machine

/-! ### The nodes from a node to the root -/

section Above

variable {m : Arena}

/-- The nodes at or above a node: the node itself, and those at or above its parent. -/
theorem Arena.isAtOrAbove_iff (m : Arena) {k j : NodeId} (hk : k ≠ Config.nil) :
    m.IsAtOrAbove k j ↔ k = j ∨ m.IsAtOrAbove (m.get k).parent j := by
  constructor
  · rintro ⟨d, rfl, hd⟩
    cases d with
    | zero => exact .inl rfl
    | succ d => exact .inr ⟨d, rfl, fun e he => hd (e + 1) (Nat.succ_le_succ he)⟩
  · rintro (rfl | ⟨d, rfl, hd⟩)
    · exact ⟨0, rfl, fun e he => by rwa [Nat.le_zero.1 he]⟩
    · refine ⟨d + 1, rfl, fun e he => ?_⟩
      cases e with
      | zero => exact hk
      | succ e => exact hd e (Nat.le_of_succ_le_succ he)

theorem Arena.not_isAtOrAbove_nil (m : Arena) (j : NodeId) : ¬ m.IsAtOrAbove Config.nil j :=
  fun ⟨_, _, hd⟩ => hd 0 (Nat.zero_le _) rfl

/-- A node at or above an internal node is an internal node, no further from the root. -/
theorem TreeShape.isInternal_and_depth_le_of_isAtOrAbove (h : TreeShape m) {k j : NodeId} (hk : isInternal k)
    (hj : m.IsAtOrAbove k j) : isInternal j ∧ m.depth j ≤ m.depth k := by
  induction hn : m.depth k using Nat.strong_induction_on generalizing k with
  | _ n ih =>
    subst hn
    rcases (m.isAtOrAbove_iff hk.ne_nil).1 hj with rfl | hup
    · exact ⟨hk, le_rfl⟩
    · by_cases hroot : k = Config.root
      · rw [hroot, h.rootParent] at hup
        exact absurd hup (m.not_isAtOrAbove_nil j)
      · have hbelow := hk.belowRoot hroot
        have hlt := h.depth_parent_lt hbelow
        obtain ⟨hint, hle⟩ := ih _ hlt (h.parentChild k hbelow).1 hup rfl
        exact ⟨hint, hle.trans hlt.le⟩

/-- A node no nearer to the root than `k` is not above `k`. -/
theorem TreeShape.not_isAtOrAbove_parent (h : TreeShape m) {k j : NodeId} (hk : isInternal k)
    (hle : m.depth k ≤ m.depth j) : ¬ m.IsAtOrAbove (m.get k).parent j := by
  by_cases hroot : k = Config.root
  · rw [hroot, h.rootParent]
    exact m.not_isAtOrAbove_nil j
  · have hbelow := hk.belowRoot hroot
    intro hj
    have hup := (h.isInternal_and_depth_le_of_isAtOrAbove (h.parentChild k hbelow).1 hj).2
    exact absurd (h.depth_parent_lt hbelow) (not_lt.2 (hle.trans hup))

theorem Arena.isAtOrAbove_setFreq (m : Arena) (i k j : NodeId) (f : Freq) :
    (m.setFreq i f).IsAtOrAbove k j ↔ m.IsAtOrAbove k j := by
  simp only [Arena.IsAtOrAbove, ancestor_sameParents fun a => Arena.setFreq_parent m i a f]

/-- A child is one step further from the root. -/
theorem TreeShape.depth_children (h : TreeShape m) {k : NodeId} (hk : isInternal k) :
    m.depth (m.get k).left = m.depth k + 1 ∧ m.depth (m.get k).right = m.depth k + 1 := by
  obtain ⟨hl, hr, -⟩ := h.internalChildren k hk
  obtain ⟨hpl, hpr⟩ := h.childParent k hk
  rw [h.depth_eq hl, h.depth_eq hr, hpl, hpr]
  exact ⟨rfl, rfl⟩

end Above

/-! ### The recompute (R173) -/

section Recompute

variable {m : Arena}

/-- A recompute leaves the frequency of every node that it does not pass. -/
theorem Arena.recomputeFrom_freq_other (n : Nat) {m : Arena} {k j : NodeId} (hj : ¬ m.IsAtOrAbove k j) :
    ((Arena.recomputeFrom n m k).get j).freq = (m.get j).freq := by
  induction n generalizing m k with
  | zero => rfl
  | succ n ih =>
    rw [Arena.recomputeFrom]
    split_ifs with hk
    · rfl
    · obtain ⟨hne, hup⟩ := not_or.1 ((m.isAtOrAbove_iff hk).not.1 hj)
      dsimp only
      rw [ih ((m.isAtOrAbove_setFreq ..).not.2 hup), Arena.freq_setFreq, if_neg hne]

/-- A recompute that reaches the root leaves every node that it passes with the sum of its children: below the node that
is written nothing is written any more. -/
theorem TreeShape.recomputeFrom_freq_sum (h : TreeShape m) (n : Nat) {k j : NodeId} (hk : isInternal k)
    (hn : m.depth k < n) (hj : m.IsAtOrAbove k j) :
    ((Arena.recomputeFrom n m k).get j).freq = ((Arena.recomputeFrom n m k).get (m.get j).left).freq
      + ((Arena.recomputeFrom n m k).get (m.get j).right).freq := by
  induction n generalizing m k with
  | zero => exact absurd hn (Nat.not_lt_zero _)
  | succ n ih =>
    rw [Arena.recomputeFrom, if_neg hk.ne_nil]
    dsimp only
    generalize hf : (m.get (m.get k).left).freq + (m.get (m.get k).right).freq = f
    rcases (m.isAtOrAbove_iff hk.ne_nil).1 hj with rfl | hup
    · obtain ⟨hdl, hdr⟩ := h.depth_children hk
      obtain ⟨hl, hr, -⟩ := h.internalChildren k hk
      have hfinal : ∀ i, m.depth k ≤ m.depth i →
          ((Arena.recomputeFrom n (m.setFreq k f) (m.get k).parent).get i).freq
            = if k = i then f else (m.get i).freq := fun i hi => by
        rw [Arena.recomputeFrom_freq_other _ ((m.isAtOrAbove_setFreq ..).not.2 (h.not_isAtOrAbove_parent hk hi)),
          Arena.freq_setFreq]
      have hnel : k ≠ (m.get k).left := fun e => by rw [← e] at hdl; omega
      have hner : k ≠ (m.get k).right := fun e => by rw [← e] at hdr; omega
      rw [hfinal k le_rfl, hfinal _ (by omega), hfinal _ (by omega), if_pos rfl, if_neg hnel, if_neg hner, hf]
    · have hroot : k ≠ Config.root := fun e => by
        rw [e, h.rootParent] at hup
        exact m.not_isAtOrAbove_nil j hup
      have hbelow := hk.belowRoot hroot
      have hlt := h.depth_parent_lt hbelow
      have hstep := ih (h.setFreq k f) (h.parentChild k hbelow).1 (by rw [Arena.depth_setFreq]; omega)
        ((m.isAtOrAbove_setFreq ..).2 hup)
      rwa [Arena.setFreq_left, Arena.setFreq_right] at hstep

/-- The climb of a recompute is long enough for every internal node (R41 item 4). -/
theorem TreeShape.depth_lt_climbBound (h : TreeShape m) {k : NodeId} (hk : isInternal k) : m.depth k < climbBound := by
  have hdepth := h.depth_le_of_internal hk
  rw [maxChar_eq] at hdepth
  rw [climbBound, twiceMax_eq]
  omega

/-- Settles O23, by the climb: the nodes above the start are the ones it passes. -/
theorem recomputeSumsAncestors : Obligations.RecomputeSumsAncestors := by
  unfold Obligations.RecomputeSumsAncestors
  intro m k h hk j _ _
  obtain ⟨hparent, hleft, hright⟩ := Arena.recomputeFrom_links climbBound m k j
  exact ⟨hparent, hleft, hright, h.recomputeFrom_freq_sum climbBound hk (h.depth_lt_climbBound hk),
    Arena.recomputeFrom_freq_other climbBound⟩

/-- A recompute from an internal node leaves the leaves as they are. -/
theorem TreeShape.recompute_freq_leaf (h : TreeShape m) {k j : NodeId} (hk : isInternal k) (hj : isLeaf j) :
    ((m.recompute k).get j).freq = (m.get j).freq :=
  Arena.recomputeFrom_freq_other climbBound
    fun habove => hj.not_internal (h.isInternal_and_depth_le_of_isAtOrAbove hk habove).1

end Recompute

/-! ### The walk (R176, R177) -/

section Walk

variable {m : Arena} {x u cur : NodeId}

theorem Arena.depth_root (m : Arena) : m.depth Config.root = 0 :=
  Nat.le_zero.1 (Nat.sInf_le (rfl : m.ancestor 0 Config.root = Config.root))

theorem Arena.depth_recompute (m : Arena) (k j : NodeId) : (m.recompute k).depth j = m.depth j := by
  unfold Arena.depth
  simp only [ancestor_sameParents fun i => (Arena.recomputeFrom_links climbBound m k i).1, Arena.recompute]

/-- An exchange moves neither the parent nor any node above it, so the way from there to the root stays as long as it
was. -/
theorem Exchangeable.exchange_depth (h : TreeShape m) (e : Exchangeable m x u) {k : NodeId} (hk : isInternal k)
    (hku : k ≠ u) (hle : m.depth k ≤ m.depth (m.get x).parent) : (m.exchange x u).depth k = m.depth k := by
  induction hn : m.depth k using Nat.strong_induction_on generalizing k with
  | _ n ih =>
    subst hn
    by_cases hroot : k = Config.root
    · rw [hroot, Arena.depth_root, Arena.depth_root]
    · have hbelow := hk.belowRoot hroot
      have hlt := h.depth_parent_lt hbelow
      have hkx : k ≠ x := by
        rintro rfl
        exact not_lt.2 hle hlt
      have hpu : (m.get k).parent ≠ u := by
        intro hpu
        have hlevel := h.depth_eq e.uncleBelowRoot
        rw [e.uncleParent, ← h.depth_eq e.parentBelowRoot] at hlevel
        rw [hpu] at hlt
        omega
      have hparent : ((m.exchange x u).get k).parent = (m.get k).parent := by
        rw [e.exchange_parent h, Equiv.swap_apply_of_ne_of_ne hkx hku]
      rw [(h.exchange e).depth_eq hbelow, h.depth_eq hbelow, hparent,
        ih _ hlt (h.parentChild k hbelow).1 hpu (hlt.le.trans hle) rfl]

/-- After a comparison the walk has as far to go from the parent as before it. -/
theorem TreeShape.depth_compareUncle_parent (h : TreeShape m) (hcur : isBelowRoot cur)
    (hp : (m.get cur).parent ≠ Config.root) :
    (m.compareUncle cur).depth (m.get cur).parent = m.depth (m.get cur).parent := by
  have e := h.exchangeable_uncle hcur hp
  unfold Arena.compareUncle
  dsimp only
  split
  · rw [Arena.depth_recompute]
    exact e.exchange_depth h (h.parentChild cur hcur).1 e.uncleOther.symm le_rfl
  · rfl

/-- With steps enough for the way to the root, the model's walk is the one of R176 and R177. -/
theorem TreeShape.walk_rebalanceFrom (h : TreeShape m) (n : Nat) (hcur : isBelowRoot cur) (hn : m.depth cur ≤ n) :
    Walk m cur (Arena.rebalanceFrom n m cur) := by
  induction n generalizing m cur with
  | zero =>
    have hlt := h.depth_parent_lt hcur
    omega
  | succ n ih =>
    rw [Arena.rebalanceFrom]
    split_ifs with hroot
    · exact .stop m cur hroot
    · have hdepth := h.depth_eq hcur
      have hnext : Walk (m.compareUncle cur) (m.get cur).parent
          (Arena.rebalanceFrom n (m.compareUncle cur) (m.get cur).parent) := by
        refine ih (h.compareUncle hcur hroot) ((h.parentChild cur hcur).1.belowRoot hroot) ?_
        rw [h.depth_compareUncle_parent hcur hroot]
        omega
      exact .move m _ _ cur _ _ _ rfl hroot rfl rfl rfl hnext

/-- A comparison leaves the leaves' counts as they are. -/
theorem TreeShape.compareUncle_freq_leaf (h : TreeShape m) (hcur : isBelowRoot cur)
    (hp : (m.get cur).parent ≠ Config.root) {k : NodeId} (hk : isLeaf k) :
    ((m.compareUncle cur).get k).freq = (m.get k).freq := by
  have e := h.exchangeable_uncle hcur hp
  unfold Arena.compareUncle
  dsimp only
  split
  · rw [(h.exchange e).recompute_freq_leaf (h.parentChild cur hcur).1 hk, e.exchange_freq h]
  · rfl

/-- An exchange that puts no heavier node below does not raise the root: what the parent's sum loses is what the
grandparent's gains (R175, R178). -/
theorem FrequencyBound.exchange_root_le (hf : FrequencyBound m) (h : TreeShape m) (e : Exchangeable m x u)
    (hle : (m.get u).freq.toNat ≤ (m.get x).freq.toNat) :
    (((m.exchange x u).recompute (m.get x).parent).get Config.root).freq.toNat ≤ (m.get Config.root).freq.toNat := by
  obtain ⟨hsum, hroot⟩ := (frequencyBound_iff m).1 hf
  obtain ⟨-, -, -, -, hpg⟩ := e.distinct h
  have h' := h.exchange e
  have hp := (h.parentChild x e.belowRoot).1
  have hg := (h.parentChild _ e.parentBelowRoot).1
  have hsump := e.childSum_exchange_parent h
  have hsumg := e.childSum_exchange_grandparent h
  have hpsum := hsum _ hp
  have hgsum := hsum _ hg
  have hval : (((m.exchange x u).get ((m.exchange x u).get (m.get x).parent).left).freq
      + ((m.exchange x u).get ((m.exchange x u).get (m.get x).parent).right).freq).toNat
        = (m.exchange x u).childSum (m.get x).parent :=
    Arena.childSum_toNat _ _ (by have := (m.get (m.get x).parent).freq.isLt; omega)
  rw [Arena.recompute_eq _ hp.ne_nil, e.exchange_grandparent h]
  generalize ((m.exchange x u).get ((m.exchange x u).get (m.get x).parent).left).freq
    + ((m.exchange x u).get ((m.exchange x u).get (m.get x).parent).right).freq = f at hval ⊢
  have hkept : ∀ j, j ≠ (m.get x).parent →
      (((m.exchange x u).setFreq (m.get x).parent f).get j).freq = (m.get j).freq := fun j hj => by
    rw [Arena.freq_setFreq, if_neg hj.symm, e.exchange_freq h]
  have hbut := h'.sumsBoundedBut_setFreq hval.ge fun j hj hjp hjg => by
    rw [e.exchange_grandparent h] at hjg
    rw [e.childSum_exchange_other h hjp hjg, e.exchange_freq h]
    exact hsum j hj
  have hgnew := h'.childSum_setFreq_parent f e.parentBelowRoot
  rw [e.exchange_freq h] at hgnew
  rw [e.exchange_grandparent h] at hbut hgnew
  have hdepth := (h'.setFreq (m.get x).parent f).depth_le_of_internal hg
  rw [maxChar_eq] at hdepth
  have hrootKept := hkept _ e.parentBelowRoot.ne_root.symm
  rw [← hrootKept]
  exact ((h'.setFreq (m.get x).parent f).recomputeFrom_bounds 1256 (c := 0) hg (by omega) hbut
    (by rw [hkept _ hpg.symm]; omega) (by rw [hrootKept]; omega)).2

theorem TreeShape.compareUncle_root_le (h : TreeShape m) (hf : FrequencyBound m) (hcur : isBelowRoot cur)
    (hp : (m.get cur).parent ≠ Config.root) :
    ((m.compareUncle cur).get Config.root).freq.toNat ≤ (m.get Config.root).freq.toNat := by
  unfold Arena.compareUncle
  dsimp only
  split
  · rename_i hlt
    exact hf.exchange_root_le h (h.exchangeable_uncle hcur hp) (BitVec.lt_def.1 hlt).le
  · exact le_rfl

/-- What a tree keeps of the tree `m` during the walk: the invariants, the leaves' counts and the bound that `m` sets
the root. -/
structure WalkedFrom (m m' : Arena) : Prop where
  /-- R41. -/
  shape : TreeShape m'
  /-- R42 and R183. -/
  bound : FrequencyBound m'
  /-- R176: the walk recomputes internal nodes only. -/
  leaves : ∀ k, isLeaf k → (m'.get k).freq = (m.get k).freq
  /-- R178: the root's value can only drop when it is recomputed. -/
  root : (m'.get Config.root).freq.toNat ≤ (m.get Config.root).freq.toNat

theorem TreeShape.walkedFrom_rebalance (h : TreeShape m) (hf : FrequencyBound m) (hcur : isBelowRoot cur) :
    WalkedFrom m (m.rebalance cur) :=
  rebalanceFrom_keeps (Q := WalkedFrom m) (fun _ hw => hw.shape)
    (fun _ _ hw hcur hp =>
      { shape := hw.shape.compareUncle hcur hp
        bound := hw.bound.compareUncle hw.shape hcur hp
        leaves := fun k hk => (hw.shape.compareUncle_freq_leaf hcur hp hk).trans (hw.leaves k hk)
        root := (hw.shape.compareUncle_root_le hw.bound hcur hp).trans hw.root })
    climbBound ⟨h, hf, fun _ _ => rfl, le_rfl⟩ hcur

end Walk

/-! ### The count and the halving check (R176, R178) -/

section Count

variable {m : Arena} {leaf : NodeId}

/-- A leaf below a root of at most 1999 can be counted without a carry out of its 16 bits (R183). -/
theorem TreeShape.freq_succ_toNat (h : TreeShape m) (hf : FrequencyBound m) (hleaf : isLeaf leaf) :
    ((m.get leaf).freq + 1).toNat = (m.get leaf).freq.toNat + 1 := by
  obtain ⟨hsum, hroot⟩ := (frequencyBound_iff m).1 hf
  have hheavy := h.freq_le_root (Or.inr hleaf.belowRoot) fun j hj _ => hsum j hj
  have hone : (1 : Freq).toNat = 1 := rfl
  rw [BitVec.toNat_add]
  omega

/-- The count reaches the counted leaf and no other. -/
theorem TreeShape.count_freq_leaf (h : TreeShape m) (hf : FrequencyBound m) (hleaf : isLeaf leaf) {k : NodeId}
    (hk : isLeaf k) :
    ((m.count leaf).get k).freq.toNat = (m.get k).freq.toNat + if k = leaf then 1 else 0 := by
  have hp : isInternal ((m.setFreq leaf ((m.get leaf).freq + 1)).get leaf).parent := by
    rw [Arena.setFreq_parent]
    exact (h.parentChild leaf hleaf.belowRoot).1
  unfold Arena.count
  dsimp only
  rw [(h.setFreq leaf _).recompute_freq_leaf hp hk, Arena.freq_setFreq]
  by_cases hkl : k = leaf
  · rw [if_pos hkl.symm, if_pos hkl, h.freq_succ_toNat hf hleaf, hkl]
  · rw [if_neg (Ne.symm hkl), if_neg hkl, Nat.add_zero]

/-- One more count of a leaf adds at most one to the root (R178). -/
theorem TreeShape.count_root_le (h : TreeShape m) (hf : FrequencyBound m) (hleaf : isLeaf leaf) :
    ((m.count leaf).get Config.root).freq.toNat ≤ (m.get Config.root).freq.toNat + 1 := by
  obtain ⟨hsum, hroot⟩ := (frequencyBound_iff m).1 hf
  have hbelow := hleaf.belowRoot
  have hp := (h.parentChild leaf hbelow).1
  have hinc := h.freq_succ_toNat hf hleaf
  have hparent := h.childSum_setFreq_parent ((m.get leaf).freq + 1) hbelow
  have hkept : ∀ j, isInternal j → ((m.setFreq leaf ((m.get leaf).freq + 1)).get j).freq = (m.get j).freq :=
    fun j hj => by
      rw [Arena.freq_setFreq, if_neg]
      rintro rfl
      exact hleaf.not_internal hj
  have hpsum := hsum _ hp
  have hbut : SumsBoundedBut (m.setFreq leaf ((m.get leaf).freq + 1)) (m.get leaf).parent := fun j hj hjp => by
    rw [h.childSum_setFreq_other _ hj fun hc => hjp hc.2.symm, hkept j hj]
    exact hsum j hj
  unfold Arena.count
  dsimp only
  rw [Arena.setFreq_parent, ← hkept _ isInternal_root]
  exact ((h.setFreq leaf _).recompute_bounds (c := 1) hp hbut (by rw [hkept _ hp]; omega)
    (by rw [hkept _ isInternal_root]; omega)).2

/-- The halving check leaves a root that has reached 2000 at half of it, and any other as it is. -/
theorem Arena.halveIfFull_freq (m : Arena) {k : NodeId} (hk : isInternal k ∨ isBelowRoot k) :
    (m.halveIfFull.get k).freq.toNat = if 2000 ≤ (m.get Config.root).freq.toNat then (m.get k).freq.toNat / 2
      else (m.get k).freq.toNat := by
  have hmax : Config.maxFrequency = 2000 := rfl
  unfold Arena.halveIfFull
  rw [hmax]
  split_ifs
  · exact m.halve_freq hk
  · rfl

end Count

/-! ### MUPD (R184) -/

/-- MUPD after its check is the update, and its results are read from the tree it leaves. -/
theorem exec_mupd_of_symbol {s : State} (hc : s.arg0.toNat ≤ Config.maxChar) :
    ∃ t, exec .mupd s = .next t ∧ t.nodes = s.nodes.update s.arg0.toNat ∧ t = { s with
      nodes := s.nodes.update s.arg0.toNat
      symcount := s.symcount + 1
      res0 := (t.nodes.get (leafOf s.arg0.toNat)).freq.setWidth 32
      res1 := (t.nodes.get Config.root).freq.setWidth 32 }.afterCompletion := by
  have hexec : exec .mupd s = finish ((updateModel s.arg0.toNat s).bind fun _ s1 =>
      .ok { res0 := some ((s1.nodes.get (leafOf s1.arg0.toNat)).freq.setWidth 32)
            res1 := some ((s1.nodes.get Config.root).freq.setWidth 32) } s1) :=
    congrArg finish (require_bind_of_pass hc)
  rcases updateModel_cases s.arg0.toNat s with ⟨-, hupdate⟩ | ⟨hbad, -⟩
  · rw [hexec, hupdate]
    generalize s.nodes.update s.arg0.toNat = m
    exact ⟨_, rfl, rfl, rfl⟩
  · exact absurd hbad (not_lt.2 hc)

/-- Settles O17: the count, the halving check and the walk one after another, each with what it does to the leaves and
to the root. -/
theorem mupdUpdatesModel : Obligations.MupdUpdatesModel := by
  unfold Obligations.MupdUpdatesModel
  refine ⟨by decide, fun s h hf => ⟨fun hbad => finish_require_bind_of_fail (not_le.2 hbad), fun hc => ?_⟩⟩
  have hleaf := isLeaf_leafOf hc
  have hcount := h.count (leafOf s.arg0.toNat)
  have hrootCount := h.count_root_le hf hleaf
  have hleafCount := fun k (hk : isLeaf k) => h.count_freq_leaf hf hleaf hk
  obtain ⟨hsum, hroot⟩ := h.count_bounds hf hleaf
  have hbound := hcount.halveIfFull_frequencyBound hsum hroot
  have hwalk : Walk (s.nodes.count (leafOf s.arg0.toNat)).halveIfFull (leafOf s.arg0.toNat)
      (s.nodes.update s.arg0.toNat) := by
    refine hcount.halveIfFull.walk_rebalanceFrom climbBound hleaf.belowRoot ?_
    exact (hcount.halveIfFull.depth_le hleaf.belowRoot).trans (by decide)
  have hw : WalkedFrom _ (s.nodes.update s.arg0.toNat) := hcount.halveIfFull.walkedFrom_rebalance hbound hleaf.belowRoot
  have hrootHalved := (s.nodes.count (leafOf s.arg0.toNat)).halveIfFull_freq (Or.inl isInternal_root)
  obtain ⟨t, ht, hnodes, hstate⟩ := exec_mupd_of_symbol hc
  rw [← hnodes] at hwalk hw
  refine ⟨t, s.nodes.setFreq (leafOf s.arg0.toNat) ((s.nodes.get (leafOf s.arg0.toNat)).freq + 1), ht, hstate,
    fun k => ?_, ⟨hwalk, fun k hk => ?_, fun hfull => ?_⟩, ?_⟩
  · rw [Arena.get_setFreq]
    exact if_congr eq_comm rfl rfl
  · dsimp only
    rw [← hleafCount k hk]
    exact (congrArg BitVec.toNat (hw.leaves k hk)).trans (Arena.halveIfFull_freq _ (.inr hk.belowRoot))
  · exact (hw.root.trans_eq (hrootHalved.trans (if_pos hfull))).trans (by omega)
  · refine hw.root.trans ?_
    rw [hrootHalved]
    split_ifs <;> omega

end Sys2Proof.Machine
end

section
/-! PROOFS. The codes of the tree and the commands that write and read one (41_huffman R179 to R181, R186). The walk up
from a leaf and the walk down from the root follow the same path, whose bits are the code; a stream of bits either holds
the code of one symbol at its start or ends on an internal node. -/

namespace Sys2Proof.Machine

/-! ### Paths down the tree -/

/-- The child on the side of a bit: 1 is right, 0 is left (R118). -/
def Arena.child (m : Arena) (k : NodeId) (v : Bool) : NodeId := if v then (m.get k).right else (m.get k).left

/-- The bits `vs` lead from `k` to `l` through internal nodes. -/
inductive Arena.Path (m : Arena) : NodeId → List Bool → NodeId → Prop
  | nil (k : NodeId) : Path m k [] k
  | cons {k l : NodeId} {v : Bool} {vs : List Bool} (hk : isInternal k) (hrest : Path m (m.child k v) vs l) :
    Path m k (v :: vs) l

section Path

variable {m : Arena} {k l : NodeId}

theorem Arena.Path.descend {vs : List Bool} (hpath : m.Path k vs l) : m.descend k vs = l := by
  induction hpath with
  | nil k => rfl
  | cons hk hrest ih => exact ih

/-- A child is a node below the root, one step further from it, and its parent is the node. -/
theorem TreeShape.child_spec (h : TreeShape m) (hk : isInternal k) (v : Bool) :
    isBelowRoot (m.child k v) ∧ (m.get (m.child k v)).parent = k ∧ m.depth (m.child k v) = m.depth k + 1 := by
  obtain ⟨hl, hr, -⟩ := h.internalChildren k hk
  obtain ⟨hpl, hpr⟩ := h.childParent k hk
  obtain ⟨hdl, hdr⟩ := h.depth_children hk
  cases v with
  | false => exact ⟨hl, hpl, hdl⟩
  | true => exact ⟨hr, hpr, hdr⟩

/-- The bit that the walk up collects at a child is the one that leads down to it (R179). -/
theorem TreeShape.right_eq_child_iff (h : TreeShape m) (hk : isInternal k) (v : Bool) :
    decide ((m.get k).right = m.child k v) = v := by
  obtain ⟨-, -, hne⟩ := h.internalChildren k hk
  cases v with
  | false => exact decide_eq_false hne.symm
  | true => exact decide_eq_true rfl

/-- A node below the root is its parent's child on the side of the bit that the walk up collects. -/
theorem TreeShape.child_of_parent (h : TreeShape m) (hk : isBelowRoot k) :
    m.child (m.get k).parent (decide ((m.get (m.get k).parent).right = k)) = k := by
  obtain ⟨-, hchild⟩ := h.parentChild k hk
  unfold Arena.child
  split_ifs with hright
  · exact of_decide_eq_true hright
  · exact hchild.resolve_right fun e => hright (decide_eq_true e)

/-- Each bit of a path leads one step away from the root. -/
theorem TreeShape.depth_of_path (h : TreeShape m) {vs : List Bool} (hpath : m.Path k vs l) :
    m.depth l = m.depth k + vs.length := by
  induction hpath with
  | nil k => rfl
  | cons hk hrest ih =>
    obtain ⟨-, -, hdepth⟩ := h.child_spec hk _
    rw [ih, hdepth, List.length_cons, Nat.add_assoc, Nat.add_comm 1]

/-- The walk up ends at the root. -/
theorem Arena.climb_root (m : Arena) (n : Nat) (stack : List Bool) : m.climb n Config.root stack = stack := by
  cases n with
  | zero => rfl
  | succ n => exact if_pos rfl

/-- The walk up from a node puts the path from the root to it before the bits it has: the whole is a path from the root.
-/
theorem TreeShape.path_climb (h : TreeShape m) (n : Nat) {stack : List Bool} (hk : isInternal k ∨ isBelowRoot k)
    (hn : m.depth k ≤ n) (hpath : m.Path k stack l) : m.Path Config.root (m.climb n k stack) l := by
  induction n generalizing k stack with
  | zero =>
    by_cases hroot : k = Config.root
    · exact hroot ▸ hpath
    · have hlt := h.depth_parent_lt (hk.elim (fun hi => hi.belowRoot hroot) id)
      omega
  | succ n ih =>
    rw [Arena.climb]
    split_ifs with hroot
    · exact hroot ▸ hpath
    · have hbelow : isBelowRoot k := hk.elim (fun hi => hi.belowRoot hroot) id
      have hdepth := h.depth_eq hbelow
      have hp := (h.parentChild k hbelow).1
      refine ih (.inl hp) (by omega) (.cons hp ?_)
      rwa [h.child_of_parent hbelow]

/-- The walk up from the end of a path collects its bits. -/
theorem TreeShape.climb_of_path (h : TreeShape m) (n : Nat) {vs : List Bool} (stack : List Bool)
    (hpath : m.Path k vs l) : m.climb (n + vs.length) l stack = m.climb n k (vs ++ stack) := by
  induction hpath generalizing n with
  | nil k => rfl
  | cons hk hrest ih =>
    obtain ⟨hbelow, hparent, -⟩ := h.child_spec hk _
    rw [List.length_cons, Nat.add_comm _ 1, ← Nat.add_assoc, ih (n + 1), Arena.climb, if_neg hbelow.ne_root]
    dsimp only
    rw [hparent, h.right_eq_child_iff hk]
    rfl

end Path

/-! ### The code of a symbol -/

section Code

variable {m : Arena} {code : Nat}

/-- The code of a symbol is the path from the root to its leaf (R118, R179). -/
theorem TreeShape.path_codeOf (h : TreeShape m) (hc : code ≤ Config.maxChar) :
    m.Path Config.root (m.codeOf code) (leafOf code) := by
  have hbelow := (isLeaf_leafOf hc).belowRoot
  unfold Arena.codeOf
  exact h.path_climb climbBound (.inr hbelow) ((h.depth_le hbelow).trans (by decide)) (.nil _)

/-- The only bits that lead from the root to a symbol's leaf are its code. -/
theorem TreeShape.codeOf_eq_of_path (h : TreeShape m) (hc : code ≤ Config.maxChar) {vs : List Bool}
    (hpath : m.Path Config.root vs (leafOf code)) : m.codeOf code = vs := by
  have hlen := h.depth_of_path hpath
  have hdepth := h.depth_le (isLeaf_leafOf hc).belowRoot
  have hbound : vs.length ≤ climbBound := by
    rw [maxChar_eq] at hdepth
    rw [climbBound, twiceMax_eq]
    omega
  obtain ⟨n, hn⟩ := Nat.exists_eq_add_of_le' hbound
  rw [Arena.codeOf, hn, h.climb_of_path n [] hpath, List.append_nil]
  exact m.climb_root n vs

/-- A code has 1 to 628 bits (R41 item 4, R179). -/
theorem TreeShape.length_codeOf (h : TreeShape m) (hc : code ≤ Config.maxChar) :
    1 ≤ (m.codeOf code).length ∧ (m.codeOf code).length ≤ 628 := by
  have hbelow := (isLeaf_leafOf hc).belowRoot
  have hlen := h.depth_of_path (h.path_codeOf hc)
  have hpos := h.depth_parent_lt hbelow
  have hdepth := h.depth_le hbelow
  rw [maxChar_eq] at hdepth
  rw [Arena.depth_root] at hlen
  omega

theorem symbolOf_leafOf (hc : code ≤ Config.maxChar) : symbolOf (leafOf code) = code := by
  rw [maxChar_eq] at hc
  rw [symbolOf, leafOf, successMax_eq, toNat_ofNat_id (by omega)]
  omega

/-- Every leaf is the leaf of a symbol (R171). -/
theorem isLeaf.exists_symbol {l : NodeId} (hl : isLeaf l) : ∃ code, code ≤ Config.maxChar ∧ leafOf code = l := by
  obtain ⟨h1, h2⟩ := hl
  rw [successMax_eq] at h1
  rw [twiceMax_eq] at h2
  refine ⟨l.toNat - 629, by rw [maxChar_eq]; omega, BitVec.eq_of_toNat_eq ?_⟩
  rw [leafOf, successMax_eq, toNat_ofNat_id (by omega)]
  omega

/-- A node below the root is internal or a leaf (R40). -/
theorem isBelowRoot.internal_or_leaf {k : NodeId} (hk : isBelowRoot k) : isInternal k ∨ isLeaf k := by
  obtain ⟨h1, h2⟩ := hk
  unfold isInternal isLeaf
  rw [maxChar_eq, successMax_eq]
  omega

/-- A list of bits either begins with a path to a leaf or is a path to an internal node: no walk meets a null child
(R181). -/
theorem TreeShape.path_to_leaf_or_internal (h : TreeShape m) {k : NodeId} (hk : isInternal k ∨ isLeaf k)
    (ws : List Bool) :
    (∃ vs l, vs <+: ws ∧ isLeaf l ∧ m.Path k vs l) ∨ ∃ l, isInternal l ∧ m.Path k ws l := by
  rcases hk with hint | hleaf
  · induction ws generalizing k with
    | nil => exact .inr ⟨k, hint, .nil k⟩
    | cons v ws ih =>
      obtain ⟨hbelow, -, -⟩ := h.child_spec hint v
      rcases hbelow.internal_or_leaf with hint' | hleaf'
      · rcases ih hint' with ⟨vs, l, hprefix, hl, hpath⟩ | ⟨l, hl, hpath⟩
        · exact .inl ⟨v :: vs, l, (List.prefix_cons_inj v).2 hprefix, hl, .cons hint hpath⟩
        · exact .inr ⟨l, hl, .cons hint hpath⟩
      · exact .inl ⟨[v], _, (List.prefix_cons_inj v).2 List.nil_prefix, hleaf', .cons hint (.nil _)⟩
  · exact .inl ⟨[], k, List.nil_prefix, hleaf, .nil k⟩

/-- A list of bits begins with the code of a symbol, or leads from the root to an internal node. -/
theorem TreeShape.codeOf_prefix_or_internal (h : TreeShape m) (ws : List Bool) :
    (∃ code, code ≤ Config.maxChar ∧ m.codeOf code <+: ws) ∨ ∃ l, isInternal l ∧ m.Path Config.root ws l := by
  rcases h.path_to_leaf_or_internal (.inl isInternal_root) ws with ⟨vs, l, hprefix, hl, hpath⟩ | hint
  · obtain ⟨code, hc, rfl⟩ := hl.exists_symbol
    exact .inl ⟨code, hc, by rwa [h.codeOf_eq_of_path hc hpath]⟩
  · exact .inr hint

/-- The way from the root to an internal node has less than 628 bits: its children are one step further. -/
theorem TreeShape.length_lt_of_path_to_internal (h : TreeShape m) {l : NodeId} (hl : isInternal l) {vs : List Bool}
    (hpath : m.Path Config.root vs l) : vs.length < 628 := by
  obtain ⟨hbelow, -, hchild⟩ := h.child_spec hl true
  have hlen := h.depth_of_path hpath
  have hdepth := h.depth_le hbelow
  rw [maxChar_eq] at hdepth
  rw [Arena.depth_root] at hlen
  omega

end Code

/-! ### HENC (R179) -/

/-- The number whose bits, most significant first, are these is that of the reversed list, least significant first. -/
theorem natOfBitsMsb_eq_natOfBitsLsb_reverse (vs : List Bool) : natOfBitsMsb vs = natOfBitsLsb vs.reverse := by
  have hfold : ∀ ws : List Bool, natOfBitsLsb ws = ws.foldr (fun v n => 2 * n + v.toNat) 0 := fun ws => by
    induction ws with
    | nil => rfl
    | cons v ws ih => rw [natOfBitsLsb, ih, List.foldr_cons, Nat.add_comm]
  rw [hfold, List.foldr_reverse, natOfBitsMsb]

section Encode

variable {s : State}

/-- HENC after its check is `EncodeSym` (R253). -/
theorem exec_henc_of_symbol (hc : s.arg0.toNat ≤ Config.maxChar) :
    exec .henc s = finish ((encodeSym s.arg0.toNat s).bind fun path s1 =>
      .ok { res0 := some (BitVec.ofNat 32 path.length), res1 := some (BitVec.ofNat 32 (natOfBitsMsb path)) } s1) :=
  congrArg finish (require_bind_of_pass hc)

/-- With room for the whole code, HENC writes it, updates the model and completes. -/
theorem exec_henc_of_room (hwf : s.cfg.wf) (hc : s.arg0.toNat ≤ Config.maxChar)
    (hroom : s.outBitpos.toNat + (s.nodes.codeOf s.arg0.toNat).length ≤ 8 * s.cfg.outMemBytes) :
    ∃ t, exec .henc s = .next t
      ∧ t = { s with
          outMem := t.outMem
          outBitpos := t.outBitpos
          nodes := s.nodes.update s.arg0.toNat
          symcount := s.symcount + 1
          res0 := BitVec.ofNat 32 (s.nodes.codeOf s.arg0.toNat).length
          res1 := t.res1 }.afterCompletion
      ∧ t.res1 = BitVec.ofNat 32 (natOfBitsMsb (s.nodes.codeOf s.arg0.toNat))
      ∧ WritesBits s t (s.nodes.codeOf s.arg0.toNat) := by
  rw [exec_henc_of_symbol hc, encodeSym]
  generalize s.nodes.codeOf s.arg0.toNat = path at hroom ⊢
  obtain ⟨mem, b, hput, hwrites⟩ := putBits_writesBits (s := { s with pathStack := path }) path hwf (.inr hroom)
  rw [hput, CmdRes.bind_ok]
  rcases updateModel_cases s.arg0.toNat { s with outMem := mem, outBitpos := b, pathStack := [] } with
    ⟨-, hupdate⟩ | ⟨hbad, -⟩
  · rw [hupdate]
    exact ⟨_, rfl, rfl, rfl, hwrites⟩
  · exact absurd hbad (not_lt.2 hc)

/-- Without room for the whole code, HENC writes the bits that fit, and aborts before the update (R343). -/
theorem exec_henc_of_full (hwf : s.cfg.wf) (hc : s.arg0.toNat ≤ Config.maxChar) (hne : s.nodes.codeOf s.arg0.toNat ≠ [])
    (hfull : 8 * s.cfg.outMemBytes < s.outBitpos.toNat + (s.nodes.codeOf s.arg0.toNat).length) :
    ∃ t, exec .henc s = .next t
      ∧ t = { s with outMem := t.outMem, outBitpos := t.outBitpos }.afterAbort .outputOverflow t.outBitpos
      ∧ WritesBits s t
        ((s.nodes.codeOf s.arg0.toNat).take (8 * s.cfg.outMemBytes - s.outBitpos.toNat)) := by
  rw [exec_henc_of_symbol hc, encodeSym]
  generalize s.nodes.codeOf s.arg0.toNat = path at hne hfull ⊢
  obtain ⟨mem, b, hput, hwrites⟩ := putBits_overflow (s := { s with pathStack := path }) path hwf hne hfull
  rw [hput, CmdRes.bind_abort, CmdRes.bind_abort, finish_abort]
  exact ⟨_, rfl, rfl, hwrites⟩

end Encode

/-- Settles O18: the code is the path to the leaf, and the writer writes it with and without room for all of it. -/
theorem hencWritesCode : Obligations.HencWritesCode := by
  unfold Obligations.HencWritesCode
  refine ⟨by decide, fun s hwf h => ?_⟩
  dsimp only
  refine ⟨fun hbad => finish_require_bind_of_fail (not_le.2 hbad), fun hc => ?_, fun hc hroom => ?_, fun hc hfull => ?_⟩
  · obtain ⟨hpos, hbound⟩ := h.length_codeOf hc
    exact ⟨hpos, hbound, (h.path_codeOf hc).descend⟩
  · obtain ⟨t, ht, hstate, hres, hwrites⟩ := exec_henc_of_room hwf hc hroom
    refine ⟨t, ht, hstate, hwrites, fun k hk => ?_⟩
    rw [hres, BitVec.getLsbD_ofNat, natOfBitsMsb_eq_natOfBitsLsb_reverse, testBit_natOfBitsLsb, decide_eq_true hk,
      Bool.true_and]
  · exact exec_henc_of_full hwf hc (List.ne_nil_of_length_pos (h.length_codeOf hc).1) hfull

/-! ### The walk down (R180) -/

section Decode

variable {s : State} {k l : NodeId}

/-- The stream bits that the reader has before it (R143). -/
def State.bitsAhead (s : State) : List Bool := s.inBits s.inBitpos.toNat (bitsLeft s)

theorem State.length_bitsAhead (s : State) : s.bitsAhead.length = bitsLeft s := by
  simp [State.bitsAhead, State.inBits]

/-- One more bit is ahead: `GetBit` answers it, and the others stay ahead (R143). -/
theorem getBit_of_bitsAhead_cons {v : Bool} {vs : List Bool} (hlen : s.inLen.toNat ≤ 2 ^ 28)
    (hahead : s.bitsAhead = v :: vs) :
    getBit s = .ok v { s with inBitpos := s.inBitpos + 1 } ∧ (s.inBitpos + 1).toNat = s.inBitpos.toNat + 1
      ∧ State.bitsAhead { s with inBitpos := s.inBitpos + 1 } = vs
      ∧ bitsLeft s = bitsLeft { s with inBitpos := s.inBitpos + 1 } + 1 := by
  have hmore : s.inBitpos.toNat < 8 * s.inLen.toNat := by
    have hlength := congrArg List.length hahead
    rw [s.length_bitsAhead, bitsLeft, List.length_cons] at hlength
    omega
  have hnext := cursor_succ_toNat hmore hlen
  have hleft : bitsLeft s = bitsLeft { s with inBitpos := s.inBitpos + 1 } + 1 := by
    unfold bitsLeft
    dsimp only
    omega
  rw [State.bitsAhead, hleft, inBits_succ] at hahead
  obtain ⟨hbit, hrest⟩ := List.cons.inj hahead
  refine ⟨?_, hnext, ?_, hleft⟩
  · rw [getBit_more hmore, ← hbit]
    rfl
  · rw [← hrest, State.bitsAhead]
    dsimp only
    rw [hnext]
    rfl

/-- One step of the walk down, from an internal node with a bit ahead: it goes on from the child on the side of the bit,
which is never NIL (R180, R181). -/
theorem walkDown_of_bitsAhead_cons (h : TreeShape s.nodes) (hlen : s.inLen.toNat ≤ 2 ^ 28) (hk : isInternal k)
    (n : Nat) {v : Bool} {vs : List Bool} (hahead : s.bitsAhead = v :: vs) :
    walkDown (bitsLeft s) k n s
      = walkDown (bitsLeft { s with inBitpos := s.inBitpos + 1 }) (s.nodes.child k v) (n + 1)
        { s with inBitpos := s.inBitpos + 1 } := by
  obtain ⟨hget, -, -, hleft⟩ := getBit_of_bitsAhead_cons hlen hahead
  obtain ⟨hbelow, -, -⟩ := h.child_spec hk v
  have hnil : s.nodes.child k v ≠ Config.nil := fun e => by
    rw [e] at hbelow
    exact absurd hbelow.1 (by decide)
  rw [hleft, walkDown, if_pos hk.2, hget, CmdRes.bind_ok]
  exact if_neg hnil

/-- The walk down stops at a leaf (R180). -/
theorem walkDown_leaf (left : Nat) (hk : isLeaf k) (n : Nat) (s : State) : walkDown left k n s = .ok (k, n) s := by
  have hnot : ¬ k.toNat ≤ Config.maxChar := fun hle => by
    have h1 := hk.1
    rw [successMax_eq] at h1
    rw [maxChar_eq] at hle
    omega
  cases left <;> exact if_neg hnot

/-- With a path to a leaf ahead, the walk down reads it and nothing more (R180). -/
theorem walkDown_of_path (h : TreeShape s.nodes) (hlen : s.inLen.toNat ≤ 2 ^ 28) {vs : List Bool} (n : Nat)
    (hpath : s.nodes.Path k vs l) (hl : isLeaf l) (hprefix : vs <+: s.bitsAhead) :
    walkDown (bitsLeft s) k n s
      = .ok (l, n + vs.length) { s with inBitpos := BitVec.ofNat 32 (s.inBitpos.toNat + vs.length) } := by
  induction vs generalizing k n s with
  | nil =>
    cases hpath
    rw [walkDown_leaf _ hl]
    simp
  | cons v vs ih =>
    obtain _ | ⟨hk, hrest⟩ := hpath
    obtain ⟨ws, hws⟩ := hprefix
    obtain ⟨-, hnext, hahead, -⟩ := getBit_of_bitsAhead_cons hlen hws.symm
    rw [walkDown_of_bitsAhead_cons h hlen hk n hws.symm,
      ih (s := { s with inBitpos := s.inBitpos + 1 }) h hlen (n + 1) hrest ⟨ws, hahead.symm⟩, List.length_cons]
    dsimp only
    rw [hnext, Nat.add_assoc, Nat.add_comm 1, Nat.add_assoc, Nat.add_comm 1]

/-- With all the bits ahead leading to an internal node, the walk down reads them and finds the stream at its end (R143,
R180). -/
theorem walkDown_end (h : TreeShape s.nodes) (hlen : s.inLen.toNat ≤ 2 ^ 28) (n : Nat)
    (hpath : s.nodes.Path k s.bitsAhead l) (hl : isInternal l) :
    walkDown (bitsLeft s) k n s
      = .abort .streamCorruptionEof (BitVec.ofNat 32 (max s.inBitpos.toNat (8 * s.inLen.toNat)))
        { s with inBitpos := BitVec.ofNat 32 (max s.inBitpos.toNat (8 * s.inLen.toNat)) } := by
  generalize hahead : s.bitsAhead = ws at hpath
  induction ws generalizing k n s with
  | nil =>
    cases hpath
    have hleft : bitsLeft s = 0 := by rw [← s.length_bitsAhead, hahead, List.length_nil]
    have hmax : max s.inBitpos.toNat (8 * s.inLen.toNat) = s.inBitpos.toNat :=
      max_eq_left (Nat.le_of_sub_eq_zero hleft)
    rw [hleft, walkDown, if_pos hl.2, hmax, BitVec.ofNat_toNat, BitVec.setWidth_eq]
  | cons v ws ih =>
    obtain _ | ⟨hk, hrest⟩ := hpath
    obtain ⟨-, hnext, hrestAhead, hleft⟩ := getBit_of_bitsAhead_cons hlen hahead
    have hmax : max (s.inBitpos.toNat + 1) (8 * s.inLen.toNat) = max s.inBitpos.toNat (8 * s.inLen.toNat) := by
      unfold bitsLeft at hleft
      omega
    rw [walkDown_of_bitsAhead_cons h hlen hk n hahead,
      ih (s := { s with inBitpos := s.inBitpos + 1 }) h hlen (n + 1) hrestAhead hrest]
    dsimp only
    rw [hnext, hmax]

/-! ### HDEC (R180, R186) -/

/-- HDEC after its check is `DecodeSym` (R292). -/
theorem exec_hdec_of_len (hlen : s.inLen.toNat ≤ s.cfg.inMemBytes) :
    exec .hdec s = finish ((decodeSym s).bind fun r s1 =>
      .ok { res0 := some (BitVec.ofNat 32 r.1), res1 := some (BitVec.ofNat 32 r.2) } s1) :=
  congrArg finish (require_bind_of_pass hlen)

/-- With the code of a symbol ahead, HDEC reads it and updates the model with the symbol. -/
theorem exec_hdec_of_code (hwf : s.cfg.wf) (h : TreeShape s.nodes) (hlen : s.inLen.toNat ≤ s.cfg.inMemBytes)
    {code : Nat} (hc : code ≤ Config.maxChar) (hprefix : s.nodes.codeOf code <+: s.bitsAhead) :
    exec .hdec s = .next { s with
      inBitpos := BitVec.ofNat 32 (s.inBitpos.toNat + (s.nodes.codeOf code).length)
      nodes := s.nodes.update code
      symcount := s.symcount + 1
      res0 := BitVec.ofNat 32 code
      res1 := BitVec.ofNat 32 (s.nodes.codeOf code).length }.afterCompletion := by
  obtain ⟨-, hsize, -, -⟩ := hwf
  have hwalk := walkDown_of_path h (hlen.trans hsize) 0 (h.path_codeOf hc) (isLeaf_leafOf hc) hprefix
  generalize (s.nodes.codeOf code).length = len at hwalk ⊢
  rw [exec_hdec_of_len hlen, decodeSym, hwalk, CmdRes.bind_ok, symbolOf_leafOf hc, Nat.zero_add]
  rcases updateModel_cases code { s with inBitpos := BitVec.ofNat 32 (s.inBitpos.toNat + len) } with
    ⟨-, hupdate⟩ | ⟨hbad, -⟩
  · rw [hupdate]
    rfl
  · exact absurd hbad (not_lt.2 hc)

/-- With no symbol's code ahead, HDEC reads to the end of the stream and aborts there, before the update (R143). -/
theorem exec_hdec_of_no_code (hwf : s.cfg.wf) (h : TreeShape s.nodes) (hlen : s.inLen.toNat ≤ s.cfg.inMemBytes)
    (hnone : ∀ code, code ≤ Config.maxChar → ¬ s.nodes.codeOf code <+: s.bitsAhead) :
    exec .hdec s = .next
      ({ s with inBitpos := BitVec.ofNat 32 (max s.inBitpos.toNat (8 * s.inLen.toNat)) }.afterAbort .streamCorruptionEof
        (BitVec.ofNat 32 (max s.inBitpos.toNat (8 * s.inLen.toNat)))) := by
  obtain ⟨-, hsize, -, -⟩ := hwf
  rcases h.codeOf_prefix_or_internal s.bitsAhead with ⟨code, hc, hprefix⟩ | ⟨l, hl, hpath⟩
  · exact absurd hprefix (hnone code hc)
  · rw [exec_hdec_of_len hlen, decodeSym, walkDown_end h (hlen.trans hsize) 0 hpath hl]
    rfl

end Decode

/-- Settles O19: the walk down reads the code that is ahead; 628 bits are more than lead to an internal node; with no
code ahead the stream ends on one. -/
theorem hdecReadsOneSymbol : Obligations.HdecReadsOneSymbol := by
  unfold Obligations.HdecReadsOneSymbol
  refine ⟨by decide, fun s hwf h => ?_⟩
  have hahead : s.inBits s.inBitpos.toNat (8 * s.inLen.toNat - s.inBitpos.toNat) = s.bitsAhead := rfl
  dsimp only
  rw [hahead]
  refine ⟨fun hbad => finish_require_bind_of_fail (not_le.2 hbad), fun hlen code hc => exec_hdec_of_code hwf h hlen hc,
    fun hlong => ?_, exec_hdec_of_no_code hwf h⟩
  exact (h.codeOf_prefix_or_internal s.bitsAhead).resolve_right fun ⟨l, hl, hpath⟩ =>
    not_lt.2 hlong (h.length_lt_of_path_to_internal hl hpath)

/-! ### Reading back what was written (R186) -/

/-- The written bits read as they were written where the partial byte held no stale 1 (R99, R140). -/
theorem WritesBits.outBit_of_tailClear {s t : State} {vs : List Bool} (hwrites : WritesBits s t vs)
    (hclear : TailClear s) {k : Nat} (hk : k < vs.length) : t.outBit (s.outBitpos.toNat + k) = vs[k] := by
  obtain ⟨-, hbits, -, -⟩ := hwrites
  have hstale : s.staleBit (s.outBitpos.toNat + k) = false := by
    rw [State.staleBit, Bool.and_eq_false_iff, decide_eq_false_iff_not]
    refine or_iff_not_imp_left.2 fun hpartial => hclear _ (Nat.le_add_right _ _) ?_
    have hin := not_not.1 hpartial
    omega
  rw [hbits _ (Nat.le_add_right _ _) (by omega), hstale, Bool.or_false, Nat.add_sub_cancel_left,
    List.getD_eq_getElem _ _ hk]

/-- Bits that stand at the read cursor, before the end of the stream, are ahead of the reader. -/
theorem prefix_bitsAhead {d : State} {vs : List Bool} (hlen : d.inBitpos.toNat + vs.length ≤ 8 * d.inLen.toNat)
    (hbits : ∀ k (hk : k < vs.length), d.inBit (d.inBitpos.toNat + k) = vs[k]) : vs <+: d.bitsAhead := by
  have hfit : vs.length ≤ d.bitsAhead.length := by
    rw [d.length_bitsAhead, bitsLeft]
    omega
  refine List.prefix_iff_getElem.2 ⟨hfit, fun k hk => ?_⟩
  rw [← hbits k hk]
  simp [State.bitsAhead, State.inBits]

/-- A HENC that reports no error has checked its symbol and found room for its code. -/
theorem henc_symbol_and_room {s t : State} (hwf : s.cfg.wf) (h : TreeShape s.nodes) (ht : exec .henc s = .next t)
    (hok : t.status.err = false) : s.arg0.toNat ≤ Config.maxChar
      ∧ s.outBitpos.toNat + (s.nodes.codeOf s.arg0.toNat).length ≤ 8 * s.cfg.outMemBytes := by
  by_cases hc : s.arg0.toNat ≤ Config.maxChar
  · refine ⟨hc, not_lt.1 fun hfull => ?_⟩
    obtain ⟨t', ht', hstate, -⟩ := exec_henc_of_full hwf hc (List.ne_nil_of_length_pos (h.length_codeOf hc).1) hfull
    rw [ht] at ht'
    cases ht'
    rw [hstate] at hok
    cases hok
  · have hbad : exec .henc s = .next (s.afterAbort .invalidSymbol s.arg0) := finish_require_bind_of_fail hc
    rw [ht] at hbad
    cases hbad
    cases hok

/-- Settles O20: a HENC that reports no error has written its symbol's code, which HDEC finds ahead in the same tree. -/
theorem hdecInvertsHenc : Obligations.HdecInvertsHenc := by
  unfold Obligations.HdecInvertsHenc
  intro s t d hwf hwf' h hnodes hclear _ ht hok hlen hend hbits
  obtain ⟨hc, hroom⟩ := henc_symbol_and_room hwf h ht hok
  obtain ⟨t', ht', hstate, -, hwrites⟩ := exec_henc_of_room hwf hc hroom
  obtain ⟨-, hbound⟩ := h.length_codeOf hc
  rw [ht] at ht'
  cases ht'
  have htree := congrArg State.nodes hstate
  have hres := congrArg State.res0 hstate
  dsimp only [State.afterCompletion] at htree hres
  have hcount : t.res0.toNat = (s.nodes.codeOf s.arg0.toNat).length := by
    rw [hres, BitVec.toNat_ofNat, Nat.mod_eq_of_lt (by omega)]
  rw [hcount] at hend hbits
  have hahead : s.nodes.codeOf s.arg0.toNat <+: d.bitsAhead :=
    prefix_bitsAhead hend fun k hk => (hbits k hk).trans (hwrites.outBit_of_tailClear hclear hk)
  rw [← hnodes] at h hahead hres htree
  rw [exec_hdec_of_code hwf' h hlen hc hahead, htree, hres, BitVec.ofNat_add, BitVec.ofNat_toNat, BitVec.ofNat_toNat,
    BitVec.setWidth_eq, BitVec.setWidth_eq]

end Sys2Proof.Machine
end

section
/-! PROOFS. The match finder and the mode scans (42_match). HINS goes through what one insertion leaves in the heads and
in each link. A search is a fold over the candidates of a chain that keeps `BestMatch`, because a candidate has at most one
match length and the check at the best length skips no longer match. The line scan is a recursion over the line starts. -/

namespace Sys2Proof.Machine

/-! ### The hash key and the insertion (R210, R214) -/

/-- A byte shifted inside a word loses no bit. -/
theorem setWidth_shiftLeft_toNat (b : Byte) {k : Nat} (hk : k ≤ 24) :
    (b.setWidth 32 <<< k : Word).toNat = b.toNat <<< k := by
  have hb : b.toNat * 2 ^ k < 2 ^ 32 := by
    calc b.toNat * 2 ^ k < 2 ^ 8 * 2 ^ k := Nat.mul_lt_mul_of_pos_right b.isLt (Nat.two_pow_pos k)
      _ = 2 ^ (8 + k) := (pow_add 2 8 k).symm
      _ ≤ 2 ^ 32 := Nat.pow_le_pow_right (by decide) (by omega)
  have hwide : (b.setWidth 32 : Word).toNat = b.toNat := BitVec.toNat_setWidth_of_le (by decide)
  rw [BitVec.toNat_shiftLeft, hwide, Nat.mod_eq_of_lt (by rwa [Nat.shiftLeft_eq])]

/-- R210: the formula of the key, over numbers. -/
theorem hashKey_toNat (s : State) (p : Nat) :
    (hashKey s p).toNat = (((s.inByte p).toNat <<< 6 ^^^ (s.inByte (p + 1)).toNat <<< 3) ^^^ (s.inByte (p + 2)).toNat)
      &&& 0x3FFF := by
  have hwide : ((s.inByte (p + 2)).setWidth 32 : Word).toNat = (s.inByte (p + 2)).toNat :=
    BitVec.toNat_setWidth_of_le (by decide)
  have hmask : (0x3FFF : Word).toNat = 0x3FFF := rfl
  rw [hashKey, BitVec.toNat_setWidth, BitVec.toNat_and, BitVec.toNat_xor, BitVec.toNat_xor,
    setWidth_shiftLeft_toNat _ (by decide), setWidth_shiftLeft_toNat _ (by decide), hwide, hmask]
  exact Nat.mod_eq_of_lt (Nat.lt_succ_of_le Nat.and_le_right)

/-- The position that was the newest points back to the one inserted, also where the two are the same (R214). -/
theorem linkPosition_prev (s : State) (p : Nat) (c : Word) :
    (linkPosition s p).prevAt c = if s.headAt (hashKey s p) = some c then some (BitVec.ofNat 32 p)
      else if c = BitVec.ofNat 32 p then none else s.prevAt c := by
  have hfirst : (sparseFind (sparseList s.prev (BitVec.ofNat 32 p : Word).toNat none) c.toNat).getD
      (Config.unwrittenPrev c.toNat) = if c = BitVec.ofNat 32 p then none else s.prevAt c := by
    split_ifs with hc
    · rw [hc, sparseFind_list_same]
      rfl
    · rw [sparseFind_list_other _ _ fun e => hc (BitVec.eq_of_toNat_eq e.symm)]
      rfl
  unfold State.prevAt linkPosition
  dsimp only
  cases s.headAt (hashKey s p) with
  | none => exact hfirst
  | some h =>
    by_cases hc : h = c
    · rw [hc, if_pos rfl, sparseFind_list_same]
      rfl
    · rw [if_neg fun e => hc (Option.some.inj e), sparseFind_list_other _ _ fun e => hc (BitVec.eq_of_toNat_eq e)]
      exact hfirst

/-! ### The checks of HINS and FMAT (R111, R344) -/

section Checks

variable {s : State} {f : Unit → State → CmdRes Results}

theorem finish_positionChecks_of_pass (hlen : s.inLen.toNat ≤ s.cfg.inMemBytes) (hp : s.arg0.toNat < s.inLen.toNat) :
    finish ((checkInLen s).bind fun _ s1 => (checkPosition s1.arg0 s1).bind f) = finish (f () s) :=
  congrArg finish ((require_bind_of_pass hlen).trans (require_bind_of_pass hp))

theorem finish_positionChecks_of_past_end (hlen : s.inLen.toNat ≤ s.cfg.inMemBytes)
    (hp : s.inLen.toNat ≤ s.arg0.toNat) :
    finish ((checkInLen s).bind fun _ s1 => (checkPosition s1.arg0 s1).bind f)
      = .next (s.afterAbort .badArgument s.arg0) :=
  (congrArg finish (require_bind_of_pass hlen)).trans (finish_require_bind_of_fail (not_lt.2 hp))

end Checks

/-! ### HINS (R215) -/

theorem exec_hins_of_position {s : State} (hlen : s.inLen.toNat ≤ s.cfg.inMemBytes)
    (hp : s.arg0.toNat < s.inLen.toNat) :
    exec .hins s = .next ((insertPosition s s.arg0.toNat).2.complete
      { res0 := some (keyWord (insertPosition s s.arg0.toNat).1) }) :=
  finish_positionChecks_of_pass hlen hp

/-- Settles O26: the two checks, and then what one insertion leaves in the heads and the links. -/
theorem hinsInsertsPosition : Obligations.HinsInsertsPosition := by
  unfold Obligations.HinsInsertsPosition
  refine ⟨by decide, fun s => ⟨fun hlen => finish_require_bind_of_fail (not_le.2 hlen),
    fun hlen hp => finish_positionChecks_of_past_end hlen hp, fun hlen hp hshort => ?_, fun hlen hkey => ?_⟩⟩
  · have hnokey : hasKey s s.arg0.toNat = false := decide_eq_false (not_le.2 hshort)
    rw [exec_hins_of_position hlen hp, insertPosition, hnokey]
    rfl
  · have hhaskey : hasKey s s.arg0.toNat = true := decide_eq_true hkey
    have hword : (BitVec.ofNat 32 s.arg0.toNat : Word) = s.arg0 := by rw [BitVec.ofNat_toNat, BitVec.setWidth_eq]
    refine ⟨hashKey s s.arg0.toNat, (linkPosition s s.arg0.toNat).complete
      { res0 := some ((hashKey s s.arg0.toNat).setWidth 32) }, hashKey_toNat s _, ?_, rfl, fun k => ?_, fun c => ?_,
      fun c => ?_⟩
    · rw [exec_hins_of_position hlen (by omega), insertPosition, hhaskey]
      rfl
    · refine (linkPosition_head s _ k).trans ?_
      rw [hword]
      exact if_congr eq_comm rfl rfl
    · refine (linkPosition_next s _ c).trans ?_
      rw [hword]
      exact if_congr eq_comm rfl rfl
    · refine (linkPosition_prev s _ c).trans ?_
      rw [hword]

/-! ### The match of one candidate (R221, R222) -/

section Search

variable {s : State} {q c : Nat}

/-- Where one match length ends, no other goes on: a bound is reached, or the next bytes differ (R221). -/
theorem IsMatchLength.le {l l' : Nat} (h : IsMatchLength s q c l) (h' : IsMatchLength s q c l') : l ≤ l' := by
  obtain ⟨hmax, hbefore, hend, hagree, -⟩ := h
  obtain ⟨-, -, -, -, hstop⟩ := h'
  by_contra hlt
  have hbyte := hagree l' (by omega)
  rcases hstop with hfull | hreach | hlast | hdiffer
  · omega
  · omega
  · omega
  · exact hdiffer hbyte

/-- A candidate has one match length at most. -/
theorem IsMatchLength.unique {l l' : Nat} (h : IsMatchLength s q c l) (h' : IsMatchLength s q c l') : l = l' :=
  Nat.le_antisymm (h.le h') (h'.le h)

/-- The extension from a length that agrees already ends at the match length (R221). -/
theorem extendMatch_isMatchLength (left : Nat) {len : Nat} (hmax : len + left = 64) (hbefore : c + len ≤ q)
    (hend : q + len ≤ s.inLen.toNat) (hagree : ∀ t, t < len → s.inByte (c + t) = s.inByte (q + t)) :
    IsMatchLength s q c (extendMatch s q c left len) := by
  induction left generalizing len with
  | zero => exact ⟨by rw [extendMatch]; omega, hbefore, hend, hagree, Or.inl hmax⟩
  | succ left ih =>
    unfold extendMatch
    split_ifs with hmore
    · obtain ⟨hq, hn, hbyte⟩ := hmore
      refine ih (by omega) (by omega) (by omega) fun t ht => ?_
      rcases Nat.lt_succ_iff_lt_or_eq.1 ht with ht | rfl
      · exact hagree t ht
      · exact hbyte
    · refine ⟨by omega, hbefore, hend, hagree, ?_⟩
      by_cases hbyte : s.inByte (c + len) = s.inByte (q + len)
      · have hbound : ¬ (c + len < q ∧ q + len < s.inLen.toNat) := fun ⟨hq, hn⟩ => hmore ⟨hq, hn, hbyte⟩
        omega
      · exact Or.inr (Or.inr (Or.inr hbyte))

/-- A candidate that does not lie before `q` is not extended (R223). -/
theorem extendMatch_of_ge (left : Nat) (hc : q ≤ c) : extendMatch s q c left 0 = 0 := by
  cases left with
  | zero => rfl
  | succ left => exact if_neg fun h => by omega

/-- R222 with the bounds of the copy-range table put in. -/
theorem acceptMatch_iff (s : State) (q c len best : Nat) : acceptMatch s q c len best = true ↔
    4 ≤ len ∧ best < len ∧ q - c - len ≤ (if s.mode.bin then 5455 else 1359)
      ∧ (s.mode.dict = true → q - c - len ≤ 15) := by
  obtain ⟨hdict, -, -, htext, hbin, -⟩ := copyMax_values
  have hbound : distanceBound s = if s.mode.bin then 5455 else 1359 := by
    unfold distanceBound
    cases s.mode.bin
    · exact htext
    · exact hbin
  have hdictionary : (!s.mode.dict) = true ∨ q - c - len ≤ 15 ↔ (s.mode.dict = true → q - c - len ≤ 15) := by
    cases s.mode.dict <;> simp
  rw [acceptMatch, hbound, hdict]
  simp only [Bool.and_eq_true, Bool.or_eq_true, decide_eq_true_iff, and_assoc, hdictionary]
  rfl

/-- A match with the mode's bounds is an extension that R222 accepts when nothing better is known. -/
theorem isMatch_iff (hq : q ≤ s.inLen.toNat) (l : Nat) : IsMatch s s.mode q c l ↔
    l = extendMatch s q c Config.maxCopy 0 ∧ acceptMatch s q c l 0 = true := by
  rw [acceptMatch_iff]
  constructor
  · rintro ⟨hlen, hmin, hbound, hdict⟩
    have hc : c ≤ q := le_trans (Nat.le_add_right c l) hlen.2.1
    exact ⟨hlen.unique (extendMatch_isMatchLength _ rfl hc hq (by simp)), hmin, by omega, hbound, hdict⟩
  · rintro ⟨rfl, hmin, -, hbound, hdict⟩
    have hc : c ≤ q := by
      by_contra hc
      rw [extendMatch_of_ge _ (by omega)] at hmin
      omega
    exact ⟨extendMatch_isMatchLength _ rfl hc hq (by simp), hmin, hbound, hdict⟩

theorem IsMatch.unique {m : Mode} {l l' : Nat} (h : IsMatch s m q c l) (h' : IsMatch s m q c l') : l = l' :=
  h.1.unique h'.1

/-- The check at the best length passes when the match is longer, so it skips no longer match (R221). -/
theorem IsMatchLength.agrees_at {l best : Nat} (h : IsMatchLength s q c l) (hbest : best < l) :
    prefixAgrees s q c best = true := by
  obtain ⟨-, hbefore, hend, hagree, -⟩ := h
  simp only [prefixAgrees, Bool.and_eq_true, decide_eq_true_eq]
  exact ⟨⟨by omega, by omega⟩, hagree best hbest⟩

/-- A longer match replaces the best one (R221, R222). -/
theorem tryCandidate_of_longer {l : Nat} {best : Nat × Nat} (hq : q ≤ s.inLen.toNat) (h : IsMatch s s.mode q c l)
    (hbest : best.1 < l) : tryCandidate s q c best = (l, q - c - l) := by
  obtain ⟨hl, haccept⟩ := (isMatch_iff hq l).1 h
  obtain ⟨hmin, -, hbounds⟩ := (acceptMatch_iff ..).1 haccept
  rw [tryCandidate, if_pos (h.1.agrees_at hbest)]
  dsimp only
  rw [← hl, if_pos ((acceptMatch_iff ..).2 ⟨hmin, hbest, hbounds⟩)]

/-- Without a longer match the best one stays (R221, R222). -/
theorem tryCandidate_of_no_longer {best : Nat × Nat} (hq : q ≤ s.inLen.toNat)
    (h : ∀ l, IsMatch s s.mode q c l → l ≤ best.1) : tryCandidate s q c best = best := by
  refine (tryCandidate_cases s q c best).resolve_right fun ⟨_, haccept⟩ => ?_
  obtain ⟨hmin, hbest, hbounds⟩ := (acceptMatch_iff ..).1 haccept
  exact not_le.2 hbest (h _ ((isMatch_iff hq _).2 ⟨rfl, (acceptMatch_iff ..).2 ⟨hmin, by omega, hbounds⟩⟩))

/-! ### The search over a chain (R221, R224) -/

/-- What a search from `q` holds after some candidates, from `(0, 0)`. -/
def bestOf (s : State) (q : Nat) (chain : List Nat) : Nat × Nat :=
  chain.foldl (fun best c => tryCandidate s q c best) (0, 0)

theorem searchChain_eq_foldl (s : State) (q hops : Nat) (link : Link) (best : Nat × Nat) :
    searchChain s q hops link best
      = ((chainFrom s hops link).map BitVec.toNat).foldl (fun best c => tryCandidate s q c best) best := by
  induction hops generalizing link best with
  | zero => rfl
  | succ hops ih =>
    cases link with
    | none => rfl
    | some c => exact ih _ _

theorem findMatch_eq_bestOf (s : State) (q depth : Nat) :
    findMatch s q depth = bestOf s q ((candidates s q depth).map BitVec.toNat) := by
  by_cases hkey : q + 3 ≤ s.inLen.toNat
  · have hhaskey : hasKey s q = true := decide_eq_true hkey
    rw [findMatch, if_pos hhaskey, candidates, if_pos hkey, searchChain_eq_foldl, bestOf]
  · have hnokey : hasKey s q = false := decide_eq_false hkey
    rw [findMatch_keyless depth hnokey, candidates, if_neg hkey]
    rfl

section Best

variable {m : Mode} {chain : List Nat} {len dist : Nat}

theorem BestMatch.length_le (h : BestMatch s m q chain len dist) {j c l : Nat} (hj : chain[j]? = some c)
    (hl : IsMatch s m q c l) : l ≤ len := by
  rcases h with ⟨-, -, hnone⟩ | ⟨-, -, _, _, -, -, -, hbest⟩
  · exact absurd hl (hnone c (List.mem_of_getElem? hj) l)
  · rcases hbest j c l hj hl with hlt | ⟨heq, -⟩
    · exact hlt.le
    · exact heq.le

/-- Where a chain with one more candidate has its candidates. -/
theorem getElem?_concat_cases {j c c' : Nat} (h : (chain ++ [c])[j]? = some c') :
    chain[j]? = some c' ∨ (j = chain.length ∧ c' = c) := by
  rcases Nat.lt_trichotomy j chain.length with hlt | rfl | hgt
  · rw [List.getElem?_append_left hlt] at h
    exact Or.inl h
  · rw [List.getElem?_concat_length] at h
    exact Or.inr ⟨rfl, (Option.some.inj h).symm⟩
  · rw [List.getElem?_eq_none (by simpa using hgt)] at h
    cases h

/-- One more candidate with a longer match is the new best. -/
theorem BestMatch.concat_longer (h : BestMatch s m q chain len dist) {c l : Nat} (hl : IsMatch s m q c l)
    (hlonger : len < l) : BestMatch s m q (chain ++ [c]) l (q - c - l) := by
  refine Or.inr ⟨hl.2.1, hl.1.1, chain.length, c, List.getElem?_concat_length, hl, rfl, fun j' c' l' hj' hl' => ?_⟩
  rcases getElem?_concat_cases hj' with hold | ⟨rfl, rfl⟩
  · exact Or.inl ((h.length_le hold hl').trans_lt hlonger)
  · exact Or.inr ⟨hl'.unique hl, le_rfl⟩

/-- One more candidate without a longer match leaves the best as it was, so the earliest of equals stays (R224). -/
theorem BestMatch.concat_no_longer (h : BestMatch s m q chain len dist) {c : Nat}
    (hc : ∀ l, IsMatch s m q c l → l ≤ len) : BestMatch s m q (chain ++ [c]) len dist := by
  rcases h with ⟨rfl, hdist, hnone⟩ | ⟨hmin, hmax, j, c', hj, hmatch, hdist, hbest⟩
  · refine Or.inl ⟨rfl, hdist, fun c' hc' l hl => ?_⟩
    rcases List.mem_append.1 hc' with hold | hnew
    · exact hnone c' hold l hl
    · rw [List.mem_singleton.1 hnew] at hl
      have hmin := hl.2.1
      have hzero := hc l hl
      omega
  · obtain ⟨hjlt, -⟩ := List.getElem?_eq_some_iff.1 hj
    refine Or.inr ⟨hmin, hmax, j, c', (List.getElem?_append_left hjlt).trans hj, hmatch, hdist,
      fun j' c'' l hj' hl => ?_⟩
    rcases getElem?_concat_cases hj' with hold | ⟨rfl, rfl⟩
    · exact hbest j' c'' l hold hl
    · exact (hc l hl).lt_or_eq.imp_right fun heq => ⟨heq, hjlt.le⟩

end Best

/-- What the search holds after any number of candidates is the best match among them. -/
theorem bestMatch_bestOf (hq : q ≤ s.inLen.toNat) (chain : List Nat) :
    BestMatch s s.mode q chain (bestOf s q chain).1 (bestOf s q chain).2 := by
  induction chain using List.reverseRecOn with
  | nil => exact Or.inl ⟨rfl, rfl, by simp⟩
  | append_singleton chain c ih =>
    have hstep : bestOf s q (chain ++ [c]) = tryCandidate s q c (bestOf s q chain) := by simp [bestOf]
    rw [hstep]
    by_cases hlonger : ∃ l, IsMatch s s.mode q c l ∧ (bestOf s q chain).1 < l
    · obtain ⟨l, hl, hlt⟩ := hlonger
      rw [tryCandidate_of_longer hq hl hlt]
      exact ih.concat_longer hl hlt
    · have hno : ∀ l, IsMatch s s.mode q c l → l ≤ (bestOf s q chain).1 :=
        fun l hl => not_lt.1 fun hlt => hlonger ⟨l, hl, hlt⟩
      rw [tryCandidate_of_no_longer hq hno]
      exact ih.concat_no_longer hno

/-- R220 to R224: the search finds the best match among its candidates. -/
theorem findMatch_bestMatch (hq : q ≤ s.inLen.toNat) (depth : Nat) :
    BestMatch s s.mode q ((candidates s q depth).map BitVec.toNat) (findMatch s q depth).1 (findMatch s q depth).2 := by
  rw [findMatch_eq_bestOf]
  exact bestMatch_bestOf hq _

end Search

/-- Settles O27: the two checks, and then the search. -/
theorem fmatFindsLongestMatch : Obligations.FmatFindsLongestMatch := by
  unfold Obligations.FmatFindsLongestMatch
  exact ⟨by decide, fun s => ⟨fun hlen => finish_require_bind_of_fail (not_le.2 hlen),
    fun hlen hq => finish_positionChecks_of_past_end hlen hq,
    fun hlen hq => ⟨_, _, finish_positionChecks_of_pass hlen hq, findMatch_bestMatch hq.le _⟩⟩⟩

/-! ### The mode scans (R230, R231) -/

/-- The inner loop counts the bytes that agree before the first that differ. -/
theorem lineMatch_eq_length_takeWhile (s : State) (left i k : Nat) :
    lineMatch s left i k
      = ((List.range left).takeWhile fun m => decide (s.inByte (i + m) = s.inByte (k + m))).length := by
  induction left generalizing i k with
  | zero => rfl
  | succ left ih =>
    rw [lineMatch, List.range_succ_eq_map, List.takeWhile_cons]
    by_cases hbyte : s.inByte i = s.inByte k
    · simp [hbyte, ih, List.takeWhile_map, Function.comp_def, Nat.add_assoc, Nat.add_comm 1]
    · simp [hbyte]

/-- The outer loop adds up how far the lines agree, over the line starts that are left. -/
theorem lineScan_eq_sum (s : State) (left j i count : Nat) :
    lineScan s (min 67 s.inLen.toNat) left j i count = count
      + (((i :: (List.range' j left).filter fun k => decide (s.inByte (k - 1) = 10)).zip
        ((List.range' j left).filter fun k => decide (s.inByte (k - 1) = 10))).map
          fun e => commonPrefix s e.1 e.2).sum := by
  induction left generalizing j i count with
  | zero => rfl
  | succ left ih =>
    rw [lineScan, List.range'_succ]
    by_cases hstart : s.inByte (j - 1) = 10
    · have hcount : lineMatch s (min 67 s.inLen.toNat - j) i j = commonPrefix s i j :=
        lineMatch_eq_length_takeWhile ..
      rw [if_pos hstart, ih, hcount, List.filter_cons_of_pos (by simpa using hstart), List.zip_cons_cons, List.map_cons,
        List.sum_cons, Nat.add_assoc]
    · rw [if_neg hstart, ih, List.filter_cons_of_neg (by simpa using hstart)]

theorem lineStarts_eq_filter (s : State) :
    lineStarts s = (List.range' 1 (min 67 s.inLen.toNat - 1)).filter fun j => decide (s.inByte (j - 1) = 10) := by
  unfold lineStarts
  cases min 67 s.inLen.toNat with
  | zero => rfl
  | succ w =>
    rw [List.range_eq_range', List.range'_succ, List.filter_cons_of_neg (by simp)]
    refine List.filter_congr fun j hj => ?_
    rw [decide_eq_true (List.mem_range'_1.1 hj).1, Bool.true_and]

/-- R231: the scan's count is the agreement of the lines. -/
theorem lineCount_eq_lineAgreement (s : State) : lineCount s = lineAgreement s := by
  rw [lineAgreement, lineStarts_eq_filter]
  exact (lineScan_eq_sum s _ 1 0 0).trans (Nat.zero_add _)

/-- R230, R231: the mode the scans give. -/
theorem scannedMode_eq_startMode (s : State) : scannedMode s = startMode s := by
  rw [scannedMode, hasDictionary, lineCount_eq_lineAgreement]
  rfl

theorem startMode_bin_iff (s : State) :
    (startMode s).bin = true ↔ ∃ k, k < 64 ∧ k < s.inLen.toNat ∧ 127 < (s.inByte k).toNat := by
  simp [startMode, and_assoc]

theorem exec_mscan_of_inLen {s : State} (hlen : s.inLen.toNat ≤ s.cfg.inMemBytes) :
    exec .mscan s = .next { s with
      mode := scannedMode s
      res0 := (scannedMode s).word
      res1 := BitVec.ofNat 32 (lineCount s) }.afterCompletion :=
  congrArg finish (require_bind_of_pass hlen)

/-- Settles O28: the check, and then the scans in the words of the claim. -/
theorem mscanSetsMode : Obligations.MscanSetsMode := by
  unfold Obligations.MscanSetsMode
  refine ⟨by decide, fun s => ⟨fun hlen => finish_require_bind_of_fail (not_le.2 hlen), fun hlen =>
    ⟨(startMode s).bin, (startMode s).dict, startMode_bin_iff s, decide_eq_true_iff, ?_⟩⟩⟩
  rw [exec_mscan_of_inLen hlen, Mode.word_eq, scannedMode_eq_startMode, lineCount_eq_lineAgreement]

end Sys2Proof.Machine
end

section
/-! PROOFS. What COMPRESS reads of a state (43_compress R251): the input bytes and their number. Every term that the choice
of R254 to R260 is stated with is a function of them. -/

namespace Sys2Proof.Machine

/-- Two states hold the same input: IN_LEN and the bytes below it. -/
def SameInput (s u : State) : Prop := u.inLen = s.inLen ∧ ∀ a, a < s.inLen.toNat → u.inByte a = s.inByte a

section Input

variable {s u : State}

theorem SameInput.symm (h : SameInput s u) : SameInput u s := by
  obtain ⟨hlen, hbytes⟩ := h
  exact ⟨hlen.symm, fun a ha => (hbytes a (by rwa [← hlen])).symm⟩

theorem SameInput.of_inMem (hlen : u.inLen = s.inLen) (hmem : u.inMem = s.inMem) : SameInput s u :=
  ⟨hlen, fun a _ => by rw [State.inByte, State.inByte, hmem]⟩

/-- A command's body leaves its input alone (R37, R80). -/
theorem BodyFrame.sameInput (h : BodyFrame s u) : SameInput s u := by
  obtain ⟨-, -, -, -, -, -, -, hlen, -, hmem, -⟩ := h
  exact .of_inMem hlen hmem

/-! ### Keys and candidates (R210, R211, R221) -/

theorem SameInput.hashKey_eq (h : SameInput s u) {p : Nat} (hp : p + 3 ≤ s.inLen.toNat) : hashKey u p = hashKey s p := by
  obtain ⟨-, hbytes⟩ := h
  rw [hashKey, hashKey, hbytes p (by omega), hbytes (p + 1) (by omega), hbytes (p + 2) (by omega)]

theorem SameInput.keyedBelow_eq (h : SameInput s u) (m : Nat) (key : Key) : keyedBelow u m key = keyedBelow s m key := by
  unfold keyedBelow
  rw [h.1]
  refine List.filter_congr fun c _ => ?_
  by_cases hc : c + 3 ≤ s.inLen.toNat
  · rw [h.hashKey_eq hc]
  · simp [hc]

theorem SameInput.candidatesBelow_eq (h : SameInput s u) (m q depth : Nat) :
    candidatesBelow u m q depth = candidatesBelow s m q depth := by
  unfold candidatesBelow
  rw [h.1]
  by_cases hq : q + 3 ≤ s.inLen.toNat
  · rw [if_pos hq, if_pos hq, h.hashKey_eq hq, h.keyedBelow_eq]
  · rw [if_neg hq, if_neg hq]

/-! ### Matches and choices (R221, R222, R254 to R260) -/

/-- A match lies inside the input, and so does the byte after it unless the input's end stops it. -/
theorem SameInput.isMatchLength (h : SameInput s u) {q c len : Nat} (hm : IsMatchLength s q c len) :
    IsMatchLength u q c len := by
  obtain ⟨hlen, hbytes⟩ := h
  obtain ⟨hmax, hbefore, hend, hagree, hstop⟩ := hm
  unfold IsMatchLength
  rw [hlen]
  refine ⟨hmax, hbefore, hend, fun t ht => ?_, ?_⟩
  · rw [hbytes _ (by omega), hbytes _ (by omega), hagree t ht]
  · by_cases hlast : q + len < s.inLen.toNat
    · rwa [hbytes _ hlast, hbytes _ (by omega)]
    · exact Or.inr (Or.inr (Or.inl (by omega)))

theorem SameInput.isMatch_iff (h : SameInput s u) (mode : Mode) (q c len : Nat) :
    IsMatch u mode q c len ↔ IsMatch s mode q c len :=
  and_congr_left' ⟨h.symm.isMatchLength, h.isMatchLength⟩

theorem SameInput.bestMatch_iff (h : SameInput s u) (mode : Mode) (q : Nat) (chain : List Nat) (len dist : Nat) :
    BestMatch u mode q chain len dist ↔ BestMatch s mode q chain len dist := by
  simp only [BestMatch, h.isMatch_iff]

theorem SameInput.lazyChoice_iff (h : SameInput s u) (mode : Mode) (p len dist : Nat) :
    LazyChoice u mode p len dist ↔ LazyChoice s mode p len dist := by
  simp only [LazyChoice, h.bestMatch_iff, h.candidatesBelow_eq]

theorem SameInput.chosenItem_iff (h : SameInput s u) (mode : Mode) {p : Nat} (hp : p < s.inLen.toNat) (it : Item) :
    ChosenItem u mode p it ↔ ChosenItem s mode p it := by
  simp only [ChosenItem, h.lazyChoice_iff, h.2 p hp]

theorem SameInput.choosesFrom (h : SameInput s u) {bin : Bool} {pEnd : Nat} {dictEnd : Bool} {items : List Item} {p : Nat}
    {dict : Bool} {b : Nat} {m : Arena} (hc : ChoosesFrom s bin pEnd dictEnd p dict b m items) :
    ChoosesFrom u bin pEnd dictEnd p dict b m items := by
  induction items generalizing p dict b m with
  | nil => exact hc
  | cons it items ih =>
    obtain ⟨hp, hit, hrest⟩ := hc
    refine ⟨by rwa [h.1], (h.chosenItem_iff _ hp it).2 hit, ih ?_⟩
    unfold dictAfter at hrest ⊢
    rwa [h.1]

/-! ### The mode scans (R230, R231) -/

theorem SameInput.lineMatch_eq (h : SameInput s u) {left i k : Nat} (hik : i ≤ k) (hk : k + left ≤ s.inLen.toNat) :
    lineMatch u left i k = lineMatch s left i k := by
  induction left generalizing i k with
  | zero => rfl
  | succ left ih =>
    rw [lineMatch, lineMatch, h.2 i (by omega), h.2 k (by omega), ih (by omega) (by omega)]

theorem SameInput.lineScan_eq (h : SameInput s u) {window left j i : Nat} (count : Nat) (hwindow : window ≤ s.inLen.toNat)
    (hij : i ≤ j) (hj : j + left ≤ window) : lineScan u window left j i count = lineScan s window left j i count := by
  induction left generalizing j i count with
  | zero => rfl
  | succ left ih =>
    rw [lineScan, lineScan, h.2 (j - 1) (by omega), h.lineMatch_eq hij (by omega), ih _ (by omega) (by omega),
      ih _ (by omega) (by omega)]

theorem SameInput.startMode_eq (h : SameInput s u) : startMode u = startMode s := by
  have hbin : isBinary u = isBinary s := by
    unfold isBinary
    rw [h.1, Bool.eq_iff_iff, List.any_eq_true, List.any_eq_true]
    refine exists_congr fun k => and_congr_right fun hk => ?_
    rw [h.2 k (by have := List.mem_range.1 hk; omega)]
  have hcount : lineCount u = lineCount s := by
    unfold lineCount
    rw [h.1]
    by_cases hn : s.inLen.toNat = 0
    · rw [hn]
      rfl
    · have hsize : Config.lookaheadSize = 67 := rfl
      exact h.lineScan_eq 0 (Nat.min_le_right _ _) (Nat.zero_le _) (by rw [hsize]; omega)
  rw [← scannedMode_eq_startMode, ← scannedMode_eq_startMode, scannedMode, scannedMode, hasDictionary, hasDictionary, hbin,
    hcount]

theorem SameInput.chooses (h : SameInput s u) {items : List Item} {p : Nat} {dict : Bool} (hc : Chooses s items p dict) :
    Chooses u items p dict := by
  unfold Chooses
  rw [h.startMode_eq]
  exact h.choosesFrom hc

end Input

end Sys2Proof.Machine
end

section
/-! PROOFS. The chains of the match finder (42_match R212, R214; 43_compress R261). Positions inserted in order make every
key's chain list its positions, most recent first; a search of COMPRESS then finds the best match among them. -/

namespace Sys2Proof.Machine

/-! ### A chain as a list -/

section Chain

variable {s t u : State}

theorem chainFrom_none (s : State) (k : Nat) : chainFrom s k none = [] := by
  cases k <;> rfl

theorem head?_chainFrom (s : State) (k : Nat) (link : Link) : (chainFrom s (k + 1) link).head? = link := by
  cases link <;> rfl

/-- A walk with fewer hops meets the first positions of a chain that has ended before the hops ran out. -/
theorem chainFrom_eq_take {k : Nat} {link : Link} (hend : (chainFrom s k link).length < k) (d : Nat) :
    chainFrom s d link = (chainFrom s k link).take d := by
  induction k generalizing link d with
  | zero => exact absurd hend (Nat.not_lt_zero _)
  | succ k ih =>
    cases link with
    | none => rw [chainFrom_none, chainFrom_none, List.take_nil]
    | some c =>
      cases d with
      | zero => rfl
      | succ d =>
        rw [chainFrom, chainFrom, List.take_succ_cons, ih (Nat.lt_of_succ_lt_succ hend)]

/-- Only the links of the positions that a walk meets matter to it. -/
theorem chainFrom_congr {k : Nat} {link : Link} (hnext : ∀ c ∈ chainFrom s k link, t.nextAt c = s.nextAt c) :
    chainFrom t k link = chainFrom s k link := by
  induction k generalizing link with
  | zero => rfl
  | succ k ih =>
    cases link with
    | none => rfl
    | some c =>
      rw [chainFrom] at hnext
      rw [chainFrom, chainFrom, hnext c List.mem_cons_self, ih fun c' hc' => hnext c' (List.mem_cons_of_mem _ hc')]

/-! ### The positions that have a key -/

theorem length_keyedBelow_le (s : State) (m : Nat) (key : Key) : (keyedBelow s m key).length ≤ m := by
  refine (List.length_filter_le _ _).trans ?_
  rw [List.length_reverse, List.length_range]

theorem lt_of_mem_keyedBelow {m c : Nat} {key : Key} (hc : c ∈ keyedBelow s m key) : c < m := by
  simpa using List.mem_of_mem_filter hc

theorem keyedBelow_succ (s : State) (p : Nat) (key : Key) :
    keyedBelow s (p + 1) key = if p + 3 ≤ s.inLen.toNat ∧ hashKey s p = key then p :: keyedBelow s p key
      else keyedBelow s p key := by
  simp [keyedBelow, List.range_succ, List.filter_cons]

theorem toNat_ofNat_word {p : Nat} (h : p ≤ u.inLen.toNat) : (BitVec.ofNat 32 p : Word).toNat = p := by
  rw [BitVec.toNat_ofNat, Nat.mod_eq_of_lt (h.trans_lt u.inLen.isLt)]

/-! ### Chains that hold -/

theorem ChainsHold.frame {m : Nat} (h : ChainsHold s m) (hin : SameInput s t) (hhead : t.head = s.head)
    (hnext : t.next = s.next) : ChainsHold t m := by
  intro key
  have hheadAt : t.headAt key = s.headAt key := by rw [State.headAt, State.headAt, hhead]
  rw [hin.keyedBelow_eq, ← h key, hin.1, hheadAt]
  exact chainFrom_congr fun c _ => by rw [State.nextAt, State.nextAt, hnext]

theorem ChainsHold.headAt_eq {m : Nat} (h : ChainsHold s m) (key : Key) :
    s.headAt key = ((keyedBelow s m key).map (BitVec.ofNat 32)).head? := by
  rw [← h key, head?_chainFrom]

/-- With every head NONE no position is listed (R321). -/
theorem chainsHold_zero (h : s.head = []) : ChainsHold s 0 := by
  intro key
  rw [State.headAt, h]
  exact chainFrom_none s _

/-- A walk of any number of hops meets the most recent positions of the key. -/
theorem ChainsHold.chainFrom_eq {m : Nat} (h : ChainsHold s m) (hm : m ≤ s.inLen.toNat) (key : Key) (d : Nat) :
    chainFrom s d (s.headAt key) = ((keyedBelow s m key).take d).map (BitVec.ofNat 32) := by
  have hend : (chainFrom s (s.inLen.toNat + 1) (s.headAt key)).length < s.inLen.toNat + 1 := by
    rw [h key, List.length_map]
    exact Nat.lt_succ_of_le ((length_keyedBelow_le s m key).trans hm)
  rw [chainFrom_eq_take hend, h key, List.map_take]

/-- The candidates of a search are the most recent positions of its key (R221). -/
theorem ChainsHold.candidates_eq {m : Nat} (h : ChainsHold s m) (hm : m ≤ s.inLen.toNat) (q depth : Nat) :
    (candidates s q depth).map BitVec.toNat = candidatesBelow s m q depth := by
  unfold candidates candidatesBelow
  split_ifs
  · rw [h.chainFrom_eq hm, List.map_map]
    refine (List.map_congr_left fun c hc => ?_).trans (List.map_id _)
    exact toNat_ofNat_word ((lt_of_mem_keyedBelow (List.mem_of_mem_take hc)).le.trans hm)
  · rfl

/-- An insertion of the next position puts it in front of its key's chain (R214, R261). -/
theorem ChainsHold.insertPosition {p : Nat} (h : ChainsHold s p) (hp : p < s.inLen.toNat) :
    ChainsHold (insertPosition s p).2 (p + 1) := by
  rcases insertPosition_cases s p with ⟨hkey, hins, hd, nx, pv, hlink⟩ | ⟨hkey, hins⟩
  · rw [hins]
    have hin : SameInput s (linkPosition s p) := by rw [hlink]; exact .of_inMem rfl rfl
    have hkeyed : p + 3 ≤ s.inLen.toNat := of_decide_eq_true hkey
    -- the link of the new position is the only one that changes, and no chain has met it yet
    have hold : ∀ key d, chainFrom (linkPosition s p) d (s.headAt key) = chainFrom s d (s.headAt key) := fun key d =>
      chainFrom_congr fun c hc => by
        rw [h.chainFrom_eq hp.le] at hc
        obtain ⟨c', hc', rfl⟩ := List.mem_map.1 hc
        have hlt := lt_of_mem_keyedBelow (List.mem_of_mem_take hc')
        rw [linkPosition_next, if_neg fun e => ?_]
        have he := congrArg BitVec.toNat e
        rw [toNat_ofNat_word hp.le, toNat_ofNat_word (hlt.le.trans hp.le)] at he
        omega
    intro key
    rw [hin.keyedBelow_eq, hin.1, linkPosition_head, keyedBelow_succ]
    by_cases hk : hashKey s p = key
    · subst hk
      rw [if_pos rfl, if_pos ⟨hkeyed, rfl⟩, chainFrom, linkPosition_next, if_pos rfl, hold, h.chainFrom_eq hp.le,
        List.take_of_length_le ((length_keyedBelow_le s p _).trans hp.le), List.map_cons]
    · rw [if_neg hk, if_neg fun e => hk e.2, hold, h key]
  · have hnokey : ¬ p + 3 ≤ s.inLen.toNat := of_decide_eq_false hkey
    rw [hins]
    intro key
    rw [h key, keyedBelow_succ, if_neg fun e => hnokey e.1]

end Chain

/-! ### The search of COMPRESS (R254, R225) -/

/-- With the positions up to `p` inserted, `Lazy(p)` makes the choice of R254 in the mode that stands. -/
theorem lazyMatch_lazyChoice {s u : State} {p : Nat} (hin : SameInput s u) (hchains : ChainsHold u (p + 1))
    (hp : p < s.inLen.toNat) : LazyChoice s u.mode p (lazyMatch u p).1 (lazyMatch u p).2 := by
  have hpu : p < u.inLen.toNat := by rwa [hin.1]
  have hbest : ∀ q, q ≤ u.inLen.toNat → ∀ depth, BestMatch u u.mode q (candidatesBelow u (p + 1) q depth)
      (findMatch u q depth).1 (findMatch u q depth).2 := fun q hq depth => by
    rw [← hchains.candidates_eq hpu q depth]
    exact findMatch_bestMatch hq depth
  rw [← hin.lazyChoice_iff]
  refine ⟨_, _, _, _, hbest p hpu.le (searchDepth u), hbest (p + 1) hpu (probeDepth u), ?_⟩
  unfold lazyMatch
  dsimp only
  split_ifs with hkeep hdefer hdefer
  · omega
  · exact ⟨rfl, rfl⟩
  · exact ⟨rfl, rfl⟩
  · have hzero : (findMatch u p (searchDepth u)).1 = 0 := by omega
    refine ⟨hzero, ?_⟩
    rcases hbest p hpu.le (searchDepth u) with ⟨-, hd, -⟩ | ⟨hmin, -⟩
    · exact hd
    · omega

end Sys2Proof.Machine
end

section
/-! PROOFS. What COMPRESS chooses (43_compress R254 to R260, R265): at every position below the end there is exactly one
choice, so the items are a function of the input; they are legal, stand for the input, and need a bounded number of bits. -/

namespace Sys2Proof.Machine

/-! ### The bits and the model of a list of items (R118) -/

theorem itemsModel_append (m : Arena) (xs ys : List Item) :
    itemsModel m (xs ++ ys) = itemsModel (itemsModel m xs) ys := List.foldl_append

theorem itemsModel_cons (m : Arena) (it : Item) (items : List Item) :
    itemsModel m (it :: items) = itemsModel (m.update it.symbol) items := List.foldl_cons

theorem itemsModel_concat (m : Arena) (items : List Item) (it : Item) :
    itemsModel m (items ++ [it]) = (itemsModel m items).update it.symbol := List.foldl_concat ..

theorem itemBits_append (m : Arena) (xs ys : List Item) :
    itemBits m (xs ++ ys) = itemBits m xs ++ itemBits (itemsModel m xs) ys := by
  induction xs generalizing m with
  | nil => rfl
  | cons it xs ih => simp [itemBits, itemsModel, ih]

/-- A stream is its items' bits and the terminator's code. -/
theorem streamBits_eq (m : Arena) (items : List Item) :
    streamBits m items = itemBits m items ++ (itemsModel m items).codeOf Config.terminateCode := by
  induction items generalizing m with
  | nil => rfl
  | cons it items ih => simp [streamBits, itemBits, itemsModel, ih]

theorem itemBits_concat (m : Arena) (items : List Item) (it : Item) :
    itemBits m (items ++ [it])
      = itemBits m items ++ ((itemsModel m items).codeOf it.symbol ++ it.fieldPart) := by
  rw [itemBits_append, itemBits, itemBits, List.append_nil]

/-- Every item's symbol keeps the shape of the tree (R176). -/
theorem TreeShape.itemsModel {m : Arena} (h : TreeShape m) {items : List Item}
    (hsymbols : ∀ it ∈ items, it.symbol ≤ Config.maxChar) : TreeShape (Machine.itemsModel m items) := by
  induction items generalizing m with
  | nil => exact h
  | cons it items ih =>
    rw [itemsModel_cons]
    exact ih (h.update (hsymbols it List.mem_cons_self)) fun it' hit' => hsymbols it' (List.mem_cons_of_mem _ hit')

section Choice

variable {s : State} {mode : Mode} {p : Nat} {it : Item}

/-! ### One choice at most -/

theorem BestMatch.unique {q : Nat} {chain : List Nat} {len dist len' dist' : Nat} (h : BestMatch s mode q chain len dist)
    (h' : BestMatch s mode q chain len' dist') : len = len' ∧ dist = dist' := by
  rcases h with ⟨rfl, rfl, hnone⟩ | ⟨-, -, j, c, hj, hmatch, rfl, hbest⟩ <;>
    rcases h' with ⟨rfl, rfl, hnone'⟩ | ⟨-, -, j', c', hj', hmatch', rfl, hbest'⟩
  · exact ⟨rfl, rfl⟩
  · exact absurd hmatch' (hnone c' (List.mem_of_getElem? hj') _)
  · exact absurd hmatch (hnone' c (List.mem_of_getElem? hj) _)
  · have hle := hbest j' c' len' hj' hmatch'
    have hge := hbest' j c len hj hmatch
    obtain rfl : len = len' := by omega
    obtain rfl : j = j' := by omega
    obtain rfl : c = c' := Option.some.inj (hj.symm.trans hj')
    exact ⟨rfl, rfl⟩

theorem LazyChoice.unique {len dist len' dist' : Nat} (h : LazyChoice s mode p len dist)
    (h' : LazyChoice s mode p len' dist') : len = len' ∧ dist = dist' := by
  obtain ⟨l, d, ln, dn, hbest, hnext, hchoice⟩ := h
  obtain ⟨l', d', ln', dn', hbest', hnext', hchoice'⟩ := h'
  obtain ⟨rfl, rfl⟩ := hbest.unique hbest'
  obtain ⟨rfl, rfl⟩ := hnext.unique hnext'
  split_ifs at hchoice hchoice' <;> omega

theorem ChosenItem.unique {it' : Item} (h : ChosenItem s mode p it) (h' : ChosenItem s mode p it') : it = it' := by
  obtain ⟨len, dist, hlazy, hitem⟩ := h
  obtain ⟨len', dist', hlazy', hitem'⟩ := h'
  obtain ⟨rfl, rfl⟩ := hlazy.unique hlazy'
  split_ifs at hitem hitem'
  · obtain ⟨i, hi, hmin, hmax, rfl⟩ := hitem
    obtain ⟨i', hi', hmin', hmax', rfl⟩ := hitem'
    rw [← rangeOf_eq hi hmin hmax, ← rangeOf_eq hi' hmin' hmax']
  · exact hitem.trans hitem'.symm

/-! ### One choice at least -/

/-- There is a best match in every chain: the one a search in that mode finds. -/
theorem exists_bestMatch (mode : Mode) {q : Nat} (hq : q ≤ s.inLen.toNat) (chain : List Nat) :
    ∃ len dist, BestMatch s mode q chain len dist := by
  have hin : SameInput s { s with mode := mode } := .of_inMem rfl rfl
  exact ⟨_, _, (hin.bestMatch_iff mode q chain _ _).1 (bestMatch_bestOf (s := { s with mode := mode }) hq chain)⟩

theorem exists_lazyChoice (mode : Mode) (hp : p < s.inLen.toNat) : ∃ len dist, LazyChoice s mode p len dist := by
  obtain ⟨l, d, hbest⟩ := exists_bestMatch mode hp.le (candidatesBelow s (p + 1) p (if mode.bin then 200 else 1000))
  obtain ⟨l', d', hnext⟩ := exists_bestMatch mode hp (candidatesBelow s (p + 1) (p + 1) (if mode.bin then 20 else 50))
  by_cases hkeep : 0 < l ∧ l' < l
  · exact ⟨l, d, l, d, l', d', hbest, hnext, by rw [if_pos hkeep]; exact ⟨rfl, rfl⟩⟩
  · exact ⟨0, 0, l, d, l', d', hbest, hnext, by rw [if_neg hkeep]; exact ⟨rfl, rfl⟩⟩

/-- A copy that `Lazy` chooses is a match, whose gap the first five ranges hold (R222, R265). -/
theorem LazyChoice.match_of_pos {len dist : Nat} (h : LazyChoice s mode p len dist) (hpos : 0 < len) :
    4 ≤ len ∧ len ≤ 64 ∧ dist ≤ 5455 ∧ ∃ c, IsMatchLength s p c len ∧ dist = p - c - len := by
  obtain ⟨l, d, l', d', hbest, -, hchoice⟩ := h
  split_ifs at hchoice
  · obtain ⟨rfl, rfl⟩ := hchoice
    rcases hbest with ⟨rfl, -⟩ | ⟨hmin, hmax, -, c, -, ⟨hlen, -, hbound, -⟩, rfl, -⟩
    · exact absurd hpos (lt_irrefl 0)
    · exact ⟨hmin, hmax, by split_ifs at hbound <;> omega, c, hlen, rfl⟩
  · omega

theorem rangeOf_spec {d : Nat} (hd : d ≤ 5455) :
    rangeOf d ≤ 4 ∧ copyMin (rangeOf d) ≤ d ∧ d ≤ copyMax (rangeOf d) := by
  have hmins := copyMin_values
  have hmaxs := copyMax_values
  have hzero : copyMin 0 = 0 := rfl
  unfold rangeOf
  split_ifs <;> omega

/-- The item of a choice: the copy in the range of its gap, or the literal (R258, R260). -/
theorem LazyChoice.chosenItem {len dist : Nat} (h : LazyChoice s mode p len dist) :
    ChosenItem s mode p (if 0 < len then .copy (rangeOf dist) len (dist - copyMin (rangeOf dist))
      else .literal (s.inByte p)) := by
  refine ⟨len, dist, h, ?_⟩
  split_ifs with hpos
  · obtain ⟨-, -, hbound, -⟩ := h.match_of_pos hpos
    obtain ⟨hrange, hmin, hmax⟩ := rangeOf_spec hbound
    exact ⟨rangeOf dist, hrange.trans (by decide), hmin, hmax, rfl⟩
  · rfl

theorem exists_chosenItem (mode : Mode) (hp : p < s.inLen.toNat) : ∃ it, ChosenItem s mode p it := by
  obtain ⟨len, dist, h⟩ := exists_lazyChoice mode hp
  exact ⟨_, h.chosenItem⟩

/-! ### What a chosen item is (R265) -/

/-- A chosen item is the literal, or a copy of a match, in one of the first five ranges. -/
theorem ChosenItem.cases (h : ChosenItem s mode p it) :
    it = .literal (s.inByte p) ∨ ∃ i len dist c, it = .copy i len (dist - copyMin i) ∧ i ≤ 4 ∧ copyMin i ≤ dist
      ∧ dist ≤ copyMax i ∧ 4 ≤ len ∧ len ≤ 64 ∧ IsMatchLength s p c len ∧ dist = p - c - len := by
  obtain ⟨len, dist, hlazy, hitem⟩ := h
  split_ifs at hitem with hpos
  · obtain ⟨i, hi, hmin, hmax, rfl⟩ := hitem
    obtain ⟨hlow, hhigh, hbound, c, hmatch, hdist⟩ := hlazy.match_of_pos hpos
    have hrange := rangeOf_spec hbound
    rw [rangeOf_eq hi hmin hmax] at hrange
    exact Or.inr ⟨i, len, dist, c, rfl, hrange.1, hmin, hmax, hlow, hhigh, hmatch, hdist⟩
  · exact Or.inl hitem

theorem ChosenItem.width_bounds (h : ChosenItem s mode p it) (hp : p < s.inLen.toNat) :
    1 ≤ it.width ∧ p + it.width ≤ s.inLen.toNat := by
  rcases h.cases with rfl | ⟨i, len, dist, c, rfl, -, -, -, hmin, -, ⟨-, -, hend, -⟩, -⟩
  · exact ⟨le_rfl, hp⟩
  · exact ⟨by rw [Item.width]; omega, hend⟩

theorem ChosenItem.symbol_le (h : ChosenItem s mode p it) : it.symbol ≤ Config.maxChar := by
  rw [maxChar_eq]
  rcases h.cases with rfl | ⟨i, len, dist, c, rfl, hi, -, -, hmin, hmax, -⟩
  · have := (s.inByte p).isLt
    rw [Item.symbol]
    omega
  · exact (copyCode_mem_range (hi.trans (by decide)) (by omega) hmax).2

theorem ChosenItem.length_fieldPart_le (h : ChosenItem s mode p it) : it.fieldPart.length ≤ 14 := by
  rcases h.cases with rfl | ⟨i, len, dist, c, rfl, hi, -⟩
  · exact Nat.zero_le _
  · rw [Item.fieldPart, length_fieldBits]
    have hbits : ∀ i ≤ 4, copyBits i ≤ 14 := by decide
    exact hbits i hi

theorem length_inBytes (s : State) (n : Nat) : (s.inBytes n).length = n := by
  rw [State.inBytes, List.length_map, List.length_range]

theorem inBytes_add (s : State) (n w : Nat) :
    s.inBytes (n + w) = s.inBytes n ++ (List.range w).map fun t => s.inByte (n + t) := by
  simp [State.inBytes, List.range_add]

theorem take_drop_inBytes (s : State) {c w n : Nat} (h : c + w ≤ n) :
    ((s.inBytes n).drop c).take w = (List.range w).map fun t => s.inByte (c + t) := by
  refine List.ext_getElem (by simp [length_inBytes]; omega) fun k hk _ => ?_
  simp [State.inBytes]

/-- A chosen item is legal after the bytes before its position, and stands for the bytes from there on (R265). -/
theorem ChosenItem.legal_extend (h : ChosenItem s mode p it) :
    it.legal (s.inBytes p) = true ∧ it.extend (s.inBytes p) = s.inBytes (p + it.width) := by
  rcases h.cases with rfl | ⟨i, len, dist, c, rfl, hi, hmin, hmax, hlow, hhigh, ⟨-, hbefore, -, hagree, -⟩, hdist⟩
  · exact ⟨rfl, (inBytes_add s p 1).symm⟩
  · have hpow : 0 < 2 ^ copyBits i := Nat.two_pow_pos _
    have hback : dist - copyMin i + len + copyMin i = p - c := by omega
    unfold copyMax at hmax
    constructor
    · rw [Item.legal, hback, length_inBytes]
      simp only [Bool.and_eq_true, decide_eq_true_eq]
      simp only [Config.copyRanges, Config.minCopy, Config.maxCopy]
      omega
    · rw [Item.extend, Item.width, hback, length_inBytes, Nat.sub_sub_self (by omega), take_drop_inBytes s hbefore,
        inBytes_add]
      congr 1
      exact List.map_congr_left fun t ht => hagree t (List.mem_range.1 ht)

end Choice

/-! ### The items of a whole input -/

section Items

variable {s : State} {bin dict dictEnd : Bool} {p pEnd b : Nat} {m : Arena} {items : List Item}

/-- From every position there are items that lead to the end of the input: an item moves the position on. -/
theorem exists_choosesFrom (bin : Bool) (hp : p ≤ s.inLen.toNat) (dict : Bool) (b : Nat) (m : Arena) :
    ∃ items last, ChoosesFrom s bin s.inLen.toNat last p dict b m items := by
  induction hleft : s.inLen.toNat - p using Nat.strong_induction_on generalizing p dict b m with
  | _ left ih =>
    subst hleft
    rcases hp.eq_or_lt with rfl | hlt
    · exact ⟨[], dict, rfl, rfl⟩
    · obtain ⟨it, hit⟩ := exists_chosenItem { bin := bin, dict := dict } hlt
      obtain ⟨hwidth, hend⟩ := hit.width_bounds hlt
      obtain ⟨items, last, hrest⟩ := ih (s.inLen.toNat - (p + it.width)) (by omega) hend _ _ _ rfl
      exact ⟨it :: items, last, hlt, hit, hrest⟩

/-- The items that lead to the end of the input, and DICT there, are determined. -/
theorem ChoosesFrom.unique {items' : List Item} {last last' : Bool}
    (h : ChoosesFrom s bin s.inLen.toNat last p dict b m items)
    (h' : ChoosesFrom s bin s.inLen.toNat last' p dict b m items') : items = items' ∧ last = last' := by
  induction items generalizing items' p dict b m with
  | nil =>
    obtain ⟨rfl, rfl⟩ := h
    cases items' with
    | nil => exact ⟨rfl, h'.2⟩
    | cons it' items' => exact absurd h'.1 (lt_irrefl _)
  | cons it items ih =>
    obtain ⟨hp, hit, hrest⟩ := h
    cases items' with
    | nil =>
      obtain ⟨rfl, -⟩ := h'
      exact absurd hp (lt_irrefl _)
    | cons it' items' =>
      obtain ⟨-, hit', hrest'⟩ := h'
      obtain rfl := hit.unique hit'
      obtain ⟨rfl, rfl⟩ := ih hrest hrest'
      exact ⟨rfl, rfl⟩

/-- Where a list of items leads to is determined. -/
theorem ChoosesFrom.end_unique {pEnd' : Nat} {dictEnd' : Bool} (h : ChoosesFrom s bin pEnd dictEnd p dict b m items)
    (h' : ChoosesFrom s bin pEnd' dictEnd' p dict b m items) : pEnd = pEnd' ∧ dictEnd = dictEnd' := by
  induction items generalizing p dict b m with
  | nil => exact ⟨h.1.symm.trans h'.1, h.2.symm.trans h'.2⟩
  | cons it items ih => exact ih h.2.2 h'.2.2

theorem choosesFrom_append_iff {xs ys : List Item} :
    ChoosesFrom s bin pEnd dictEnd p dict b m (xs ++ ys) ↔ ∃ p1 dict1, ChoosesFrom s bin p1 dict1 p dict b m xs
      ∧ ChoosesFrom s bin pEnd dictEnd p1 dict1 (b + (itemBits m xs).length) (itemsModel m xs) ys := by
  induction xs generalizing p dict b m with
  | nil => exact ⟨fun h => ⟨p, dict, ⟨rfl, rfl⟩, h⟩, fun ⟨_, _, ⟨hp, hd⟩, h⟩ => by subst hp hd; exact h⟩
  | cons it xs ih =>
    simp only [List.cons_append, ChoosesFrom, ih, itemBits, itemsModel, List.foldl_cons, List.length_append,
      ← Nat.add_assoc]
    constructor
    · rintro ⟨hp, hit, p1, dict1, hxs, hys⟩
      exact ⟨p1, dict1, ⟨hp, hit, hxs⟩, hys⟩
    · rintro ⟨p1, dict1, ⟨hp, hit, hxs⟩, hys⟩
      exact ⟨hp, hit, p1, dict1, hxs, hys⟩

theorem ChoosesFrom.mem (h : ChoosesFrom s bin pEnd dictEnd p dict b m items) {it : Item} (hit : it ∈ items) :
    ∃ mode q, ChosenItem s mode q it := by
  induction items generalizing p dict b m with
  | nil => cases hit
  | cons it' items ih =>
    rcases List.mem_cons.1 hit with rfl | hit
    · exact ⟨_, _, h.2.1⟩
    · exact ih h.2.2 hit

theorem ChoosesFrom.symbol_le (h : ChoosesFrom s bin pEnd dictEnd p dict b m items) :
    ∀ it ∈ items, it.symbol ≤ Config.maxChar := fun _ hit => by
  obtain ⟨_, _, hchosen⟩ := h.mem hit
  exact hchosen.symbol_le

/-- An item stands for at least one byte (R262). -/
theorem ChoosesFrom.length_le (h : ChoosesFrom s bin pEnd dictEnd p dict b m items) (hp : p ≤ s.inLen.toNat) :
    p + items.length ≤ pEnd ∧ pEnd ≤ s.inLen.toNat := by
  induction items generalizing p dict b m with
  | nil =>
    obtain ⟨rfl, -⟩ := h
    exact ⟨le_rfl, hp⟩
  | cons it items ih =>
    obtain ⟨hlt, hit, hrest⟩ := h
    obtain ⟨hwidth, hend⟩ := hit.width_bounds hlt
    obtain ⟨hle, hlast⟩ := ih hrest hend
    exact ⟨by rw [List.length_cons]; omega, hlast⟩

/-- The chosen items are legal and stand for the input (R263, R265). -/
theorem ChoosesFrom.legal_expand (h : ChoosesFrom s bin pEnd dictEnd p dict b m items) :
    legalItems (s.inBytes p) items = true ∧ expandItems (s.inBytes p) items = s.inBytes pEnd := by
  induction items generalizing p dict b m with
  | nil =>
    obtain ⟨rfl, -⟩ := h
    exact ⟨rfl, rfl⟩
  | cons it items ih =>
    obtain ⟨-, hit, hrest⟩ := h
    obtain ⟨hlegal, hextend⟩ := hit.legal_extend
    rw [legalItems, expandItems, hlegal, hextend, Bool.true_and]
    exact ih hrest

/-- A code has at most 628 bits and a field at most 14 (R41 item 4, R45). -/
theorem ChoosesFrom.length_itemBits_le (h : ChoosesFrom s bin pEnd dictEnd p dict b m items) (hm : TreeShape m) :
    (itemBits m items).length ≤ items.length * 642 := by
  induction items generalizing p dict b m with
  | nil => exact le_rfl
  | cons it items ih =>
    obtain ⟨-, hit, hrest⟩ := h
    have hrest' := ih hrest (hm.update hit.symbol_le)
    have hcode := (hm.length_codeOf hit.symbol_le).2
    have hfield := hit.length_fieldPart_le
    simp only [itemBits, List.length_append, List.length_cons]
    omega

end Items

end Sys2Proof.Machine
end

section
/-! PROOFS. COMPRESS step by step (43_compress R250 to R263). `Progress` says how far a COMPRESS has come, and `Progress.At`
what the state is then; each sub-step goes on at the next point of progress, or aborts where `OUT` ends (60_exceptions
R343). -/

namespace Sys2Proof.Machine

/-! ### A point of progress -/

/-- How far a COMPRESS has come. -/
structure Progress where
  model : Arena
  /-- The symbols coded. -/
  count : Nat
  /-- The bits written. -/
  bits : List Bool
  dict : Bool

/-- The state `u` of a COMPRESS that started in `s` and has come this far, with the lookahead at position `p` and the
positions below `i` inserted. The sequencer and the path stack are left open. -/
structure Progress.At (g : Progress) (s : State) (p i : Nat) (u : State) : Prop where
  frame : BodyFrame s u
  inBitpos : u.inBitpos = 0
  nodes : u.nodes = g.model
  symcount : u.symcount = BitVec.ofNat 32 g.count
  written : WritesBits s.initState u g.bits
  mode : u.mode = { bin := (startMode s).bin, dict := g.dict }
  /-- R256. -/
  bytesRead : u.bytesRead = BitVec.ofNat 32 (min s.inLen.toNat (p + 67))
  chains : ChainsHold u i

/-- After an item's code and field (R258, R260). -/
def Progress.emit (g : Progress) (it : Item) : Progress :=
  { g with
    model := g.model.update it.symbol
    count := g.count + 1
    bits := g.bits ++ (g.model.codeOf it.symbol ++ it.fieldPart) }

/-- Where an item is cut at bit `stop`: the symbol counts if the cut lies in the field, past its whole code (R343). -/
def Progress.cutIn (g : Progress) (it : Item) (stop : Nat) : Progress :=
  let coded := g.bits.length + (g.model.codeOf it.symbol).length ≤ stop
  { g with
    model := if coded then g.model.update it.symbol else g.model
    count := if coded then g.count + 1 else g.count
    bits := (g.emit it).bits.take stop }

/-- After the position has moved over `w` positions from `p` (R256, R257, R259). -/
def Progress.advance (g : Progress) (s : State) (p w : Nat) : Progress :=
  { g with dict := dictAfter s (g.bits.length / 8) p w g.dict }

/-- A sub-step goes on with all of `done`'s bits in `OUT`, or `OUT` ends before them and it aborts at `cut`. -/
inductive CmdRes.Lands {α : Type} (s : State) (p i : Nat) (done cut : Progress) : CmdRes α → Prop
  | ok {a : α} {u : State} (hfit : done.bits.length ≤ 8 * s.cfg.outMemBytes) (h : done.At s p i u) :
    Lands s p i done cut (.ok a u)
  | abort {u : State} (hfull : 8 * s.cfg.outMemBytes < done.bits.length) (h : cut.At s p i u) :
    Lands s p i done cut (.abort .outputOverflow (BitVec.ofNat 32 (8 * s.cfg.outMemBytes)) u)

/-- A sub-step after another; one that is cut is cut in the whole as well. -/
theorem CmdRes.Lands.bind {α β : Type} {s : State} {p i : Nat} {done cut done' cut' : Progress} {r : CmdRes α}
    {f : α → State → CmdRes β} (hr : r.Lands s p i done cut)
    (hf : ∀ a u, done.bits.length ≤ 8 * s.cfg.outMemBytes → done.At s p i u → (f a u).Lands s p i done' cut')
    (hcut : 8 * s.cfg.outMemBytes < done.bits.length → 8 * s.cfg.outMemBytes < done'.bits.length ∧ cut = cut') :
    (r.bind f).Lands s p i done' cut' := by
  cases hr with
  | ok hfit h => exact hf _ _ hfit h
  | abort hfull h =>
    obtain ⟨hfull', rfl⟩ := hcut hfull
    exact .abort hfull' h

theorem Progress.cutIn_coded {g : Progress} {it : Item} {stop : Nat}
    (h : g.bits.length + (g.model.codeOf it.symbol).length ≤ stop) :
    g.cutIn it stop = { g.emit it with bits := (g.emit it).bits.take stop } := by
  simp only [Progress.cutIn, Progress.emit, if_pos h]

theorem Progress.cutIn_not_coded {g : Progress} {it : Item} {stop : Nat}
    (h : ¬ g.bits.length + (g.model.codeOf it.symbol).length ≤ stop) :
    g.cutIn it stop = { g with bits := (g.emit it).bits.take stop } := by
  simp only [Progress.cutIn, if_neg h]

section Steps

variable {s u : State} {g : Progress} {p i : Nat}

theorem Progress.At.sameInput (h : g.At s p i u) : SameInput s u := h.frame.sameInput

theorem Progress.At.cfg (h : g.At s p i u) : u.cfg = s.cfg := by
  obtain ⟨hcfg, -⟩ := h.frame
  exact hcfg

theorem Progress.At.outBitpos (h : g.At s p i u) : u.outBitpos.toNat = g.bits.length :=
  h.written.outBitpos_toNat.trans (Nat.zero_add _)

/-- The sequencer and the path stack are free. -/
theorem Progress.At.setControl (h : g.At s p i u) (q : Seq) (path : List Bool) :
    g.At s p i { u with seq := q, pathStack := path } where
  frame := h.frame
  inBitpos := h.inBitpos
  nodes := h.nodes
  symcount := h.symcount
  written := h.written
  mode := h.mode
  bytesRead := h.bytesRead
  chains := h.chains.frame (.of_inMem rfl rfl) rfl rfl

/-- What the bit writer changes: the bits. -/
theorem Progress.At.setBits (h : g.At s p i u) {mem : Memory} {b : Word} {vs bits : List Bool}
    (hwrites : WritesBits u { u with outMem := mem, outBitpos := b } vs) (hbits : bits = g.bits ++ vs) :
    { g with bits := bits }.At s p i { u with outMem := mem, outBitpos := b } where
  frame := h.frame
  inBitpos := h.inBitpos
  nodes := h.nodes
  symcount := h.symcount
  written := hbits ▸ h.written.append hwrites
  mode := h.mode
  bytesRead := h.bytesRead
  chains := h.chains.frame (.of_inMem rfl rfl) rfl rfl

/-- What the update changes: the model and the count (R176, R48). -/
theorem Progress.At.setModel (h : g.At s p i u) {m m' : Arena} {k : Nat} {w : Word} (hm : m = m')
    (hk : w = BitVec.ofNat 32 k) : { g with model := m', count := k }.At s p i { u with nodes := m, symcount := w } where
  frame := h.frame
  inBitpos := h.inBitpos
  nodes := hm
  symcount := hk
  written := h.written
  mode := h.mode
  bytesRead := h.bytesRead
  chains := h.chains.frame (.of_inMem rfl rfl) rfl rfl

/-! ### Bits and symbols (R140, R253, R258, R260) -/

theorem Progress.At.putBits_lands (h : g.At s p i u) (hwf : s.cfg.wf) (hfit : g.bits.length ≤ 8 * s.cfg.outMemBytes)
    (vs : List Bool) : (putBits vs u).Lands s p i { g with bits := g.bits ++ vs }
      { g with bits := (g.bits ++ vs).take (8 * s.cfg.outMemBytes) } := by
  have hpos := h.outBitpos
  have hwfu : u.cfg.wf := by rwa [h.cfg]
  by_cases hroom : (g.bits ++ vs).length ≤ 8 * s.cfg.outMemBytes
  · obtain ⟨mem, b, hput, hwrites⟩ := putBits_writesBits vs hwfu
      (.inr (by rw [hpos, h.cfg, ← List.length_append]; exact hroom))
    rw [hput]
    exact .ok hroom (h.setBits hwrites rfl)
  · have hfull := not_le.1 hroom
    rw [List.length_append] at hfull
    have hne : vs ≠ [] := List.ne_nil_of_length_pos (by omega)
    obtain ⟨mem, b, hput, hwrites⟩ := putBits_overflow vs hwfu hne (by rw [hpos, h.cfg]; exact hfull)
    rw [hpos, h.cfg] at hwrites
    have hb : b = BitVec.ofNat 32 (8 * s.cfg.outMemBytes) := by
      have hcursor : b.toNat = _ := hwrites.outBitpos_toNat
      rw [hpos, List.length_take, min_eq_left (by omega), Nat.add_sub_cancel' hfit] at hcursor
      rw [← hcursor, BitVec.ofNat_toNat, BitVec.setWidth_eq]
    rw [hput, hb]
    refine .abort (not_le.1 hroom) (h.setBits (hb ▸ hwrites) ?_)
    rw [List.take_append, List.take_of_length_le hfit]

theorem Progress.At.encodeSym_lands (h : g.At s p i u) (hwf : s.cfg.wf) (hfit : g.bits.length ≤ 8 * s.cfg.outMemBytes)
    {code : Nat} (hc : code ≤ Config.maxChar) : (encodeSym code u).Lands s p i
      { g with
        model := g.model.update code
        count := g.count + 1
        bits := g.bits ++ g.model.codeOf code }
      { g with bits := (g.bits ++ g.model.codeOf code).take (8 * s.cfg.outMemBytes) } := by
  have hcode : u.nodes.codeOf code = g.model.codeOf code := by rw [h.nodes]
  unfold encodeSym
  dsimp only
  rw [hcode]
  refine ((h.setControl u.seq (g.model.codeOf code)).putBits_lands hwf hfit (g.model.codeOf code)).bind
    (fun _ u1 hroom hdone => ?_) fun hfull => ⟨hfull, rfl⟩
  rcases updateModel_cases code { u1 with pathStack := [] } with ⟨-, hupdate⟩ | ⟨hbad, -⟩
  · have hmodel : u1.nodes.update code = g.model.update code := congrArg (Arena.update · code) hdone.nodes
    have hcount : u1.symcount + 1 = BitVec.ofNat 32 (g.count + 1) :=
      (congrArg (· + 1) hdone.symcount).trans (BitVec.ofNat_add g.count 1).symm
    rw [hupdate]
    exact .ok hroom ((hdone.setControl u1.seq []).setModel hmodel hcount)
  · exact absurd hbad (not_lt.2 hc)

end Steps

end Sys2Proof.Machine
end

section
/-! PROOFS. The parts of a COMPRESS step (43_compress R253 to R259): an item's emission, a byte read ahead, a position
inserted, and the COPY steps, each as a move from one point of progress to another. -/

namespace Sys2Proof.Machine

section Steps

variable {s u : State} {g : Progress} {p i : Nat}

/-- An item's code, and a copy's field (R258, R260). -/
def emitItem (it : Item) (s : State) : CmdRes Unit :=
  (encodeSym it.symbol s).bind fun _ s1 => putBits it.fieldPart s1

theorem emitCopy_eq (len dist : Nat) (s : State) :
    emitCopy len dist s = emitItem (.copy (rangeOf dist) len (dist - copyMin (rangeOf dist))) s := rfl

theorem emitItem_literal_bind {β : Type} (b : Byte) (s : State) (f : Unit → State → CmdRes β) :
    (emitItem (.literal b) s).bind f = (encodeSym b.toNat s).bind fun _ s1 => f () s1 := by
  unfold emitItem Item.symbol
  cases encodeSym b.toNat s <;> rfl

theorem Progress.At.emitItem_lands (h : g.At s p i u) (hwf : s.cfg.wf) (hfit : g.bits.length ≤ 8 * s.cfg.outMemBytes)
    {it : Item} (hc : it.symbol ≤ Config.maxChar) :
    (emitItem it u).Lands s p i (g.emit it) (g.cutIn it (8 * s.cfg.outMemBytes)) := by
  by_cases hcoded : (g.bits ++ g.model.codeOf it.symbol).length ≤ 8 * s.cfg.outMemBytes
  · refine (h.encodeSym_lands hwf hfit hc).bind (fun _ u1 hroom hdone => ?_) fun hfull => absurd hcoded (not_le.2 hfull)
    have hput := hdone.putBits_lands hwf hroom it.fieldPart
    rw [List.length_append] at hcoded
    simp only [List.append_assoc] at hput
    rw [Progress.cutIn_coded hcoded]
    simpa only [Progress.emit] using hput
  · refine (h.encodeSym_lands hwf hfit hc).bind (fun _ u1 hroom _ => absurd hroom hcoded) fun hfull => ⟨?_, ?_⟩
    · simp only [Progress.emit, List.length_append] at hfull ⊢
      omega
    · rw [List.length_append] at hcoded
      simp only [Progress.cutIn_not_coded hcoded, Progress.emit, ← List.append_assoc,
        List.take_append_of_le_length hfull.le]

/-! ### The lookahead and the insertions (R256, R257, R259) -/

/-- R257: when the check clears DICT, from the bytes read and the output bytes complete. -/
def poorRatio (read out : Nat) : Bool := decide (read % 64 = 0 ∧ 0 < out ∧ read / out < 2)

theorem dictCheck_eq (s : State) : dictCheck s
    = { s with mode := { s.mode with dict := s.mode.dict && !poorRatio s.bytesRead.toNat (s.outBitpos.toNat / 8) } } := by
  unfold dictCheck poorRatio
  dsimp only
  split_ifs with hclear
  · obtain ⟨hdict, hcond⟩ := hclear
    rw [hdict, decide_eq_true hcond]
    rfl
  · cases hdict : s.mode.dict with
    | false => rw [Bool.false_and, ← hdict]
    | true => rw [decide_eq_false fun hcond => hclear ⟨hdict, hcond⟩, Bool.not_false, Bool.true_and, ← hdict]

theorem dictAfter_one (s : State) (out p : Nat) (dict : Bool) : dictAfter s out p 1 dict
    = (dict && !(decide (p + 68 ≤ s.inLen.toNat) && poorRatio (p + 68) out)) := by
  simp [dictAfter, poorRatio]

/-- The first move, then the others. -/
theorem dictAfter_succ (s : State) (out p w : Nat) (dict : Bool) :
    dictAfter s out p (w + 1) dict = dictAfter s out (p + 1) w (dictAfter s out p 1 dict) := by
  rw [dictAfter_one]
  unfold dictAfter
  rw [List.range_succ_eq_map, List.any_cons, List.any_map, Nat.add_zero, Bool.not_or, Bool.and_assoc]
  congr 4
  · simp [poorRatio]
  · funext j
    simp only [Function.comp_apply, Nat.succ_eq_add_one, Nat.add_assoc, Nat.add_comm 1]

/-- `Advance` from `p`: the lookahead moves to the next position (R256). -/
theorem Progress.At.readAhead (h : g.At s p i u) : (g.advance s p 1).At s (p + 1) i (Machine.readAhead (p + 1) u) := by
  have hread : u.bytesRead.toNat = min s.inLen.toNat (p + 67) := by
    rw [h.bytesRead, BitVec.toNat_ofNat, Nat.mod_eq_of_lt ((Nat.min_le_left _ _).trans_lt s.inLen.isLt)]
  have hcount : aheadCount u (p + 1) = if p + 68 ≤ s.inLen.toNat then 1 else 0 := by
    have hsize : Config.lookaheadSize = 67 := rfl
    rw [aheadCount, hread, h.sameInput.1, hsize]
    split_ifs <;> omega
  rw [Machine.readAhead, hcount, Progress.advance, dictAfter_one]
  split_ifs with hmore
  · have hnext : u.bytesRead + 1 = BitVec.ofNat 32 (p + 68) := by
      rw [h.bytesRead, min_eq_right (by omega)]
      exact (BitVec.ofNat_add (p + 67) 1).symm
    rw [readBytes, readBytes, dictCheck_eq]
    exact {
      frame := h.frame
      inBitpos := h.inBitpos
      nodes := h.nodes
      symcount := h.symcount
      written := h.written
      mode := by
        dsimp only
        rw [hnext, h.mode, h.outBitpos, toNat_ofNat_word hmore, decide_eq_true hmore, Bool.true_and]
      bytesRead := by
        dsimp only
        rw [hnext, min_eq_right (by omega)]
      chains := h.chains.frame (.of_inMem rfl rfl) rfl rfl }
  · exact {
      frame := h.frame
      inBitpos := h.inBitpos
      nodes := h.nodes
      symcount := h.symcount
      written := h.written
      mode := by
        rw [decide_eq_false hmore, Bool.false_and, Bool.not_false, Bool.and_true]
        exact h.mode
      bytesRead := by
        rw [readBytes, h.bytesRead]
        congr 1
        omega
      chains := h.chains }

/-- The next position goes to the front of its chain (R214, R261). -/
theorem Progress.At.insertPosition (h : g.At s p i u) (hi : i < s.inLen.toNat) :
    g.At s p (i + 1) (Machine.insertPosition u i).2 := by
  have hchains := h.chains.insertPosition (by rwa [h.sameInput.1])
  rcases insertPosition_cases u i with ⟨-, hins, hd, nx, pv, hlink⟩ | ⟨-, hins⟩
  · rw [hins, hlink] at hchains ⊢
    exact ⟨h.frame, h.inBitpos, h.nodes, h.symcount, h.written, h.mode, h.bytesRead, hchains⟩
  · rw [hins] at hchains ⊢
    exact ⟨h.frame, h.inBitpos, h.nodes, h.symcount, h.written, h.mode, h.bytesRead, hchains⟩

/-- The first move, then the others. -/
theorem Progress.advance_succ (g : Progress) (s : State) (p w : Nat) :
    g.advance s p (w + 1) = (g.advance s p 1).advance s (p + 1) w := by
  simp only [Progress.advance, dictAfter_succ s _ p w]

/-! ### Transitions (R250) -/

theorem compressLoop_of_step {u' : State} (hseq : u.seq ≠ .compressDone) (hstep : compressStep u = .ok () u')
    (fuel : Nat) : compressLoop (fuel + 1) u = compressLoop fuel u' := by
  rw [compressLoop, if_neg hseq, hstep, CmdRes.bind_ok]

theorem copyStep_last (p len dist : Word) {rest : Word} (hrest : rest = 1) (s : State) :
    copyStep p len dist rest s = { Machine.readAhead (p.toNat + 1) s with seq := .decide (p + 1) } := if_pos hrest

theorem copyStep_more (p len dist : Word) {rest : Word} (hrest : rest ≠ 1) (s : State) :
    copyStep p len dist rest s = { (Machine.insertPosition (Machine.readAhead (p.toNat + 1) s) (p.toNat + 1)).2 with
      seq := .copy (p + 1) len dist (rest - 1) } := if_neg hrest

theorem ofNat_succ_word (p : Nat) : (BitVec.ofNat 32 p + 1 : Word) = BitVec.ofNat 32 (p + 1) :=
  (BitVec.ofNat_add p 1).symm

theorem compressStep_copy {p len dist rest : Word} (hseq : u.seq = .copy p len dist rest) :
    compressStep u = .ok () (copyStep p len dist rest u) := by
  rw [compressStep, hseq]

theorem Progress.At.setSeq (h : g.At s p i u) (q : Seq) : g.At s p i { u with seq := q } := h.setControl q u.pathStack

/-- The transitions in COPY: the lookahead and the chains move over the rest of the match (R259). -/
theorem Progress.At.compressLoop_copy {len dist : Word} {r : Nat} (h : g.At s p (p + 1) u)
    (hseq : u.seq = .copy (BitVec.ofNat 32 p) len dist (BitVec.ofNat 32 (r + 1))) (hr : r < 64)
    (hend : p + (r + 1) ≤ s.inLen.toNat) (fuel : Nat) :
    ∃ u', compressLoop (fuel + (r + 1)) u = compressLoop fuel u' ∧ u'.seq = .decide (BitVec.ofNat 32 (p + (r + 1)))
      ∧ (g.advance s p (r + 1)).At s (p + (r + 1)) (p + (r + 1)) u' := by
  induction r generalizing g u p with
  | zero =>
    have hone : BitVec.ofNat 32 (0 + 1) = (1 : Word) := rfl
    have hstep := compressLoop_of_step (by rw [hseq]; nofun) (compressStep_copy hseq) fuel
    rw [copyStep_last _ _ _ hone, toNat_ofNat_word (u := s) (by omega), ofNat_succ_word] at hstep
    exact ⟨_, hstep, rfl, h.readAhead.setSeq _⟩
  | succ r ih =>
    have hmore : BitVec.ofNat 32 (r + 1 + 1) ≠ (1 : Word) := fun e => by
      have hone := congrArg BitVec.toNat e
      rw [BitVec.toNat_ofNat, Nat.mod_eq_of_lt (by omega)] at hone
      exact absurd hone (Nat.succ_ne_zero r ∘ Nat.succ.inj)
    have hrest : BitVec.ofNat 32 (r + 1 + 1) - (1 : Word) = BitVec.ofNat 32 (r + 1) := by
      rw [← ofNat_succ_word]
      exact BitVec.add_sub_cancel _ _
    have hstep := compressLoop_of_step (by rw [hseq]; nofun) (compressStep_copy hseq) (fuel + (r + 1))
    rw [copyStep_more _ _ _ hmore, toNat_ofNat_word (u := s) (by omega), ofNat_succ_word, hrest] at hstep
    have hnext := (h.readAhead.insertPosition (by omega)).setSeq
      (.copy (BitVec.ofNat 32 (p + 1)) len dist (BitVec.ofNat 32 (r + 1)))
    obtain ⟨u', hloop, hseq', hat⟩ := ih hnext rfl (by omega) (by omega)
    rw [Nat.add_assoc p 1, Nat.add_comm 1] at hseq' hat
    exact ⟨u', hstep.trans hloop, hseq', g.advance_succ s p (r + 1) ▸ hat⟩

end Steps

end Sys2Proof.Machine
end

section
/-! PROOFS. One item of COMPRESS (43_compress R254 to R260): from DECIDE to the DECIDE behind the item, or to the cut. -/

namespace Sys2Proof.Machine

section Loop

variable {s u : State} {g : Progress} {p : Nat}

/-! ### One item (R255, R258 to R260) -/

/-- What the DECIDE step that chooses an item at `p` comes to, the COPY steps after it included: the item is whole in `OUT`
and the loop goes on behind it with transitions enough for the rest of the input, or it is cut. -/
inductive ItemEnds (s : State) (g : Progress) (p : Nat) (it : Item) (r : CmdRes Unit) : Prop
  | whole {u : State} {fuel : Nat} (hfit : (g.emit it).bits.length ≤ 8 * s.cfg.outMemBytes)
    (hfuel : 2 * (s.inLen.toNat - (p + it.width)) + 2 ≤ fuel) (hloop : r = compressLoop fuel u)
    (hseq : u.seq = .decide (BitVec.ofNat 32 (p + it.width)))
    (h : ((g.emit it).advance s p it.width).At s (p + it.width) (p + it.width) u) : ItemEnds s g p it r
  | cut {u : State} (hfull : 8 * s.cfg.outMemBytes < (g.emit it).bits.length)
    (habort : r = .abort .outputOverflow (BitVec.ofNat 32 (8 * s.cfg.outMemBytes)) u)
    (h : (g.cutIn it (8 * s.cfg.outMemBytes)).At s p (p + 1) u) : ItemEnds s g p it r

/-- An item is cut in its emission; else what follows the emission must come to the item's end. -/
theorem ItemEnds.of_lands {it : Item} {r : CmdRes Unit} {f : Unit → State → CmdRes Unit}
    (hr : r.Lands s p (p + 1) (g.emit it) (g.cutIn it (8 * s.cfg.outMemBytes)))
    (hf : ∀ a u, (g.emit it).bits.length ≤ 8 * s.cfg.outMemBytes → (g.emit it).At s p (p + 1) u →
      ItemEnds s g p it (f a u)) : ItemEnds s g p it (r.bind f) := by
  cases hr with
  | ok hfit h => exact hf _ _ hfit h
  | abort hfull h => exact .cut hfull rfl h

theorem compressLoop_decide {p : Word} (hseq : u.seq = .decide p) (hp : p.toNat < u.inLen.toNat) (fuel : Nat) :
    compressLoop (fuel + 1) u = (decideStep p u).bind fun _ u1 => compressLoop fuel u1 := by
  rw [compressLoop, if_neg (by rw [hseq]; nofun), compressStep, hseq]
  dsimp only
  rw [if_pos hp]

theorem CmdRes.bind_assoc {α β γ : Type} (r : CmdRes α) (f : α → State → CmdRes β) (f' : β → State → CmdRes γ) :
    (r.bind f).bind f' = r.bind fun a s => (f a s).bind f' := by
  cases r <;> rfl

/-- R255 with a copy: it is emitted, and COPY begins. -/
theorem decideStep_copy (p : Word) (s : State) {len dist : Nat}
    (hlazy : lazyMatch (Machine.insertPosition s p.toNat).2 p.toNat = (len, dist)) (hpos : 0 < len) :
    decideStep p s = (emitItem (.copy (rangeOf dist) len (dist - copyMin (rangeOf dist)))
      (Machine.insertPosition s p.toNat).2).bind fun _ s2 =>
        .ok () { s2 with seq := .copy p (BitVec.ofNat 32 len) (BitVec.ofNat 32 dist) (BitVec.ofNat 32 len) } := by
  unfold decideStep
  dsimp only
  rw [hlazy, if_pos hpos, emitCopy_eq]

/-- R255, R260 with a literal: it is emitted, and the position advances. -/
theorem decideStep_literal (p : Word) (s : State) {dist : Nat}
    (hlazy : lazyMatch (Machine.insertPosition s p.toNat).2 p.toNat = (0, dist)) :
    decideStep p s = (emitItem (.literal ((Machine.insertPosition s p.toNat).2.inByte p.toNat))
      (Machine.insertPosition s p.toNat).2).bind fun _ s2 =>
        .ok () { Machine.readAhead (p.toNat + 1) s2 with seq := .decide (p + 1) } := by
  unfold decideStep
  dsimp only
  rw [hlazy, if_neg (lt_irrefl 0), emitItem_literal_bind]

/-- From DECIDE below the end of the input: the choice of R254 to R260 is emitted and consumed, or cut. -/
theorem Progress.At.compressLoop_item (h : g.At s p p u) (hwf : s.cfg.wf) (hfit : g.bits.length ≤ 8 * s.cfg.outMemBytes)
    (hp : p < s.inLen.toNat) (hseq : u.seq = .decide (BitVec.ofNat 32 p)) {fuel : Nat}
    (hfuel : 2 * (s.inLen.toNat - p) + 2 ≤ fuel) :
    ∃ it, ChosenItem s { bin := (startMode s).bin, dict := g.dict } p it ∧ ItemEnds s g p it (compressLoop fuel u) := by
  have hpos : (BitVec.ofNat 32 p : Word).toNat = p := toNat_ofNat_word (u := s) hp.le
  have hinsert := h.insertPosition hp
  have hbyte : (Machine.insertPosition u p).2.inByte p = s.inByte p := hinsert.sameInput.2 p hp
  have hlazy := lazyMatch_lazyChoice hinsert.sameInput hinsert.chains hp
  rw [hinsert.mode] at hlazy
  have hchosen := hlazy.chosenItem
  refine ⟨_, hchosen, ?_⟩
  obtain ⟨fuel, rfl⟩ := Nat.exists_eq_add_of_le' (show 1 ≤ fuel by omega)
  have hsymbol := hchosen.symbol_le
  obtain ⟨hwidth, hend⟩ := hchosen.width_bounds hp
  rw [compressLoop_decide hseq (by rwa [hpos, h.sameInput.1])]
  generalize hr : lazyMatch (Machine.insertPosition u p).2 p = r at hlazy hsymbol hwidth hend ⊢
  obtain ⟨len, dist⟩ := r
  rcases Nat.eq_zero_or_pos len with rfl | hlen
  · rw [if_neg (lt_irrefl 0)] at hsymbol hwidth hend ⊢
    rw [decideStep_literal _ _ (by rw [hpos]; exact hr), CmdRes.bind_assoc, hpos, hbyte]
    refine .of_lands (hinsert.emitItem_lands hwf hfit hsymbol) fun _ u2 hroom h2 => ?_
    rw [CmdRes.bind_ok]
    exact .whole hroom (by rw [Item.width]; omega) rfl (congrArg Seq.decide (ofNat_succ_word p)) (h2.readAhead.setSeq _)
  · rw [if_pos hlen] at hsymbol hwidth hend ⊢
    obtain ⟨-, hmax, -⟩ := hlazy.match_of_pos hlen
    rw [decideStep_copy _ _ (by rw [hpos]; exact hr) hlen, CmdRes.bind_assoc, hpos]
    refine .of_lands (hinsert.emitItem_lands hwf hfit hsymbol) fun _ u2 hroom h2 => ?_
    rw [Item.width] at hwidth hend
    obtain ⟨r, rfl⟩ := Nat.exists_eq_add_of_le' hwidth
    obtain ⟨fuel, rfl⟩ := Nat.exists_eq_add_of_le' (show r + 1 ≤ fuel by omega)
    obtain ⟨u3, hloop, hseq3, h3⟩ := (h2.setSeq _).compressLoop_copy rfl (by omega) hend fuel
    rw [CmdRes.bind_ok]
    exact .whole hroom (by rw [Item.width]; omega) hloop hseq3 h3

end Loop

end Sys2Proof.Machine
end

section
/-! PROOFS. All of COMPRESS (43_compress R250 to R264): from FILL over the items that it chooses to the flush, or to the
cut where `OUT` ends (60_exceptions R343). -/

namespace Sys2Proof.Machine

/-! ### The whole stream (R263, R343) -/

/-- The progress after a list of items. -/
def progressAfter (items : List Item) (dict : Bool) : Progress where
  model := itemsModel [] items
  count := items.length
  bits := itemBits [] items
  dict := dict

/-- The progress of a COMPRESS that has written its items, the terminator and the pad bits (R263). -/
def progressAtEnd (items : List Item) (dict : Bool) : Progress where
  model := (itemsModel [] items).update Config.terminateCode
  count := items.length + 1
  bits := streamBits [] items ++ List.replicate ((8 - (streamBits [] items).length % 8) % 8) false
  dict := dict

/-- The progress where a stream of these items is cut at bit `stop`, inside item `k` or the terminator (R343). -/
def progressAtCut (items : List Item) (stop k : Nat) (dict : Bool) : Progress where
  model := itemsModel [] (items.take (symbolsBefore items stop k))
  count := symbolsBefore items stop k
  bits := (streamBits [] items).take stop
  dict := dict

/-- How the transitions of COMPRESS end, for the items of the whole input: all of the stream is in `OUT`, or `OUT` ends
inside item `k`, which stands at position `p`. -/
inductive CompressEnds (s : State) (items : List Item) (last : Bool) : CmdRes Unit → Prop
  | whole {u : State} (hfit : (streamBits [] items).length ≤ 8 * s.cfg.outMemBytes)
    (h : (progressAtEnd items last).At s s.inLen.toNat s.inLen.toNat u) : CompressEnds s items last (.ok () u)
  | cut {u : State} {k p : Nat} {dict : Bool} (hfull : 8 * s.cfg.outMemBytes < (streamBits [] items).length)
    (hcut : CutAfter items (8 * s.cfg.outMemBytes) k) (hchooses : Chooses s (items.take k) p dict)
    (h : (progressAtCut items (8 * s.cfg.outMemBytes) k dict).At s p (min s.inLen.toNat (p + 1)) u) :
    CompressEnds s items last (.abort .outputOverflow (BitVec.ofNat 32 (8 * s.cfg.outMemBytes)) u)

section Loop

variable {s u : State} {p : Nat} {dict last : Bool} {items : List Item}

/-- An item more. -/
theorem progressAfter_emit (items : List Item) (dict : Bool) (it : Item) (s : State) (p w : Nat) :
    ((progressAfter items dict).emit it).advance s p w = progressAfter (items ++ [it])
      (dictAfter s ((itemBits [] (items ++ [it])).length / 8) p w dict) := by
  simp only [progressAfter, Progress.emit, Progress.advance, itemBits_concat, itemsModel_concat, List.length_append,
    List.length_singleton]

theorem streamBits_append_cons (m : Arena) (items : List Item) (it : Item) (rest : List Item) :
    streamBits m (items ++ it :: rest)
      = itemBits m (items ++ [it]) ++ streamBits (itemsModel m (items ++ [it])) rest := by
  rw [streamBits_eq, streamBits_eq, ← List.append_assoc, ← itemBits_append, ← itemsModel_append, List.append_assoc,
    List.singleton_append]

/-- An item that is cut is where the stream is cut. -/
theorem progressAfter_cutIn (items rest : List Item) (dict : Bool) (it : Item) {stop : Nat}
    (hfull : stop < (itemBits [] (items ++ [it])).length) :
    (progressAfter items dict).cutIn it stop = progressAtCut (items ++ it :: rest) stop items.length dict := by
  have hcode : codeEnd (items ++ it :: rest) items.length
      = (itemBits [] items).length + ((itemsModel [] items).codeOf it.symbol).length := by
    simp [codeEnd]
  have hcount : symbolsBefore (items ++ it :: rest) stop items.length
      = if (itemBits [] items).length + ((itemsModel [] items).codeOf it.symbol).length ≤ stop then items.length + 1
        else items.length := by
    simp [symbolsBefore, hcode]
  rw [progressAtCut, hcount, streamBits_append_cons, List.take_append_of_le_length hfull.le, itemBits_concat]
  by_cases hcoded : (itemBits [] items).length + ((itemsModel [] items).codeOf it.symbol).length ≤ stop
  · have htake : (items ++ it :: rest).take (items.length + 1) = items ++ [it] := by simp [List.take_append]
    rw [Progress.cutIn_coded (g := progressAfter items dict) hcoded, if_pos hcoded, htake, itemsModel_concat]
    simp only [progressAfter, Progress.emit]
  · rw [Progress.cutIn_not_coded (g := progressAfter items dict) hcoded, if_neg hcoded, List.take_left]
    simp only [progressAfter, Progress.emit]

theorem chooses_append_singleton {it : Item} (h : Chooses s items p dict) (hp : p < s.inLen.toNat)
    (hit : ChosenItem s { bin := (startMode s).bin, dict := dict } p it) :
    Chooses s (items ++ [it]) (p + it.width)
      (dictAfter s ((itemBits [] (items ++ [it])).length / 8) p it.width dict) := by
  refine choosesFrom_append_iff.2 ⟨p, dict, h, hp, hit, rfl, ?_⟩
  simp only [itemBits_concat, Nat.zero_add, List.length_append]

/-! ### FLUSH (R263) -/

theorem length_pad (n : Nat) : n + (8 - n % 8) % 8 = 8 * ((n + 7) / 8) := by
  omega

/-- After the terminator and the pad bits. -/
def Progress.close (g : Progress) : Progress :=
  let bits := g.bits ++ g.model.codeOf Config.terminateCode
  { g with
    model := g.model.update Config.terminateCode
    count := g.count + 1
    bits := bits ++ List.replicate ((8 - bits.length % 8) % 8) false }

theorem Progress.At.flushStream_lands {g : Progress} (h : g.At s p p u) (hwf : s.cfg.wf)
    (hfit : g.bits.length ≤ 8 * s.cfg.outMemBytes) : (flushStream u).Lands s p p g.close
      { g with bits := (g.bits ++ g.model.codeOf Config.terminateCode).take (8 * s.cfg.outMemBytes) } := by
  have hround := length_pad (g.bits ++ g.model.codeOf Config.terminateCode).length
  rw [Progress.close]
  refine (h.encodeSym_lands hwf hfit (by decide)).bind (fun _ u1 hroom h1 => ?_) fun hfull => ⟨?_, rfl⟩
  · have hpad : padCount u1 = (8 - (g.bits ++ g.model.codeOf Config.terminateCode).length % 8) % 8 := by
      rw [padCount, h1.outBitpos]
    rw [flush, CmdRes.bind_assoc, hpad]
    have hput := h1.putBits_lands hwf hroom (List.replicate
      ((8 - (g.bits ++ g.model.codeOf Config.terminateCode).length % 8) % 8) false)
    dsimp only at hroom hput
    refine hput.bind (fun _ u2 hroom2 h2 => .ok hroom2 h2) fun hfull => ?_
    simp only [List.length_append (bs := List.replicate _ _), List.length_replicate] at hfull
    omega
  · rw [List.length_append, List.length_replicate]
    dsimp only at hfull
    omega

theorem progressAfter_close (items : List Item) (dict : Bool) :
    (progressAfter items dict).close = progressAtEnd items dict := by
  simp only [progressAfter, Progress.close, progressAtEnd, streamBits_eq]

theorem compressLoop_done (h : u.seq = .compressDone) (fuel : Nat) : compressLoop fuel u = .ok () u := by
  cases fuel with
  | zero => rfl
  | succ fuel => rw [compressLoop, if_pos h]

theorem compressLoop_flush (hseq : u.seq = .flush) (fuel : Nat) :
    compressLoop (fuel + 1) u = (flushStream u).bind fun _ s1 => .ok () { s1 with seq := .compressDone } := by
  rw [compressLoop, if_neg (by rw [hseq]; nofun), compressStep, hseq]
  dsimp only
  rw [CmdRes.bind_assoc]
  congr 1
  funext _ s1
  exact compressLoop_done rfl fuel

/-- A cut inside the terminator: every item lies whole before it. -/
theorem cutAfter_terminator {stop : Nat} (hfit : (itemBits [] items).length ≤ stop) :
    CutAfter items stop items.length ∧ symbolsBefore items stop items.length = items.length := by
  refine ⟨⟨le_rfl, by rwa [List.take_length], Or.inl rfl⟩, ?_⟩
  rw [symbolsBefore, if_neg fun h => lt_irrefl _ h.1]

theorem cutAfter_item {rest : List Item} {it : Item} {stop : Nat} (hfit : (itemBits [] items).length ≤ stop)
    (hfull : stop < (itemBits [] (items ++ [it])).length) : CutAfter (items ++ it :: rest) stop items.length := by
  have htake : (items ++ it :: rest).take (items.length + 1) = items ++ [it] := by simp [List.take_append]
  refine ⟨by rw [List.length_append]; omega, by rwa [List.take_left], Or.inr ?_⟩
  rwa [htake]

/-- From FLUSH, with the whole input chosen: the terminator and the pad bits, or the cut in the terminator. -/
theorem Progress.At.compressLoop_flush_ends (h : (progressAfter items last).At s s.inLen.toNat s.inLen.toNat u)
    (hwf : s.cfg.wf) (hfit : (itemBits [] items).length ≤ 8 * s.cfg.outMemBytes)
    (hchooses : Chooses s items s.inLen.toNat last) (hseq : u.seq = .flush) (fuel : Nat) :
    CompressEnds s items last (compressLoop (fuel + 1) u) := by
  have hround := length_pad (streamBits [] items).length
  have hlength : (progressAtEnd items last).bits.length
      = (streamBits [] items).length + (8 - (streamBits [] items).length % 8) % 8 := by
    rw [progressAtEnd, List.length_append, List.length_replicate]
  have hflush := h.flushStream_lands hwf hfit
  rw [progressAfter_close] at hflush
  rw [compressLoop_flush hseq]
  generalize flushStream u = r at hflush ⊢
  cases hflush with
  | ok hroom hend => exact .whole (by omega) (hend.setSeq _)
  | abort hfull hcut =>
    obtain ⟨hafter, hcount⟩ := cutAfter_terminator hfit
    have hat : progressAtCut items (8 * s.cfg.outMemBytes) items.length last = { progressAfter items last with
        bits := (streamBits [] items).take (8 * s.cfg.outMemBytes) } := by
      rw [progressAtCut, hcount, List.take_length]
      rfl
    refine .cut (by omega) hafter (by rwa [List.take_length]) ?_
    rw [hat, min_eq_left (Nat.le_succ _), streamBits_eq]
    exact hcut

/-- From DECIDE: the items that are left, one after another, then FLUSH. -/
theorem Progress.At.compressLoop_ends {rest : List Item} (h : (progressAfter items dict).At s p p u) (hwf : s.cfg.wf)
    (hfit : (itemBits [] items).length ≤ 8 * s.cfg.outMemBytes) (hchooses : Chooses s items p dict)
    (hrest : ChoosesFrom s (startMode s).bin s.inLen.toNat last p dict (itemBits [] items).length (itemsModel [] items) rest)
    (hseq : u.seq = .decide (BitVec.ofNat 32 p)) {fuel : Nat} (hfuel : 2 * (s.inLen.toNat - p) + 2 ≤ fuel) :
    CompressEnds s (items ++ rest) last (compressLoop fuel u) := by
  induction rest generalizing items p dict u fuel with
  | nil =>
    obtain ⟨rfl, rfl⟩ := hrest
    obtain ⟨fuel, rfl⟩ := Nat.exists_eq_add_of_le' (show 2 ≤ fuel by omega)
    have hstep : compressStep u = .ok () { u with seq := .flush } := by
      rw [compressStep, hseq]
      dsimp only
      rw [if_neg (by rw [BitVec.ofNat_toNat, BitVec.setWidth_eq, h.sameInput.1]; exact lt_irrefl _)]
    rw [List.append_nil, compressLoop_of_step (by rw [hseq]; nofun) hstep]
    exact (h.setSeq .flush).compressLoop_flush_ends hwf hfit hchooses rfl fuel
  | cons it rest ih =>
    obtain ⟨hp, hit, hrest⟩ := hrest
    obtain ⟨it', hit', hends⟩ := h.compressLoop_item hwf hfit hp hseq hfuel
    obtain rfl := hit.unique hit'
    have hbits : ((progressAfter items dict).emit it).bits = itemBits [] (items ++ [it]) :=
      (itemBits_concat [] items it).symm
    cases hends with
    | whole hfit' hfuel' hloop hseq' hat =>
      rw [hbits] at hfit'
      rw [progressAfter_emit] at hat
      have htail := ih hat hfit' (chooses_append_singleton hchooses hp hit)
        (by simpa only [itemBits_concat, itemsModel_concat, List.length_append] using hrest) hseq' hfuel'
      rw [List.append_assoc, List.singleton_append] at htail
      rwa [hloop]
    | cut hfull habort hat =>
      rw [hbits] at hfull
      rw [progressAfter_cutIn items rest dict it hfull] at hat
      have hstream : 8 * s.cfg.outMemBytes < (streamBits [] (items ++ it :: rest)).length := by
        rw [streamBits_append_cons, List.length_append]
        omega
      rw [habort]
      refine .cut hstream (cutAfter_item hfit hfull) (by rwa [List.take_left]) ?_
      rwa [min_eq_right (by omega)]

/-! ### The command (R251, R252) -/

/-- While DICT is 0 the lookahead's checks do nothing (R252). -/
theorem readBytes_of_no_dict (k : Nat) (hdict : s.mode.dict = false) :
    readBytes k s = { s with bytesRead := s.bytesRead + BitVec.ofNat 32 k } := by
  induction k generalizing s with
  | zero => simp [readBytes]
  | succ k ih =>
    have hcheck : dictCheck { s with bytesRead := s.bytesRead + 1 } = { s with bytesRead := s.bytesRead + 1 } :=
      (dictCheck_cases _).resolve_right fun h => by simp [hdict] at h
    rw [readBytes, hcheck, ih (s := { s with bytesRead := s.bytesRead + 1 }) hdict]
    dsimp only
    rw [BitVec.add_assoc, BitVec.add_comm 1, ofNat_succ_word]

/-- FILL: the first bytes are read and MODE is set; nothing is written and nothing inserted. -/
theorem fillLookahead_at (s : State) : (progressAfter [] (startMode s).dict).At s 0 0
    (fillLookahead { s.initState with seq := .fill }) := by
  have hin : SameInput s { s.initState with seq := .fill, bytesRead := BitVec.ofNat 32 (min s.inLen.toNat 67) } :=
    .of_inMem rfl rfl
  have hread : readAhead 0 { s.initState with seq := .fill } = { s.initState with
      seq := .fill, bytesRead := BitVec.ofNat 32 (min s.inLen.toNat 67) } := by
    rw [readAhead, readBytes_of_no_dict _ rfl]
    simp [aheadCount, Config.lookaheadSize, Config.minCopy, Config.maxCopy]
  rw [fillLookahead, hread]
  exact {
    frame := ⟨rfl, rfl, rfl, rfl, rfl, rfl, rfl, rfl, rfl, rfl, rfl, rfl, rfl⟩
    inBitpos := rfl
    nodes := rfl
    symcount := rfl
    written := WritesBits.nil s.initState
    mode := (scannedMode_eq_startMode _).trans hin.startMode_eq
    bytesRead := rfl
    chains := chainsHold_zero rfl }

/-- COMPRESS chooses items for the whole input, and its transitions end with all of their stream in `OUT` or where `OUT`
ends. -/
theorem exec_compress_ends (hwf : s.cfg.wf) (hlen : s.inLen.toNat ≤ s.cfg.inMemBytes) :
    ∃ items last r, Chooses s items s.inLen.toNat last ∧ CompressEnds s items last r ∧ exec .compress s
      = finish (r.bind fun _ u => .ok { res0 := some u.outLen, res1 := some u.symcount } u) := by
  obtain ⟨items, last, hchooses⟩ :=
    exists_choosesFrom (s := s) (startMode s).bin (Nat.zero_le _) (startMode s).dict 0 []
  refine ⟨items, last, _, hchooses, ?_, congrArg finish (require_bind_of_pass hlen)⟩
  have hfill := fillLookahead_at s
  have hstep : compressStep { s.initState with seq := .fill } = .ok () { fillLookahead { s.initState with seq := .fill } with
      seq := if s.inLen = 0 then .flush else .decide 0 } := by
    rw [← hfill.sameInput.1]
    rfl
  have hbound : compressBound { s.initState with seq := .fill } = 2 * s.inLen.toNat + 3 + 1 := rfl
  rw [hbound, compressLoop_of_step (by simp) hstep]
  split_ifs with hn
  · have hzero : s.inLen.toNat = 0 := by rw [hn]; rfl
    have hnil : Chooses s [] s.inLen.toNat (startMode s).dict := ⟨hzero.symm, rfl⟩
    obtain ⟨rfl, rfl⟩ := hchooses.unique hnil
    exact Progress.At.compressLoop_flush_ends (by rw [hzero]; exact hfill.setSeq .flush) hwf (Nat.zero_le _) hnil rfl _
  · exact (hfill.setSeq _).compressLoop_ends hwf (Nat.zero_le _) ⟨rfl, rfl⟩ hchooses rfl (by omega)

end Loop

end Sys2Proof.Machine
end

section
/-! PROOFS. What the state and the output are at a point of COMPRESS's progress (43_compress R251, R263). -/

namespace Sys2Proof.Machine

/-! ### The state and the output at a point of progress -/

/-- The stream bits of a byte (R84). -/
theorem outBit_byte (u : State) (a : Nat) {k : Nat} (hk : k < 8) :
    u.outBit (8 * a + k) = (u.outByte a).getLsbD (7 - k) := by
  rw [State.outBit, Nat.mul_add_div (by decide), Nat.div_eq_of_lt hk, Nat.mul_add_mod, Nat.mod_eq_of_lt hk, Nat.add_zero]

/-- A byte whose eight stream bits are known. -/
theorem outByte_eq_of_outBits {u : State} {a : Nat} {x : Byte}
    (h : ∀ k, k < 8 → u.outBit (8 * a + k) = x.getLsbD (7 - k)) : u.outByte a = x := by
  refine BitVec.eq_of_getLsbD_eq fun i hi => ?_
  have hbit := h (7 - i) (by omega)
  rwa [outBit_byte u a (by omega), Nat.sub_sub_self (by omega)] at hbit

section At

variable {s s' u u' : State} {g : Progress} {p i : Nat}

/-- The written bits stand in `OUT` from its start, with zero bits to the byte boundary (R140, R263). -/
theorem Progress.At.outBit (h : g.At s p i u) {b : Nat} (hb : b < 8 * ((g.bits.length + 7) / 8)) :
    u.outBit b = g.bits.getD b false := by
  have hzero : s.initState.outBitpos.toNat = 0 := rfl
  obtain ⟨-, hbits, -, -⟩ := h.written
  rw [hbits b (Nat.zero_le _) (by rwa [hzero, Nat.zero_add]), State.staleBit, hzero, Nat.sub_zero]
  simp

theorem Progress.At.outByte (h : g.At s p i u) {a : Nat} (ha : (g.bits.length + 7) / 8 ≤ a) :
    u.outByte a = s.outByte a := by
  have hzero : s.initState.outBitpos.toNat = 0 := rfl
  obtain ⟨-, -, -, hafter⟩ := h.written
  exact hafter a (by rwa [hzero, Nat.zero_add])

theorem Progress.At.outBitpos_eq (h : g.At s p i u) : u.outBitpos = BitVec.ofNat 32 g.bits.length := by
  rw [← h.outBitpos, BitVec.ofNat_toNat, BitVec.setWidth_eq]

theorem State.outLen_toNat (u : State) : u.outLen.toNat = (u.outBitpos.toNat + 7) / 8 := by
  have := u.outBitpos.isLt
  rw [State.outLen, BitVec.toNat_ofNat, Nat.mod_eq_of_lt (by omega)]

/-- Everything but the tables, `OUT` and the sequencer is fixed. -/
theorem Progress.At.state_eq (h : g.At s p i u) : u = { s with
    nodes := g.model
    head := u.head
    next := u.next
    prev := u.prev
    outMem := u.outMem
    outBitpos := BitVec.ofNat 32 g.bits.length
    inBitpos := 0
    mode := { bin := (startMode s).bin, dict := g.dict }
    symcount := BitVec.ofNat 32 g.count
    bytesRead := BitVec.ofNat 32 (min s.inLen.toNat (p + 67))
    seq := u.seq
    pathStack := u.pathStack } := by
  rw [← h.outBitpos_eq, ← h.nodes, ← h.inBitpos, ← h.mode, ← h.symcount, ← h.bytesRead]
  obtain ⟨hcfg, hctrl, hstatus, harg0, harg1, hres0, hres1, hlen, hinfo, hmem, hagenda, hread, hfree⟩ := h.frame
  rw [← hcfg, ← hctrl, ← hstatus, ← harg0, ← harg1, ← hres0, ← hres1, ← hinfo, ← hmem, ← hagenda, ← hread, ← hfree]
  cases u
  cases hlen
  rfl

/-- Two runs on the same input that have come equally far show the same (R251). -/
theorem Progress.At.agree (h : g.At s p i u) (h' : g.At s' p i u') (hin : SameInput s s') :
    u.outBitpos = u'.outBitpos ∧ u.symcount = u'.symcount ∧ u.bytesRead = u'.bytesRead ∧ u.mode = u'.mode
      ∧ u.nodes = u'.nodes ∧ (∀ key, u.headAt key = u'.headAt key)
      ∧ ∀ a, a < u.outLen.toNat → u.outByte a = u'.outByte a := by
  have hin' : SameInput u u' := by
    obtain ⟨hlen, hbytes⟩ := hin
    obtain ⟨hlen1, hbytes1⟩ := h.sameInput
    obtain ⟨hlen2, hbytes2⟩ := h'.sameInput
    refine ⟨by rw [hlen2, hlen, hlen1], fun a ha => ?_⟩
    rw [hlen1] at ha
    rw [hbytes2 a (by rwa [hlen]), hbytes a ha, hbytes1 a ha]
  refine ⟨h.outBitpos_eq.trans h'.outBitpos_eq.symm, h.symcount.trans h'.symcount.symm, ?_, ?_,
    h.nodes.trans h'.nodes.symm, fun key => ?_, fun a ha => ?_⟩
  · rw [h.bytesRead, h'.bytesRead, hin.1]
  · rw [h.mode, h'.mode, hin.startMode_eq]
  · rw [h.chains.headAt_eq, h'.chains.headAt_eq, hin'.keyedBelow_eq]
  · rw [State.outLen_toNat, h.outBitpos] at ha
    refine outByte_eq_of_outBits fun k hk => ?_
    rw [h.outBit (by omega), ← h'.outBit (by omega), outBit_byte u' a hk]

end At

end Sys2Proof.Machine
end

section
/-! PROOFS. The two ends of COMPRESS as whole states, and what they say of completion, of the stream written
(43_compress R251, R262, R263). -/

namespace Sys2Proof.Machine

section Endings

variable {s t u : State} {items : List Item} {last : Bool} {g : Progress} {p i : Nat}

/-! ### A completed and an aborted COMPRESS -/

/-- The state of a completed COMPRESS (R114, R251). -/
theorem Progress.At.complete_eq (h : g.At s p i u) (a b : Word) :
    let t := u.complete { res0 := some a, res1 := some b }
    t = { s with
      nodes := g.model
      head := t.head
      next := t.next
      prev := t.prev
      outMem := t.outMem
      outBitpos := BitVec.ofNat 32 g.bits.length
      inBitpos := 0
      mode := { bin := (startMode s).bin, dict := g.dict }
      symcount := BitVec.ofNat 32 g.count
      bytesRead := BitVec.ofNat 32 (min s.inLen.toNat (p + 67))
      res0 := a
      res1 := b }.afterCompletion := by
  have hstate := congrArg (State.complete · { res0 := some a, res1 := some b }) h.state_eq
  exact hstate

/-- The state of an aborted COMPRESS (R340). -/
theorem Progress.At.raise_eq (h : g.At s p i u) (e : ErrCode) (info : Word) :
    let t := u.raise e info
    t = { s with
      nodes := g.model
      head := t.head
      next := t.next
      prev := t.prev
      outMem := t.outMem
      outBitpos := BitVec.ofNat 32 g.bits.length
      inBitpos := 0
      mode := { bin := (startMode s).bin, dict := g.dict }
      symcount := BitVec.ofNat 32 g.count
      bytesRead := BitVec.ofNat 32 (min s.inLen.toNat (p + 67)) }.afterAbort e info := by
  have hstate := congrArg (State.raise · e info) h.state_eq
  exact hstate

/-- A COMPRESS with a fitting IN_LEN has chosen items for the whole input, and completes with all of their stream in `OUT`,
or is cut where `OUT` ends. -/
theorem exec_compress_cases (hwf : s.cfg.wf) (hlen : s.inLen.toNat ≤ s.cfg.inMemBytes) :
    ∃ items last, Chooses s items s.inLen.toNat last
      ∧ ((∃ u, (streamBits [] items).length ≤ 8 * s.cfg.outMemBytes
          ∧ (progressAtEnd items last).At s s.inLen.toNat s.inLen.toNat u
          ∧ exec .compress s = .next (u.complete { res0 := some u.outLen, res1 := some u.symcount }))
        ∨ ∃ u k p dict, 8 * s.cfg.outMemBytes < (streamBits [] items).length ∧ CutAfter items (8 * s.cfg.outMemBytes) k
          ∧ Chooses s (items.take k) p dict
          ∧ (progressAtCut items (8 * s.cfg.outMemBytes) k dict).At s p (min s.inLen.toNat (p + 1)) u
          ∧ exec .compress s = .next (u.raise .outputOverflow (BitVec.ofNat 32 (8 * s.cfg.outMemBytes)))) := by
  obtain ⟨items, last, r, hchooses, hends, hexec⟩ := exec_compress_ends hwf hlen
  refine ⟨items, last, hchooses, ?_⟩
  cases hends with
  | whole hfit h => exact Or.inl ⟨_, hfit, h, hexec⟩
  | cut hfull hcut htake h => exact Or.inr ⟨_, _, _, _, hfull, hcut, htake, h, hexec⟩

/-- A COMPRESS that reports no error has passed the IN_LEN check, chosen items, and put all of their stream in `OUT`. -/
theorem compress_of_no_error (hwf : s.cfg.wf) (hexec : exec .compress s = .next t) (hok : t.status.err = false) :
    ∃ items last u, Chooses s items s.inLen.toNat last ∧ (streamBits [] items).length ≤ 8 * s.cfg.outMemBytes
      ∧ (progressAtEnd items last).At s s.inLen.toNat s.inLen.toNat u
      ∧ t = u.complete { res0 := some u.outLen, res1 := some u.symcount } := by
  by_cases hlen : s.inLen.toNat ≤ s.cfg.inMemBytes
  · obtain ⟨items, last, hchooses, ⟨u, hfit, h, he⟩ | ⟨u, k, p, dict, -, -, -, -, he⟩⟩ := exec_compress_cases hwf hlen
    · exact ⟨items, last, u, hchooses, hfit, h, Host.Outcome.next.inj (hexec.symm.trans he)⟩
    · obtain rfl := Host.Outcome.next.inj (hexec.symm.trans he)
      cases hok
  · have he : exec .compress s = .next (s.afterAbort .badArgument s.inLen) := finish_require_bind_of_fail hlen
    obtain rfl := Host.Outcome.next.inj (hexec.symm.trans he)
    cases hok

theorem progressAtEnd_model (items : List Item) (dict : Bool) :
    (progressAtEnd items dict).model = (itemsModel [] items).update 256 := by
  have hcode : Config.terminateCode = 256 := rfl
  rw [progressAtEnd, hcode]

theorem length_progressAtEnd (items : List Item) (dict : Bool) :
    (progressAtEnd items dict).bits.length = 8 * (((streamBits [] items).length + 7) / 8) := by
  rw [progressAtEnd, List.length_append, List.length_replicate, length_pad]

/-- The pad bits are zeros, like what lies past a list's end. -/
theorem getD_progressAtEnd (items : List Item) (dict : Bool) (b : Nat) :
    (progressAtEnd items dict).bits.getD b false = (streamBits [] items).getD b false := by
  rw [progressAtEnd]
  by_cases hb : b < (streamBits [] items).length
  · rw [List.getD_append _ _ _ _ hb]
  · rw [List.getD_append_right _ _ _ _ (not_lt.1 hb), List.getD_eq_getElem?_getD,
      List.getElem?_getD_replicate_default_eq, List.getD_eq_default _ _ (not_lt.1 hb)]

/-- The stream's bits, and zeros to the byte boundary, from the start of `OUT` (R263). -/
theorem Progress.At.outBit_stream (h : (progressAtEnd items last).At s p i u) {b : Nat}
    (hb : b < 8 * (((streamBits [] items).length + 7) / 8)) : u.outBit b = (streamBits [] items).getD b false := by
  rw [h.outBit (by rw [length_progressAtEnd]; omega), getD_progressAtEnd]

theorem Progress.At.outLen_stream (h : (progressAtEnd items last).At s p i u) :
    u.outLen = BitVec.ofNat 32 (((streamBits [] items).length + 7) / 8) := by
  rw [State.outLen, h.outBitpos, length_progressAtEnd]
  congr 1
  omega

end Endings

/-- Settles O30: a cut stream would be longer than its symbols' bits can be. -/
theorem compressCompletes : Obligations.CompressCompletes := by
  unfold Obligations.CompressCompletes
  intro s hwf hlen hroom
  obtain ⟨items, last, hchooses, ⟨u, -, h, he⟩ | ⟨u, k, p, dict, hfull, -⟩⟩ := exec_compress_cases hwf hlen
  · refine ⟨_, he, (h.complete_eq _ _).trans ?_⟩
    rw [min_eq_left (Nat.le_add_right _ _), BitVec.ofNat_toNat, BitVec.setWidth_eq, ← h.nodes, ← h.outBitpos_eq,
      ← h.mode, ← h.symcount]
    rfl
  · have hitems := hchooses.length_le (Nat.zero_le _)
    have hbits := hchooses.length_itemBits_le initialTree_shape
    have hcode := ((initialTree_shape.itemsModel hchooses.symbol_le).length_codeOf
      (code := Config.terminateCode) (by decide)).2
    rw [streamBits_eq, List.length_append] at hfull
    omega

/-- Settles O31: the end of the transitions is a completion, and the choices are legal and stand for the input. -/
theorem compressWritesGrammarStream : Obligations.CompressWritesGrammarStream := by
  unfold Obligations.CompressWritesGrammarStream
  intro s t hwf _ hexec hok
  obtain ⟨items, last, u, hchooses, hfit, h, rfl⟩ := compress_of_no_error hwf hexec hok
  obtain ⟨hlegal, hexpand⟩ := hchooses.legal_expand
  refine ⟨items, last, hchooses, hlegal, hexpand, fun range len field hmem => ?_, ?_, ?_⟩
  · obtain ⟨mode, q, hchosen⟩ := hchooses.mem hmem
    obtain ⟨_, _, _, _, heq, hrange, -, -, hmin, hmax, -⟩ := hchosen.cases.resolve_left nofun
    cases heq
    exact ⟨hmin, hmax, hrange⟩
  · refine ⟨by omega, h.outBitpos.trans (length_progressAtEnd items last), fun b hb => h.outBit_stream hb,
      fun a ha => h.outByte (by rw [length_progressAtEnd]; omega), (h.complete_eq _ _).trans ?_⟩
    rw [min_eq_left (Nat.le_add_right _ _), BitVec.ofNat_toNat, BitVec.setWidth_eq, ← h.outBitpos_eq, h.outLen_stream,
      h.symcount, progressAtEnd_model]
    rfl
  · exact h.chains.frame (.of_inMem rfl rfl) rfl rfl

end Sys2Proof.Machine
end

section
/-! PROOFS. A COMPRESS that overflows, two runs on the same input, and the empty input (43_compress R251, R262, R264;
60_exceptions R343). -/

namespace Sys2Proof.Machine

/-- Settles O58: the end of the transitions is the abort at the cut. -/
theorem compressStopsAtFullOutput : Obligations.CompressStopsAtFullOutput := by
  unfold Obligations.CompressStopsAtFullOutput
  intro s t hwf hlen hok hexec herr
  obtain ⟨items, last, hchooses, ⟨u, -, h, he⟩ | ⟨u, k, p, dict, hfull, hcut, htake, h, he⟩⟩ :=
    exec_compress_cases hwf hlen
  · obtain rfl := Host.Outcome.next.inj (hexec.symm.trans he)
    obtain ⟨-, -, hstatus, -⟩ := h.frame
    rw [State.complete_status, hstatus, hok] at herr
    cases herr
  · obtain rfl := Host.Outcome.next.inj (hexec.symm.trans he)
    have hstop : (progressAtCut items (8 * s.cfg.outMemBytes) k dict).bits.length = 8 * s.cfg.outMemBytes := by
      rw [progressAtCut, List.length_take, min_eq_left hfull.le]
    refine ⟨items, last, k, p, dict, hchooses, htake, hcut, hfull, (h.raise_eq _ _).trans ?_, fun b hb => ?_,
      fun a ha => h.outByte (by rw [hstop]; omega), h.chains.frame (.of_inMem rfl rfl) rfl rfl⟩
    · rw [hstop]
      rfl
    · refine (h.outBit (by rw [hstop]; omega)).trans ?_
      rw [progressAtCut, List.getD_eq_getElem?_getD, List.getD_eq_getElem?_getD, List.getElem?_take_of_lt hb]

/-! ### Two runs (R251) -/

section TwoRuns

theorem Progress.At.status {g : Progress} {s u : State} {p i : Nat} (h : g.At s p i u) : u.status = s.status := by
  obtain ⟨-, -, hstatus, -⟩ := h.frame
  exact hstatus

theorem Progress.At.errinfo {g : Progress} {s u : State} {p i : Nat} (h : g.At s p i u) : u.errinfo = s.errinfo := by
  obtain ⟨-, -, -, -, -, -, -, -, hinfo, -⟩ := h.frame
  exact hinfo

variable {s s' : State} {items : List Item} {stop k k' : Nat}

theorem length_itemBits_take_le (items : List Item) {j k : Nat} (hjk : j ≤ k) :
    (itemBits [] (items.take j)).length ≤ (itemBits [] (items.take k)).length := by
  obtain ⟨rest, hrest⟩ := List.take_prefix_take_left (l := items) hjk
  rw [← hrest, itemBits_append, List.length_append]
  exact Nat.le_add_right _ _

/-- A stream is cut in one place. -/
theorem CutAfter.unique (h : CutAfter items stop k) (h' : CutAfter items stop k') : k = k' := by
  obtain ⟨hk, hfit, hnext⟩ := h
  obtain ⟨hk', hfit', hnext'⟩ := h'
  by_contra hne
  rcases Nat.lt_or_gt_of_ne hne with hlt | hlt
  · have hle := length_itemBits_take_le items (show k + 1 ≤ k' from hlt)
    omega
  · have hle := length_itemBits_take_le items (show k' + 1 ≤ k from hlt)
    omega

end TwoRuns

/-- Settles O32: equal input gives equal choices, so both runs end at the same point of progress. -/
theorem compressDependsOnlyOnInput : Obligations.CompressDependsOnlyOnInput := by
  unfold Obligations.CompressDependsOnlyOnInput
  intro s s' t t' hwf hwf' hout hlen hfit hfit' hbytes hstatus hinfo hexec hexec'
  have hin : SameInput s s' := ⟨hlen.symm, fun a ha => (hbytes a ha).symm⟩
  obtain ⟨items, last, hchooses, hends⟩ := exec_compress_cases hwf hfit
  obtain ⟨items', last', hchooses', hends'⟩ := exec_compress_cases hwf' (by rwa [← hlen])
  have hsame := hin.chooses hchooses
  rw [hlen] at hsame
  obtain ⟨rfl, rfl⟩ := ChoosesFrom.unique hsame hchooses'
  rw [← hlen, ← hout] at hends'
  rcases hends with ⟨u, hroom, h, he⟩ | ⟨u, k, p, dict, hfull, hcut, htake, h, he⟩ <;>
    rcases hends' with ⟨u', hroom', h', he'⟩ | ⟨u', k', p', dict', hfull', hcut', htake', h', he'⟩
  · obtain rfl := Host.Outcome.next.inj (hexec.symm.trans he)
    obtain rfl := Host.Outcome.next.inj (hexec'.symm.trans he')
    obtain ⟨hpos, hcount, hread, hmode, hnodes, hheads, hbytesOut⟩ := h.agree h' hin
    have hlength : u.outLen = u'.outLen := by rw [State.outLen, State.outLen, hpos]
    refine ⟨?_, ?_, hpos, hcount, hread, hmode, fun k => by simp [hnodes], hheads, hbytesOut, fun _ => ⟨hlength, hcount⟩⟩
    · simp [h.status, h'.status, hstatus]
    · simp [h.errinfo, h'.errinfo, hinfo]
  · omega
  · omega
  · obtain rfl := hcut.unique hcut'
    obtain ⟨rfl, rfl⟩ := ChoosesFrom.end_unique (hin.chooses htake) htake'
    obtain rfl := Host.Outcome.next.inj (hexec.symm.trans he)
    obtain rfl := Host.Outcome.next.inj (hexec'.symm.trans he')
    obtain ⟨hpos, hcount, hread, hmode, hnodes, hheads, hbytesOut⟩ := h.agree h' hin
    refine ⟨?_, rfl, hpos, hcount, hread, hmode, fun k => by simp [hnodes], hheads, hbytesOut, nofun⟩
    simp [h.status, h'.status, hstatus]

/-- Settles O29: without input there is no item, and the stream is the terminator's code. -/
theorem compressEmptyInput : Obligations.CompressEmptyInput := by
  unfold Obligations.CompressEmptyInput
  intro s hwf hlen hroom
  have hn : s.inLen.toNat = 0 := by rw [hlen]; rfl
  have hcode : streamBits [] [] = [true, false, true, true, true, false, true, false, true] := by
    decide +kernel
  have hmode : startMode s = { bin := false, dict := false } := by
    simp [startMode, lineAgreement, lineStarts, hn]
  obtain ⟨items, last, hchooses, hends⟩ := exec_compress_cases hwf (by omega)
  have hnil : Chooses s [] s.inLen.toNat (startMode s).dict := ⟨hn.symm, rfl⟩
  obtain ⟨rfl, rfl⟩ := hchooses.unique hnil
  rcases hends with ⟨u, -, h, he⟩ | ⟨u, k, p, dict, hfull, -⟩
  · have hlength : (progressAtEnd [] (startMode s).dict).bits.length = 16 := by rw [length_progressAtEnd, hcode]; rfl
    have hbytes : ∀ a x, a < 2 → (∀ k, k < 8 → (streamBits [] []).getD (8 * a + k) false = x.getLsbD (7 - k)) →
        u.outByte a = x := fun a x ha hx => outByte_eq_of_outBits fun k hk =>
      (h.outBit_stream (by rw [hcode]; simp only [List.length_cons, List.length_nil]; omega)).trans (hx k hk)
    refine ⟨_, he, (h.complete_eq _ _).trans ?_, fun a => ?_, fun key => ?_⟩
    · rw [hlength, hn, h.outLen_stream, hcode, h.symcount, progressAtEnd_model, Nat.zero_min]
      rw [hmode]
      rfl
    · match a with
      | 0 => exact hbytes 0 0xBA (by decide) (by rw [hcode]; decide)
      | 1 => exact hbytes 1 0x80 (by decide) (by rw [hcode]; decide)
      | a + 2 =>
        rw [if_neg (by simp)]
        exact h.outByte (by rw [hlength]; omega)
    · refine (h.chains.headAt_eq key).trans ?_
      rw [hn]
      rfl
  · rw [hcode] at hfull
    simp only [List.length_cons, List.length_nil] at hfull
    omega

end Sys2Proof.Machine
end

section
/-! PROOFS. What DECOMPRESS does in one step (44_decompress R291 to R296): `Decoding` says how far it has come; it decodes a
symbol whose code lies ahead, reads a field, and writes and copies bytes. -/

namespace Sys2Proof.Machine

/-! ### A point of a decoding -/

/-- The state `u` of a DECOMPRESS that started in `s`, has decoded `count` symbols in `pos` bits, and has written the bytes
`out`. -/
structure Decoding (s : State) (m : Arena) (count pos : Nat) (out : List Byte) (u : State) : Prop where
  frame : BodyFrame s u
  nodes : u.nodes = m
  symcount : u.symcount = BitVec.ofNat 32 count
  inBitpos : u.inBitpos = BitVec.ofNat 32 pos
  outBitpos : u.outBitpos.toNat = 8 * out.length
  holds : HoldsBytes s u out
  mode : u.mode = { bin := false, dict := false }
  bytesRead : u.bytesRead = 0
  head : u.head = []

section Decode

variable {s u : State} {m : Arena} {count pos : Nat} {out : List Byte}

theorem Decoding.setSeq (h : Decoding s m count pos out u) (q : Seq) : Decoding s m count pos out { u with seq := q } :=
  ⟨h.frame, h.nodes, h.symcount, h.inBitpos, h.outBitpos, h.holds, h.mode, h.bytesRead, h.head⟩

theorem Decoding.sameInput (h : Decoding s m count pos out u) : SameInput s u := h.frame.sameInput

theorem Decoding.cfg (h : Decoding s m count pos out u) : u.cfg = s.cfg := by
  obtain ⟨hcfg, -⟩ := h.frame
  exact hcfg

theorem Decoding.inBit (h : Decoding s m count pos out u) (b : Nat) : u.inBit b = s.inBit b := by
  obtain ⟨-, -, -, -, -, -, -, -, -, hmem, -⟩ := h.frame
  rw [State.inBit, State.inByte, hmem]
  rfl

/-- Decoding starts with InitState (R291). -/
theorem decoding_initState (s : State) : Decoding s [] 0 0 [] { s.initState with seq := .decodeCode } where
  frame := ⟨rfl, rfl, rfl, rfl, rfl, rfl, rfl, rfl, rfl, rfl, rfl, rfl, rfl⟩
  nodes := rfl
  symcount := rfl
  inBitpos := rfl
  outBitpos := rfl
  holds _ := rfl
  mode := rfl
  bytesRead := rfl
  head := rfl

/-! ### The stream ahead (R143, R144) -/

/-- The stream's bits from the cursor on are ahead of the reader. -/
theorem Decoding.prefix_ahead (h : Decoding s m count pos out u) (hlen : s.inLen.toNat ≤ 2 ^ 28) {pre vs post : List Bool}
    (hpos : pos = pre.length) (hfit : (pre ++ (vs ++ post)).length ≤ 8 * s.inLen.toNat)
    (hbits : InBeginsWith s (pre ++ (vs ++ post))) : u.inBitpos.toNat = pos ∧ vs <+: u.bitsAhead := by
  simp only [List.length_append] at hfit
  have hcursor : u.inBitpos.toNat = pos := by
    rw [h.inBitpos, BitVec.toNat_ofNat, Nat.mod_eq_of_lt (by omega)]
  refine ⟨hcursor, prefix_bitsAhead (by rw [hcursor, h.sameInput.1]; omega) fun k hk => ?_⟩
  rw [h.inBit, hcursor, hpos, hbits _ (by simp only [List.length_append]; omega),
    List.getD_append_right _ _ _ _ (Nat.le_add_right _ _), Nat.add_sub_cancel_left, List.getD_append _ _ _ _ hk,
    List.getD_eq_getElem _ _ hk]

/-- With the code of a symbol ahead, `DecodeSym` reads it and updates the model (R292). -/
theorem decodeSym_of_code (hlen : u.inLen.toNat ≤ 2 ^ 28) (hm : TreeShape u.nodes) {code : Nat} (hc : code ≤ Config.maxChar)
    (hahead : u.nodes.codeOf code <+: u.bitsAhead) :
    decodeSym u = .ok (code, (u.nodes.codeOf code).length) { u with
      inBitpos := BitVec.ofNat 32 (u.inBitpos.toNat + (u.nodes.codeOf code).length)
      nodes := u.nodes.update code
      symcount := u.symcount + 1 } := by
  have hwalk := walkDown_of_path hm hlen 0 (hm.path_codeOf hc) (isLeaf_leafOf hc) hahead
  generalize (u.nodes.codeOf code).length = len at hwalk ⊢
  rw [decodeSym, hwalk, CmdRes.bind_ok, symbolOf_leafOf hc, Nat.zero_add]
  rcases updateModel_cases code { u with inBitpos := BitVec.ofNat 32 (u.inBitpos.toNat + len) } with
    ⟨-, hupdate⟩ | ⟨hbad, -⟩
  · rw [hupdate]
    rfl
  · exact absurd hbad (not_lt.2 hc)

/-- The number of a field's bits (R144). -/
theorem natOfBitsLsb_fieldBits {v w : Nat} (hv : v < 2 ^ w) (hw : w ≤ 32) :
    natOfBitsLsb (fieldBits (BitVec.ofNat 32 v) w) = v := by
  refine Nat.eq_of_testBit_eq fun k => ?_
  rw [testBit_natOfBitsLsb, fieldBits, List.getD_eq_getElem?_getD, List.getElem?_map]
  by_cases hk : k < w
  · have hlt : k < 32 := by omega
    rw [List.getElem?_range hk, Option.map_some, Option.getD_some, BitVec.getLsbD_ofNat, decide_eq_true hlt, Bool.true_and]
  · have hpow := Nat.pow_le_pow_right (n := 2) (by decide) (not_lt.1 hk)
    rw [List.getElem?_eq_none (by simpa using hk), Nat.testBit_lt_two_pow (hv.trans_le hpow)]
    rfl

theorem take_inBits (s : State) (b : Nat) {w n : Nat} (h : w ≤ n) : (s.inBits b n).take w = s.inBits b w := by
  rw [State.inBits, State.inBits, ← List.map_take, List.take_range, min_eq_left h]

/-- With a field's bits ahead, `GetField` reads its number. -/
theorem getField_of_prefix (hlen : u.inLen.toNat ≤ 2 ^ 28) {v w : Nat} (hv : v < 2 ^ w) (hw : w ≤ 32)
    (hahead : fieldBits (BitVec.ofNat 32 v) w <+: u.bitsAhead) :
    getField w u = .ok v { u with inBitpos := BitVec.ofNat 32 (u.inBitpos.toNat + w) } := by
  have hleft := hahead.length_le
  rw [length_fieldBits, u.length_bitsAhead] at hleft
  have hfit : w = 0 ∨ u.inBitpos.toNat + w ≤ 8 * u.inLen.toNat := by
    unfold bitsLeft at hleft
    omega
  have hbits : u.inBits u.inBitpos.toNat w = fieldBits (BitVec.ofNat 32 v) w := by
    rw [List.prefix_iff_eq_take.1 hahead, length_fieldBits, State.bitsAhead, take_inBits _ _ hleft]
  rw [getField, getBits_inBits w hlen hfit, CmdRes.bind_ok, hbits, natOfBitsLsb_fieldBits hv hw]

/-! ### Bytes written (R141, R293, R296) -/

theorem getD_byteBits (x : Byte) {k : Nat} (hk : k < 8) : (byteBits x).getD k false = x.getLsbD (7 - k) := by
  interval_cases k <;> rfl

/-- At a byte boundary `PutByte` writes its byte and no other (R141). -/
theorem putByte_aligned {o : Nat} (hwf : u.cfg.wf) (ho : u.outBitpos.toNat = 8 * o) (hroom : o < u.cfg.outMemBytes)
    (x : Byte) : ∃ mem b, putByte x u = .ok () { u with outMem := mem, outBitpos := b } ∧ b.toNat = 8 * (o + 1)
      ∧ ∀ a, memGet mem a = if a = o then x else u.outByte a := by
  have hlen : (byteBits x).length = 8 := rfl
  obtain ⟨mem, b, hput, hwrites⟩ := putBits_writesBits (byteBits x) hwf (.inr (by rw [ho, hlen]; omega))
  obtain ⟨hpos, hbits, hbefore, hafter⟩ := hwrites
  rw [ho, hlen] at hpos hbits hafter
  rw [ho] at hbefore
  refine ⟨mem, b, hput, hpos, fun a => ?_⟩
  rcases Nat.lt_trichotomy a o with hlt | rfl | hgt
  · rw [if_neg hlt.ne]
    exact outByte_eq_of_outBits (u := { u with outMem := mem, outBitpos := b }) fun k hk =>
      (hbefore _ (by omega)).trans (outBit_byte u a hk)
  · rw [if_pos rfl]
    refine outByte_eq_of_outBits (u := { u with outMem := mem, outBitpos := b }) fun k hk => ?_
    have hclean : u.staleBit (8 * a + k) = false := by
      rw [State.staleBit, ho, Nat.mul_mod_right]
      simp
    rw [hbits _ (by omega) (by omega), hclean, Bool.or_false, Nat.add_sub_cancel_left, getD_byteBits x hk]
  · rw [if_neg hgt.ne']
    exact hafter a (by omega)

/-- A byte more in the output. -/
theorem Decoding.putByte (h : Decoding s m count pos out u) (hwf : s.cfg.wf) (hroom : out.length < s.cfg.outMemBytes)
    (x : Byte) : ∃ mem b, Machine.putByte x u = .ok () { u with outMem := mem, outBitpos := b }
      ∧ Decoding s m count pos (out ++ [x]) { u with outMem := mem, outBitpos := b } := by
  obtain ⟨mem, b, hput, hpos, hbytes⟩ := putByte_aligned (by rwa [h.cfg]) h.outBitpos (by rwa [h.cfg]) x
  refine ⟨mem, b, hput, h.frame, h.nodes, h.symcount, h.inBitpos, by rw [List.length_append]; exact hpos, fun a => ?_,
    h.mode, h.bytesRead, h.head⟩
  refine (hbytes a).trans ?_
  rw [h.holds a, List.length_append, List.length_singleton]
  rcases Nat.lt_trichotomy a out.length with hlt | rfl | hgt
  · rw [if_neg hlt.ne, if_pos hlt, if_pos (by omega), List.getD_append _ _ _ _ hlt]
  · rw [if_pos rfl, if_pos (by omega), List.getD_append_right _ _ _ _ le_rfl, Nat.sub_self]
    rfl
  · rw [if_neg hgt.ne', if_neg (by omega), if_neg (by omega)]

/-- The bytes that a copy of `k` bytes from `dist` back appends, where they all lie before it (R296). -/
theorem drop_take_succ {dist k : Nat} (hk : k + 1 ≤ dist) (hdist : dist ≤ out.length) :
    (out.drop (out.length - dist)).take (k + 1) = out.getD (out.length - dist) 0 ::
      (((out ++ [out.getD (out.length - dist) 0]).drop (out.length + 1 - dist)).take k) := by
  have hlt : out.length - dist < out.length := by omega
  rw [List.drop_eq_getElem_cons hlt, List.take_succ_cons, List.getD_eq_getElem _ _ hlt,
    List.drop_append_of_le_length (by omega), List.take_append_of_le_length (by rw [List.length_drop]; omega),
    Nat.sub_add_comm hdist]

/-- The byte-by-byte copy appends the source bytes (R296). -/
theorem Decoding.copyBytes {r : Backref} {k : Nat} (h : Decoding s m count pos out u) (hwf : s.cfg.wf)
    (hk : k ≤ r.distance.toNat) (hdist : r.distance.toNat ≤ out.length) (hroom : out.length + k ≤ s.cfg.outMemBytes) :
    ∃ u', Machine.copyBytes k r u = .ok () u'
      ∧ Decoding s m count pos (out ++ (out.drop (out.length - r.distance.toNat)).take k) u' := by
  induction k generalizing out r u with
  | zero => exact ⟨u, rfl, by rwa [List.take_zero, List.append_nil]⟩
  | succ k ih =>
    have hbyte : u.outByte (u.outBitpos.toNat / 8 - r.distance.toNat)
        = out.getD (out.length - r.distance.toNat) 0 := by
      rw [h.outBitpos, Nat.mul_div_cancel_left _ (by decide), h.holds, if_pos (by omega)]
    rw [drop_take_succ hk hdist, Machine.copyBytes]
    dsimp only
    rw [hbyte]
    generalize out.getD (out.length - r.distance.toNat) 0 = x
    obtain ⟨mem, b, hput, h1⟩ := h.putByte hwf (by omega) x
    have hlen : (out ++ [x]).length = out.length + 1 := List.length_append
    obtain ⟨u', hcopy, h2⟩ := ih (r := { r with left := BitVec.ofNat 32 k })
      (h1.setSeq (.copyBackref { r with left := BitVec.ofNat 32 k })) (by dsimp only; omega)
      (by rw [hlen]; dsimp only; omega)
      (by rw [hlen]; omega)
    refine ⟨u', by rw [hput, CmdRes.bind_ok, hcopy], ?_⟩
    rw [hlen, List.append_assoc] at h2
    exact h2

end Decode

end Sys2Proof.Machine
end

section
/-! PROOFS. DECOMPRESS on the stream of legal items to its end (44_decompress R290 to R300), and the round trip
(43_compress R266). -/

namespace Sys2Proof.Machine

section Transitions

variable {s u : State} {m m' : Arena} {count pos pos' : Nat} {out : List Byte}

/-! ### Transitions (R290) -/

theorem decompressLoop_of_step {u' : State} (hseq : u.seq ≠ .decompressDone) (hstep : decompressStep u = .ok () u')
    (fuel : Nat) : decompressLoop (fuel + 1) u = decompressLoop fuel u' := by
  rw [decompressLoop, if_neg hseq, hstep, CmdRes.bind_ok]

theorem decompressLoop_of_done (hseq : u.seq = .decompressDone) (fuel : Nat) : decompressLoop fuel u = .ok () u := by
  cases fuel with
  | zero => rfl
  | succ n => rw [decompressLoop, if_pos hseq]

theorem Decoding.setInBitpos (h : Decoding s m count pos out u) {b : Word} (hb : b = BitVec.ofNat 32 pos') :
    Decoding s m count pos' out { u with inBitpos := b } :=
  ⟨h.frame, h.nodes, h.symcount, hb, h.outBitpos, h.holds, h.mode, h.bytesRead, h.head⟩

theorem Decoding.setModel (h : Decoding s m count pos out u) {nodes : Arena} {w : Word} (hm : nodes = m')
    (hw : w = BitVec.ofNat 32 (count + 1)) : Decoding s m' (count + 1) pos out { u with nodes := nodes, symcount := w } :=
  ⟨h.frame, hm, hw, h.inBitpos, h.outBitpos, h.holds, h.mode, h.bytesRead, h.head⟩

/-- DECODE_CODE reads the code ahead and goes to what its symbol means (R292). -/
theorem Decoding.step_decodeCode (h : Decoding s m count pos out u) (hlen : s.inLen.toNat ≤ 2 ^ 28) (hm : TreeShape m)
    {code : Nat} (hc : code ≤ Config.maxChar) (hseq : u.seq = .decodeCode) (hpos : u.inBitpos.toNat = pos)
    (hahead : m.codeOf code <+: u.bitsAhead) :
    ∃ u', decompressStep u = .ok () u' ∧ u'.seq = afterDecode code
      ∧ Decoding s (m.update code) (count + 1) (pos + (m.codeOf code).length) out u' := by
  have hnodes := h.nodes
  have hread := decodeSym_of_code (u := u) (by rwa [h.sameInput.1]) (by rwa [hnodes]) hc (by rwa [hnodes])
  rw [hnodes, hpos] at hread
  generalize (m.codeOf code).length = len at hread ⊢
  generalize m.update code = m' at hread ⊢
  refine ⟨_, by rw [decompressStep, hseq]; dsimp only; rw [hread, CmdRes.bind_ok], rfl, ?_⟩
  exact ((h.setModel rfl (by rw [h.symcount]; exact ofNat_succ_word count)).setInBitpos rfl).setSeq _

/-- EMIT_LITERAL writes its byte (R293). -/
theorem Decoding.step_emitLiteral (h : Decoding s m count pos out u) (hwf : s.cfg.wf) (b : Byte)
    (hseq : u.seq = .emitLiteral (BitVec.ofNat 32 b.toNat)) (hroom : out.length < s.cfg.outMemBytes) :
    ∃ u', decompressStep u = .ok () u' ∧ u'.seq = .decodeCode ∧ Decoding s m count pos (out ++ [b]) u' := by
  have hbyte : (BitVec.ofNat 32 b.toNat).setWidth 8 = b := by
    have := b.isLt
    bv_omega
  obtain ⟨mem, o, hput, h1⟩ := h.putByte hwf hroom b
  exact ⟨_, by rw [decompressStep, hseq]; dsimp only; rw [hbyte, hput, CmdRes.bind_ok], rfl, h1.setSeq .decodeCode⟩

theorem copyBits_le {range : Nat} (h : range ≤ 5) : copyBits range ≤ 14 := by
  interval_cases range <;> decide

theorem legal_copy_iff {range len field : Nat} : (Item.copy range len field).legal out = true ↔
    range ≤ 5 ∧ 3 ≤ len ∧ len ≤ 64 ∧ field < 2 ^ copyBits range ∧ field + len + copyMin range ≤ out.length := by
  simp only [Item.legal, Bool.and_eq_true, decide_eq_true_eq, and_assoc]
  exact and_congr_left' Nat.lt_succ_iff

/-- COPY_BACKREF reads the field, passes both checks, and copies (R294 to R296). -/
theorem Decoding.step_copyBackref (h : Decoding s m count pos out u) (hwf : s.cfg.wf) (hlen : s.inLen.toNat ≤ 2 ^ 28)
    {range len field : Nat} {r : Backref} (hseq : u.seq = .copyBackref r) (hr : r.range.toNat = range)
    (hl : r.length.toNat = len) (hlegal : (Item.copy range len field).legal out = true)
    (hpos : u.inBitpos.toNat = pos) (hahead : (Item.copy range len field).fieldPart <+: u.bitsAhead)
    (hroom : out.length + len ≤ s.cfg.outMemBytes) :
    ∃ u', decompressStep u = .ok () u' ∧ u'.seq = .decodeCode
      ∧ Decoding s m count (pos + (Item.copy range len field).fieldPart.length)
          ((Item.copy range len field).extend out) u' := by
  obtain ⟨hrange, -, -, hfield, hsource⟩ := legal_copy_iff.1 hlegal
  have hbits := copyBits_le hrange
  have hget := getField_of_prefix (u := u) (by rwa [h.sameInput.1]) hfield (by omega) hahead
  rw [hpos] at hget
  have ho : u.outBitpos.toNat / 8 = out.length := by rw [h.outBitpos, Nat.mul_div_cancel_left _ (by decide)]
  have hlt := u.outBitpos.isLt
  have hdist : (BitVec.ofNat 32 (field + len + copyMin range)).toNat = field + len + copyMin range := by
    rw [BitVec.toNat_ofNat, Nat.mod_eq_of_lt (by omega)]
  obtain ⟨u', hcopy, h'⟩ := Decoding.copyBytes (k := len)
    (r := { r with field := BitVec.ofNat 32 field, distance := BitVec.ofNat 32 (field + len + copyMin range) })
    (((h.setInBitpos (pos' := pos + copyBits range) rfl)).setSeq (.copyBackref { r with
      field := BitVec.ofNat 32 field, distance := BitVec.ofNat 32 (field + len + copyMin range) })) hwf
    (by dsimp only; omega) (by dsimp only; omega) hroom
  refine ⟨{ u' with seq := .decodeCode }, ?_, rfl, ?_⟩
  · rw [decompressStep, hseq]
    dsimp only
    rw [copyBackrefStep, hr, hl, hget, CmdRes.bind_ok]
    dsimp only
    rw [ho, require_bind_of_pass hsource, require_bind_of_pass (by rwa [h.cfg]), hcopy, CmdRes.bind_ok]
  · rw [Item.fieldPart, length_fieldBits, Item.extend, ← hdist]
    exact h'.setSeq .decodeCode

/-! ### Items -/

theorem Item.symbol_le_of_legal {it : Item} (h : it.legal out = true) : it.symbol ≤ Config.maxChar := by
  rw [maxChar_eq]
  cases it with
  | literal b =>
    have := b.isLt
    rw [Item.symbol]
    omega
  | copy range len field =>
    obtain ⟨hrange, hmin, hmax, -⟩ := legal_copy_iff.1 h
    exact (copyCode_mem_range hrange hmin hmax).2

theorem Item.length_extend_of_legal {it : Item} (h : it.legal out = true) :
    (it.extend out).length = out.length + it.width := by
  cases it with
  | literal b => exact List.length_append
  | copy range len field =>
    obtain ⟨-, -, -, -, hsource⟩ := legal_copy_iff.1 h
    rw [Item.extend, List.length_append, List.length_take, List.length_drop, Item.width]
    omega

theorem afterDecode_literal (b : Byte) : afterDecode b.toNat = .emitLiteral (BitVec.ofNat 32 b.toNat) := by
  have hb := b.isLt
  have hcode : Config.terminateCode = 256 := rfl
  rw [afterDecode, if_neg (by omega), if_pos (by omega)]

theorem afterDecode_copyCode {range len : Nat} (hrange : range ≤ 5) (hmin : 3 ≤ len) (hmax : len ≤ 64) :
    ∃ r, afterDecode (copyCode range len) = .copyBackref r ∧ r.range.toNat = range ∧ r.length.toNat = len := by
  have hlow := (copyCode_mem_range hrange hmin hmax).1
  have hcode : Config.terminateCode = 256 := rfl
  rw [afterDecode, if_neg (by omega), if_neg (by omega), copyCodeRange_copyCode range hmin hmax,
    copyCodeLength_copyCode hmin hmax]
  exact ⟨_, rfl, by dsimp only; rw [BitVec.toNat_ofNat, Nat.mod_eq_of_lt (by omega)],
    by dsimp only; rw [BitVec.toNat_ofNat, Nat.mod_eq_of_lt (by omega)]⟩

/-- From the state that DECODE_CODE goes to on an item's symbol, one transition writes the item's bytes. -/
theorem Decoding.step_afterDecode (h : Decoding s m count pos out u) (hwf : s.cfg.wf) (hlen : s.inLen.toNat ≤ 2 ^ 28)
    {it : Item} (hseq : u.seq = afterDecode it.symbol) (hlegal : it.legal out = true)
    (hroom : (it.extend out).length ≤ s.cfg.outMemBytes) (hpos : u.inBitpos.toNat = pos)
    (hahead : it.fieldPart <+: u.bitsAhead) :
    u.seq ≠ .decompressDone ∧ ∃ u', decompressStep u = .ok () u' ∧ u'.seq = .decodeCode
      ∧ Decoding s m count (pos + it.fieldPart.length) (it.extend out) u' := by
  rw [Item.length_extend_of_legal hlegal] at hroom
  cases it with
  | literal b =>
    rw [Item.symbol, afterDecode_literal] at hseq
    exact ⟨by rw [hseq]; exact Seq.noConfusion, h.step_emitLiteral hwf b hseq hroom⟩
  | copy range len field =>
    obtain ⟨hrange, hmin, hmax, -⟩ := legal_copy_iff.1 hlegal
    obtain ⟨r, hafter, hr, hl⟩ := afterDecode_copyCode hrange hmin hmax
    rw [Item.symbol, hafter] at hseq
    exact ⟨by rw [hseq]; exact Seq.noConfusion, h.step_copyBackref hwf hlen hseq hr hl hlegal hpos hahead hroom⟩

/-- Two transitions decode one item (R118, R290). -/
theorem Decoding.decompressLoop_item (hwf : s.cfg.wf) (hlen : s.inLen.toNat ≤ 2 ^ 28) {pre post : List Bool} {it : Item}
    (h : Decoding s m count pre.length out u) (hm : TreeShape m) (hseq : u.seq = .decodeCode)
    (hlegal : it.legal out = true) (hroom : (it.extend out).length ≤ s.cfg.outMemBytes)
    (hfit : (pre ++ (m.codeOf it.symbol ++ it.fieldPart ++ post)).length ≤ 8 * s.inLen.toNat)
    (hbits : InBeginsWith s (pre ++ (m.codeOf it.symbol ++ it.fieldPart ++ post))) (fuel : Nat) :
    ∃ u', decompressLoop (fuel + 2) u = decompressLoop fuel u' ∧ u'.seq = .decodeCode
      ∧ Decoding s (m.update it.symbol) (count + 1) (pre ++ (m.codeOf it.symbol ++ it.fieldPart)).length
          (it.extend out) u' := by
  have hsymbol := Item.symbol_le_of_legal hlegal
  rw [List.append_assoc] at hfit hbits
  obtain ⟨hpos, hcode⟩ := h.prefix_ahead hlen rfl hfit hbits
  obtain ⟨u1, hstep1, hseq1, h1⟩ := h.step_decodeCode hlen hm hsymbol hseq hpos hcode
  rw [← List.append_assoc pre] at hfit hbits
  obtain ⟨hpos1, hfield⟩ := h1.prefix_ahead hlen (List.length_append).symm hfit hbits
  obtain ⟨hbusy, u2, hstep2, hseq2, h2⟩ := h1.step_afterDecode hwf hlen hseq1 hlegal hroom hpos1 hfield
  rw [Nat.add_assoc, ← List.length_append, ← List.length_append] at h2
  refine ⟨u2, ?_, hseq2, h2⟩
  rw [decompressLoop_of_step (by rw [hseq]; exact Seq.noConfusion) hstep1, decompressLoop_of_step hbusy hstep2]

/-! ### Streams -/

theorem length_le_length_expandItems {items : List Item} (h : legalItems out items = true) :
    out.length ≤ (expandItems out items).length := by
  induction items generalizing out with
  | nil => exact le_rfl
  | cons it items ih =>
    obtain ⟨hlegal, hrest⟩ := Bool.and_eq_true_iff.1 h
    have hlength := Item.length_extend_of_legal hlegal
    exact le_trans (by omega) (ih hrest)

/-- Every item has at least a bit of code. -/
theorem length_le_length_itemBits {items : List Item} (hm : TreeShape m) (h : legalItems out items = true) :
    items.length ≤ (itemBits m items).length := by
  induction items generalizing out m with
  | nil => exact le_rfl
  | cons it items ih =>
    obtain ⟨hlegal, hrest⟩ := Bool.and_eq_true_iff.1 h
    have hsymbol := Item.symbol_le_of_legal hlegal
    have hcode := (hm.length_codeOf hsymbol).1
    have htail := ih (hm.update hsymbol) hrest
    rw [itemBits, List.length_append, List.length_append, List.length_cons]
    omega

/-- The transitions on a stream of legal items, to its terminator. -/
theorem Decoding.decompressLoop_stream (hwf : s.cfg.wf) (hlen : s.inLen.toNat ≤ 2 ^ 28) {pre : List Bool}
    {items : List Item} (h : Decoding s m count pre.length out u) (hm : TreeShape m) (hseq : u.seq = .decodeCode)
    (hlegal : legalItems out items = true) (hroom : (expandItems out items).length ≤ s.cfg.outMemBytes)
    (hfit : (pre ++ streamBits m items).length ≤ 8 * s.inLen.toNat) (hbits : InBeginsWith s (pre ++ streamBits m items))
    {fuel : Nat} (hfuel : 2 * items.length + 1 ≤ fuel) :
    ∃ u', decompressLoop fuel u = .ok () u'
      ∧ Decoding s ((itemsModel m items).update 256) (count + items.length + 1) (pre ++ streamBits m items).length
          (expandItems out items) u' := by
  induction items generalizing m count pre out u fuel with
  | nil =>
    obtain ⟨n, rfl⟩ := Nat.exists_eq_add_of_le' hfuel
    rw [streamBits, ← List.append_nil (m.codeOf _)] at hfit hbits
    obtain ⟨hpos, hcode⟩ := h.prefix_ahead hlen rfl hfit hbits
    obtain ⟨u', hstep, hseq', h'⟩ := h.step_decodeCode hlen hm (code := Config.terminateCode) (by decide) hseq hpos hcode
    refine ⟨u', ?_, by rwa [streamBits, List.length_append]⟩
    rw [List.length_nil, Nat.mul_zero, Nat.zero_add, decompressLoop_of_step (by rw [hseq]; exact Seq.noConfusion) hstep,
      decompressLoop_of_done (by rw [hseq', afterDecode, if_pos rfl])]
  | cons it items ih =>
    obtain ⟨hitem, hrest⟩ := Bool.and_eq_true_iff.1 hlegal
    rw [List.length_cons] at hfuel
    obtain ⟨n, rfl⟩ := Nat.exists_eq_add_of_le' (show 2 ≤ fuel by omega)
    rw [streamBits] at hfit hbits ⊢
    obtain ⟨u1, hloop, hseq1, h1⟩ := h.decompressLoop_item hwf hlen hm hseq hitem
      ((length_le_length_expandItems hrest).trans hroom) hfit hbits n
    rw [← List.append_assoc pre] at hfit hbits ⊢
    obtain ⟨u', hend, h'⟩ := ih h1 (hm.update (Item.symbol_le_of_legal hitem)) hseq1 hrest hroom hfit hbits
      (fuel := n) (by omega)
    refine ⟨u', hloop.trans hend, ?_⟩
    rwa [List.length_cons, ← Nat.add_assoc, Nat.add_right_comm count, itemsModel_cons, expandItems]

end Transitions

/-- DECOMPRESS of a stream of legal items whose bytes fit in `OUT` completes (R266, R291). -/
theorem exec_decompress_of_stream {s : State} (hwf : s.cfg.wf) (hin : s.inLen.toNat ≤ s.cfg.inMemBytes)
    {items : List Item} (hlegal : legalItems [] items = true)
    (hroom : (expandItems [] items).length ≤ s.cfg.outMemBytes)
    (hfit : (streamBits [] items).length ≤ 8 * s.inLen.toNat) (hbits : InBeginsWith s (streamBits [] items)) :
    ∃ u, exec .decompress s = .next (u.complete { res0 := some u.outLen, res1 := some u.inBitpos })
      ∧ Decoding s ((itemsModel [] items).update 256) (items.length + 1) (streamBits [] items).length
          (expandItems [] items) u := by
  obtain ⟨-, hmem, -⟩ := id hwf
  have hcount := length_le_length_itemBits initialTree_shape hlegal
  have hfuel : 2 * items.length + 1 ≤ decompressBound { s.initState with seq := .decodeCode } := by
    have hbound : decompressBound { s.initState with seq := .decodeCode } = 2 * (8 * s.inLen.toNat) + 4 := rfl
    rw [streamBits_eq, List.length_append] at hfit
    omega
  obtain ⟨u, hloop, h⟩ := Decoding.decompressLoop_stream (pre := []) hwf (hin.trans hmem) (decoding_initState s)
    initialTree_shape rfl hlegal hroom hfit hbits hfuel
  refine ⟨u, (congrArg finish (require_bind_of_pass hin)).trans ?_, by rwa [Nat.zero_add, List.nil_append] at h⟩
  rw [runDecompress, hloop, CmdRes.bind_ok]
  rfl

/-- Settles O37: the bytes that COMPRESS leaves begin with the stream of its items, which are legal and stand for its
input. -/
theorem compressDecompressRoundTrip : Obligations.CompressDecompressRoundTrip := by
  unfold Obligations.CompressDecompressRoundTrip
  intro s t d hwf _ hexec hok hwfd hlen hin hbytes hroom
  obtain ⟨items, last, u, hchooses, hfit, h, rfl⟩ := compress_of_no_error hwf hexec hok
  obtain ⟨-, -, -, hout⟩ := id hwf
  obtain ⟨hlegal, hexpand⟩ := hchooses.legal_expand
  have hlength : u.outLen.toNat = ((streamBits [] items).length + 7) / 8 := by
    rw [h.outLen_stream, BitVec.toNat_ofNat, Nat.mod_eq_of_lt (by omega)]
  have hdlen : d.inLen.toNat = ((streamBits [] items).length + 7) / 8 := (congrArg BitVec.toNat hlen).trans hlength
  have hbits : InBeginsWith d (streamBits [] items) := fun b hb => by
    have hbyte : d.inByte (b / 8) = u.outByte (b / 8) := hbytes _ (hlength.symm ▸ by omega)
    rw [State.inBit, hbyte]
    exact h.outBit_stream (by omega)
  have hempty : s.inBytes 0 = [] := rfl
  rw [hempty] at hlegal hexpand
  obtain ⟨v, hexecd, hv⟩ := exec_decompress_of_stream hwfd hin hlegal (by rwa [hexpand, length_inBytes])
    (by omega) hbits
  rw [hexpand] at hv
  have hv0 := hv.outBitpos
  rw [length_inBytes] at hv0
  obtain ⟨-, -, hstatus, -⟩ := hv.frame
  refine ⟨_, hexecd, ?_, ?_, hv.holds, ?_⟩
  · rw [State.complete_status, hstatus]
  · have hres : v.outLen = s.inLen := BitVec.eq_of_toNat_eq (by rw [State.outLen_toNat, hv0]; omega)
    exact hres
  · exact hv.nodes.trans (h.nodes.trans (progressAtEnd_model items last)).symm

end Sys2Proof.Machine
end

section
/-! PROOFS. How DECOMPRESS gets to the item where it ends, and the two ways it ends, in the words of the claims
(44_decompress R291 to R298, 60_exceptions R340, R343). -/

namespace Sys2Proof.Machine

/-! ### Parts of a stream -/

section Streams

variable {s : State} {m : Arena} {out : List Byte} {items : List Item}

theorem InBeginsWith.of_prefix {bits bits' : List Bool} (h : InBeginsWith s bits) (hprefix : bits' <+: bits) :
    InBeginsWith s bits' := by
  obtain ⟨rest, rfl⟩ := hprefix
  intro b hb
  rw [h b (by rw [List.length_append]; omega), List.getD_append _ _ _ _ hb]

/-- `IN` follows a stream up to a bit of it exactly when it begins with that much of the stream. -/
theorem inBeginsWith_take {bits : List Bool} {stop : Nat} (hstop : stop ≤ bits.length) :
    InBeginsWith s (bits.take stop) ↔ ∀ b, b < stop → s.inBit b = bits.getD b false := by
  have hlength : (bits.take stop).length = stop := List.length_take_of_le hstop
  rw [InBeginsWith, hlength]
  refine forall₂_congr fun b hb => ?_
  rw [List.getD_eq_getElem?_getD, List.getD_eq_getElem?_getD, List.getElem?_take_of_lt hb]

theorem Item.codable_of_legal {it : Item} (h : it.legal out = true) : it.Codable := by
  cases it with
  | literal b => trivial
  | copy range len field =>
    obtain ⟨hrange, hmin, hmax, hfield, -⟩ := legal_copy_iff.1 h
    exact ⟨hrange, hmin, hmax, hfield⟩

theorem Item.Codable.symbol_le {it : Item} (h : it.Codable) : it.symbol ≤ Config.maxChar := by
  cases it with
  | literal b => exact Item.symbol_le_of_legal (out := []) rfl
  | copy range len field =>
    obtain ⟨hrange, hmin, hmax, -⟩ := h
    exact (copyCode_mem_range hrange hmin hmax).2

theorem legalItems_append (out : List Byte) (xs ys : List Item) :
    legalItems out (xs ++ ys) = (legalItems out xs && legalItems (expandItems out xs) ys) := by
  induction xs generalizing out with
  | nil => rfl
  | cons it xs ih => rw [List.cons_append, legalItems, ih, legalItems, expandItems, Bool.and_assoc]

theorem expandItems_concat (out : List Byte) (xs : List Item) (it : Item) :
    expandItems out (xs ++ [it]) = it.extend (expandItems out xs) := by
  induction xs generalizing out with
  | nil => rfl
  | cons x xs ih => exact ih (x.extend out)

/-- Legal items keep the shape of the tree (R176). -/
theorem TreeShape.itemsModel_of_legal (hm : TreeShape m) (hlegal : legalItems out items = true) :
    TreeShape (Machine.itemsModel m items) := by
  induction items generalizing m out with
  | nil => exact hm
  | cons it items ih =>
    obtain ⟨hitem, hrest⟩ := Bool.and_eq_true_iff.1 hlegal
    rw [itemsModel_cons]
    exact ih (hm.update (Item.symbol_le_of_legal hitem)) hrest

end Streams

section Transitions

variable {s u u' : State} {m : Arena} {count pos : Nat} {out : List Byte} {items : List Item} {pre : List Bool}
  {e : ErrCode} {info : Word}

/-! ### Transitions (R290) -/

theorem decompressStep_decodeCode (hseq : u.seq = .decodeCode) :
    decompressStep u = (decodeSym u).bind fun r s1 => .ok () { s1 with seq := afterDecode r.1 } := by
  rw [decompressStep, hseq]

theorem decompressStep_emitLiteral {code : Word} (hseq : u.seq = .emitLiteral code) :
    decompressStep u = (putByte (code.setWidth 8) u).bind fun _ s1 => .ok () { s1 with seq := .decodeCode } := by
  rw [decompressStep, hseq]

theorem decompressStep_copyBackref {r : Backref} (hseq : u.seq = .copyBackref r) :
    decompressStep u = copyBackrefStep r u := by
  rw [decompressStep, hseq]

/-- An abort ends the transitions (R343). -/
theorem decompressLoop_of_abort (hstep : decompressStep u = .abort e info u') (fuel : Nat) :
    decompressLoop (fuel + 1) u = .abort e info u' := by
  have hseq : u.seq ≠ .decompressDone := fun hdone => by
    rw [decompressStep, hdone] at hstep
    cases hstep
  rw [decompressLoop, if_neg hseq, hstep, CmdRes.bind_abort]

/-- The bits of the stream after those that have been read are ahead of the reader. -/
theorem Decoding.ahead {vs : List Bool} (h : Decoding s m count pre.length out u) (hlen : s.inLen.toNat ≤ 2 ^ 28)
    (hfit : (pre ++ vs).length ≤ 8 * s.inLen.toNat) (hbits : InBeginsWith s (pre ++ vs)) :
    u.inBitpos.toNat = pre.length ∧ vs <+: u.bitsAhead := by
  rw [← List.append_nil vs] at hfit hbits
  exact h.prefix_ahead hlen rfl hfit hbits

/-- The transitions on legal items at the start of the stream, whatever follows them. -/
theorem Decoding.decompressLoop_items (h : Decoding s m count pre.length out u) (hwf : s.cfg.wf)
    (hlen : s.inLen.toNat ≤ 2 ^ 28) (hm : TreeShape m) (hseq : u.seq = .decodeCode) (hlegal : legalItems out items = true)
    (hroom : (expandItems out items).length ≤ s.cfg.outMemBytes)
    (hfit : (pre ++ itemBits m items).length ≤ 8 * s.inLen.toNat) (hbits : InBeginsWith s (pre ++ itemBits m items))
    (fuel : Nat) :
    ∃ u', decompressLoop (fuel + 2 * items.length) u = decompressLoop fuel u' ∧ u'.seq = .decodeCode
      ∧ Decoding s (itemsModel m items) (count + items.length) (pre ++ itemBits m items).length
          (expandItems out items) u' := by
  induction items generalizing m count pre out u with
  | nil => exact ⟨u, rfl, hseq, by rwa [itemBits, List.append_nil]⟩
  | cons it items ih =>
    obtain ⟨hitem, hrest⟩ := Bool.and_eq_true_iff.1 hlegal
    rw [itemBits] at hfit hbits ⊢
    obtain ⟨u1, hloop, hseq1, h1⟩ := h.decompressLoop_item hwf hlen hm hseq hitem
      ((length_le_length_expandItems hrest).trans hroom) hfit hbits (fuel + 2 * items.length)
    rw [← List.append_assoc pre] at hfit hbits ⊢
    obtain ⟨u', hend, hseq', h'⟩ := ih h1 (hm.update (Item.symbol_le_of_legal hitem)) hseq1 hrest hroom hfit hbits
    refine ⟨u', hloop.trans hend, hseq', ?_⟩
    rwa [List.length_cons, Nat.add_comm items.length, ← Nat.add_assoc, itemsModel_cons, expandItems]

/-! ### A completed and an aborted DECOMPRESS -/

theorem Decoding.outBitpos_eq (h : Decoding s m count pos out u) : u.outBitpos = BitVec.ofNat 32 (8 * out.length) := by
  rw [← h.outBitpos, BitVec.ofNat_toNat, BitVec.setWidth_eq]

theorem Decoding.outBitpos_div (h : Decoding s m count pos out u) : u.outBitpos.toNat / 8 = out.length := by
  rw [h.outBitpos, Nat.mul_div_cancel_left _ (by decide)]

/-- Everything but the tables, `OUT` and the sequencer is fixed. -/
theorem Decoding.state_eq (h : Decoding s m count pos out u) : u = { s with
    nodes := m
    head := u.head
    next := u.next
    prev := u.prev
    outMem := u.outMem
    outBitpos := BitVec.ofNat 32 (8 * out.length)
    inBitpos := BitVec.ofNat 32 pos
    mode := { bin := false, dict := false }
    symcount := BitVec.ofNat 32 count
    bytesRead := 0
    seq := u.seq
    pathStack := u.pathStack } := by
  rw [← h.outBitpos_eq, ← h.nodes, ← h.inBitpos, ← h.mode, ← h.symcount, ← h.bytesRead]
  obtain ⟨hcfg, hctrl, hstatus, harg0, harg1, hres0, hres1, hlen, hinfo, hmem, hagenda, hread, hfree⟩ := h.frame
  rw [← hcfg, ← hctrl, ← hstatus, ← harg0, ← harg1, ← hres0, ← hres1, ← hinfo, ← hmem, ← hagenda, ← hread, ← hfree]
  cases u
  cases hlen
  rfl

theorem Decoding.headAt (h : Decoding s m count pos out u) (key : Key) : u.headAt key = none := by
  rw [State.headAt, h.head]
  rfl

/-- The state of a completed DECOMPRESS (R114, R291). -/
theorem Decoding.complete_eq (h : Decoding s m count pos out u) :
    let t := u.complete { res0 := some u.outLen, res1 := some u.inBitpos }
    t = { s with
      nodes := m
      head := t.head
      next := t.next
      prev := t.prev
      outMem := t.outMem
      outBitpos := BitVec.ofNat 32 (8 * out.length)
      inBitpos := BitVec.ofNat 32 pos
      mode := { bin := false, dict := false }
      symcount := BitVec.ofNat 32 count
      bytesRead := 0
      res0 := BitVec.ofNat 32 out.length
      res1 := BitVec.ofNat 32 pos }.afterCompletion := by
  have hbytes : u.outLen = BitVec.ofNat 32 out.length := by
    rw [State.outLen, h.outBitpos]
    exact congrArg _ (by omega)
  rw [hbytes, h.inBitpos]
  have hstate := congrArg
    (State.complete · { res0 := some (BitVec.ofNat 32 out.length), res1 := some (BitVec.ofNat 32 pos) }) h.state_eq
  exact hstate

/-- The state of an aborted DECOMPRESS (R298, R340). -/
theorem Decoding.raise_eq (h : Decoding s m count pos out u) (e : ErrCode) (info : Word) :
    let t := u.raise e info
    t = { s with
      nodes := m
      head := t.head
      next := t.next
      prev := t.prev
      outMem := t.outMem
      outBitpos := BitVec.ofNat 32 (8 * out.length)
      inBitpos := BitVec.ofNat 32 pos
      mode := { bin := false, dict := false }
      symcount := BitVec.ofNat 32 count
      bytesRead := 0 }.afterAbort e info := by
  have hstate := congrArg (State.raise · e info) h.state_eq
  exact hstate

end Transitions

/-- Settles O33: on the stream of legal items the transitions lead to the terminator with all their bytes written. -/
theorem decompressReadsGrammarStream : Obligations.DecompressReadsGrammarStream := by
  unfold Obligations.DecompressReadsGrammarStream
  refine ⟨by decide, fun s items hwf hin hlegal => ?_⟩
  dsimp only
  intro hfit hbits hroom
  obtain ⟨u, hexec, h⟩ := exec_decompress_of_stream hwf hin hlegal hroom hfit hbits
  exact ⟨_, hexec, h.complete_eq, h.holds, h.headAt⟩

end Sys2Proof.Machine
end

section
/-! PROOFS. Where DECOMPRESS stops (44_decompress R293 to R298, R301): a copy whose source lies outside the output, an item
that does not fit in `OUT`, and a stream that ends in a code or in a copy's field. -/

namespace Sys2Proof.Machine

section Stops

variable {s u : State} {m : Arena} {count pos : Nat} {out : List Byte} {pre : List Bool}

/-! ### One transition that aborts -/

/-- With its field ahead, a copy whose source lies outside the output aborts, and so does one whose bytes pass the end of
`OUT`: the field is consumed and no byte is written (R295, R296). -/
theorem Decoding.step_copyBackref_abort (h : Decoding s m count pos out u) (hlen : s.inLen.toNat ≤ 2 ^ 28)
    {range len field : Nat} (hcodable : (Item.copy range len field).Codable)
    (hseq : u.seq = afterDecode (copyCode range len)) (hpos : u.inBitpos.toNat = pos)
    (hahead : (Item.copy range len field).fieldPart <+: u.bitsAhead) :
    let d := (Item.copy range len field).backOffset
    let u' := { u with inBitpos := BitVec.ofNat 32 (pos + (Item.copy range len field).fieldPart.length) }
    (out.length < d → decompressStep u = .abort .streamCorruptionBadDistance (BitVec.ofNat 32 d) u')
      ∧ (d ≤ out.length → s.cfg.outMemBytes < out.length + len →
        decompressStep u = .abort .outputOverflow (BitVec.ofNat 32 (8 * out.length)) u') := by
  obtain ⟨hrange, hmin, hmax, hfield⟩ := hcodable
  obtain ⟨r, hafter, hr, hl⟩ := afterDecode_copyCode hrange hmin hmax
  have hbits := copyBits_le hrange
  have hget := getField_of_prefix (u := u) (by rwa [h.sameInput.1]) hfield (by omega) hahead
  rw [hpos] at hget
  rw [decompressStep_copyBackref (hseq.trans hafter), copyBackrefStep, hr, hl, hget, CmdRes.bind_ok, Item.backOffset,
    Item.fieldPart, length_fieldBits]
  dsimp only
  rw [h.outBitpos_div]
  refine ⟨fun hfar => ?_, fun hnear hfull => ?_⟩
  · rw [decide_eq_false (not_le.2 hfar), require_false, CmdRes.bind_abort]
  · rw [require_bind_of_pass hnear, decide_eq_false (not_le.2 (by rwa [h.cfg])), require_false, CmdRes.bind_abort,
      ← h.outBitpos_eq]

/-- With `OUT` full a literal aborts before its first bit (R293). -/
theorem Decoding.step_emitLiteral_full (h : Decoding s m count pos out u) (b : Byte)
    (hseq : u.seq = afterDecode b.toNat) (hfull : s.cfg.outMemBytes ≤ out.length) :
    decompressStep u = .abort .outputOverflow (BitVec.ofNat 32 (8 * out.length)) u := by
  have hroom : u.cfg.outMemBytes ≤ u.outBitpos.toNat / 8 := by rwa [h.cfg, h.outBitpos_div]
  rw [decompressStep_emitLiteral (hseq.trans (afterDecode_literal b)), Machine.putByte, byteBits, putBits,
    putBit_full _ hroom, CmdRes.bind_abort, CmdRes.bind_abort, h.outBitpos_eq]

/-- From the state that DECODE_CODE goes to on a legal item's symbol, an item whose bytes pass the end of `OUT` aborts. -/
theorem Decoding.step_afterDecode_full (h : Decoding s m count pos out u) (hlen : s.inLen.toNat ≤ 2 ^ 28) {it : Item}
    (hseq : u.seq = afterDecode it.symbol) (hlegal : it.legal out = true)
    (hfull : s.cfg.outMemBytes < (it.extend out).length) (hpos : u.inBitpos.toNat = pos)
    (hahead : it.fieldPart <+: u.bitsAhead) :
    decompressStep u = .abort .outputOverflow (BitVec.ofNat 32 (8 * out.length))
      { u with inBitpos := BitVec.ofNat 32 (pos + it.fieldPart.length) } := by
  rw [Item.length_extend_of_legal hlegal] at hfull
  cases it with
  | literal b =>
    rw [h.step_emitLiteral_full b hseq (Nat.lt_succ_iff.1 hfull), Item.fieldPart, List.length_nil, Nat.add_zero,
      ← h.inBitpos]
  | copy range len field =>
    obtain ⟨-, -, -, -, hsource⟩ := legal_copy_iff.1 hlegal
    exact (h.step_copyBackref_abort hlen (Item.codable_of_legal hlegal) hseq hpos hahead).2 hsource hfull

/-- A copy whose field goes past the end of the stream reads to that end and aborts there (R143, R343). -/
theorem Decoding.step_copyBackref_end (h : Decoding s m count pos out u) (hlen : s.inLen.toNat ≤ 2 ^ 28)
    {range len field : Nat} (hcodable : (Item.copy range len field).Codable)
    (hseq : u.seq = afterDecode (copyCode range len)) (hpos : u.inBitpos.toNat = pos)
    (hbefore : pos ≤ 8 * s.inLen.toNat)
    (hend : 8 * s.inLen.toNat < pos + (Item.copy range len field).fieldPart.length) :
    decompressStep u = .abort .streamCorruptionEof (BitVec.ofNat 32 (8 * s.inLen.toNat))
      { u with inBitpos := BitVec.ofNat 32 (8 * s.inLen.toNat) } := by
  obtain ⟨hrange, hmin, hmax, -⟩ := hcodable
  obtain ⟨r, hafter, hr, hl⟩ := afterDecode_copyCode hrange hmin hmax
  obtain ⟨hin, -⟩ := h.sameInput
  rw [Item.fieldPart, length_fieldBits] at hend
  have hstop : max u.inBitpos.toNat (8 * u.inLen.toNat) = 8 * s.inLen.toNat := by
    rw [hin, hpos, max_eq_right hbefore]
  have hbits := getBits_end (s := u) (copyBits range) (by rwa [hin]) (by omega) (by rwa [hin, hpos])
  rw [hstop] at hbits
  rw [decompressStep_copyBackref (hseq.trans hafter), copyBackrefStep, hr, getField, hbits, CmdRes.bind_abort,
    CmdRes.bind_abort]

/-- A proper part of a path stops at an internal node. -/
theorem Arena.Path.internal_of_prefix {k l : NodeId} {vs ws : List Bool} (hpath : m.Path k vs l) (hprefix : ws <+: vs)
    (hshort : ws.length < vs.length) : ∃ j, isInternal j ∧ m.Path k ws j := by
  induction hpath generalizing ws with
  | nil k => exact absurd hshort (Nat.not_lt_zero _)
  | @cons k l v vs hk hrest ih =>
    cases ws with
    | nil => exact ⟨k, hk, .nil k⟩
    | cons w ws =>
      obtain ⟨rfl, hws⟩ := List.cons_prefix_cons.1 hprefix
      obtain ⟨j, hj, hpath⟩ := ih hws (Nat.lt_of_succ_lt_succ hshort)
      exact ⟨j, hj, .cons hk hpath⟩

/-- DECODE_CODE on a stream that ends inside a symbol's code reads to that end and aborts there, before the model's update
(R143, R292). -/
theorem Decoding.step_decodeCode_end {vs : List Bool} (h : Decoding s m count pre.length out u)
    (hlen : s.inLen.toNat ≤ 2 ^ 28) (hm : TreeShape m) {code : Nat} (hc : code ≤ Config.maxChar)
    (hseq : u.seq = .decodeCode) (hprefix : vs <+: m.codeOf code) (hshort : vs.length < (m.codeOf code).length)
    (hend : (pre ++ vs).length = 8 * s.inLen.toNat) (hbits : InBeginsWith s (pre ++ vs)) :
    decompressStep u = .abort .streamCorruptionEof (BitVec.ofNat 32 (8 * s.inLen.toNat))
      { u with inBitpos := BitVec.ofNat 32 (8 * s.inLen.toNat) } := by
  obtain ⟨hpos, hahead⟩ := h.ahead hlen hend.le hbits
  obtain ⟨hin, -⟩ := h.sameInput
  rw [List.length_append] at hend
  have hstop : max u.inBitpos.toNat (8 * u.inLen.toNat) = 8 * s.inLen.toNat := by
    rw [hin, hpos, max_eq_right (by omega)]
  have hall : vs = u.bitsAhead := hahead.eq_of_length (by rw [u.length_bitsAhead, bitsLeft, hin, hpos]; omega)
  obtain ⟨j, hj, hpath⟩ := (hm.path_codeOf hc).internal_of_prefix hprefix hshort
  rw [← h.nodes] at hm hpath
  have hwalk := walkDown_end hm (by rwa [hin]) 0 (hall ▸ hpath) hj
  rw [hstop] at hwalk
  rw [decompressStep_decodeCode hseq, decodeSym, hwalk, CmdRes.bind_abort, CmdRes.bind_abort]

end Stops

/-! ### The command -/

section Command

variable {s : State} {items : List Item} {e : ErrCode} {info : Word}

/-- DECOMPRESS of legal items and then of something on which its transitions abort is that abort. -/
theorem exec_decompress_of_abort (hwf : s.cfg.wf) (hin : s.inLen.toNat ≤ s.cfg.inMemBytes)
    (hlegal : legalItems [] items = true) (hroom : (expandItems [] items).length ≤ s.cfg.outMemBytes)
    (hfit : (itemBits [] items).length ≤ 8 * s.inLen.toNat) (hbits : InBeginsWith s (itemBits [] items))
    {P : State → Prop} (hstop : ∀ u fuel, u.seq = .decodeCode →
      Decoding s (itemsModel [] items) items.length (itemBits [] items).length (expandItems [] items) u →
      ∃ u', decompressLoop (fuel + 2) u = .abort e info u' ∧ P u') :
    ∃ u, exec .decompress s = .next (u.raise e info) ∧ P u := by
  obtain ⟨-, hmem, -⟩ := id hwf
  have hcount := length_le_length_itemBits initialTree_shape hlegal
  have hbound : decompressBound { s.initState with seq := .decodeCode } = 2 * (8 * s.inLen.toNat) + 4 := rfl
  obtain ⟨n, hn⟩ := Nat.exists_eq_add_of_le' (show 2 * items.length + 2 ≤ 2 * (8 * s.inLen.toNat) + 4 by omega)
  have hfuel : decompressBound { s.initState with seq := .decodeCode } = n + 2 + 2 * items.length := by omega
  obtain ⟨u, hloop, hseq, h⟩ := Decoding.decompressLoop_items (pre := []) (decoding_initState s) hwf (hin.trans hmem)
    initialTree_shape rfl hlegal hroom hfit hbits (n + 2)
  rw [Nat.zero_add, List.nil_append] at h
  obtain ⟨u', habort, hP⟩ := hstop u n hseq h
  refine ⟨u', (congrArg finish (require_bind_of_pass hin)).trans ?_, hP⟩
  rw [runDecompress, hfuel, hloop, habort, CmdRes.bind_abort, finish_abort]

/-- DECOMPRESS of legal items and then of a symbol whose item aborts: the symbol is counted, and the model is updated for
it (R292, R343). -/
theorem exec_decompress_of_item_abort (hwf : s.cfg.wf) (hin : s.inLen.toNat ≤ s.cfg.inMemBytes)
    (hlegal : legalItems [] items = true) (hroom : (expandItems [] items).length ≤ s.cfg.outMemBytes) {it : Item}
    (hcodable : it.Codable) {pos : Nat}
    (hfit : (itemBits [] items ++ (itemsModel [] items).codeOf it.symbol).length ≤ 8 * s.inLen.toNat)
    (hbits : InBeginsWith s (itemBits [] items ++ (itemsModel [] items).codeOf it.symbol))
    (hstop : ∀ u, u.seq = afterDecode it.symbol →
      Decoding s (itemsModel [] (items ++ [it])) (items.length + 1)
        (itemBits [] items ++ (itemsModel [] items).codeOf it.symbol).length (expandItems [] items) u →
      decompressStep u = .abort e info { u with inBitpos := BitVec.ofNat 32 pos }) :
    ∃ u, exec .decompress s = .next (u.raise e info)
      ∧ Decoding s (itemsModel [] (items ++ [it])) (items.length + 1) pos (expandItems [] items) u := by
  obtain ⟨-, hmem, -⟩ := id hwf
  have hlen := hin.trans hmem
  have hbefore : (itemBits [] items).length ≤ 8 * s.inLen.toNat :=
    (List.prefix_append _ _).length_le.trans hfit
  refine exec_decompress_of_abort hwf hin hlegal hroom hbefore (hbits.of_prefix (List.prefix_append _ _))
    fun u fuel hseq h => ?_
  obtain ⟨hpos, hahead⟩ := h.ahead hlen hfit hbits
  obtain ⟨u1, hstep, hseq1, h1⟩ := h.step_decodeCode hlen (initialTree_shape.itemsModel_of_legal hlegal)
    hcodable.symbol_le hseq hpos hahead
  rw [← itemsModel_concat, ← List.length_append] at h1
  refine ⟨_, ?_, h1.setInBitpos (b := BitVec.ofNat 32 pos) rfl⟩
  rw [decompressLoop_of_step (by rw [hseq]; exact Seq.noConfusion) hstep, decompressLoop_of_abort (hstop u1 hseq1 h1)]

/-- DECOMPRESS of legal items and then of an item that aborts once its field has been read: the item's bits are consumed. -/
theorem exec_decompress_of_whole_item_abort (hwf : s.cfg.wf) (hin : s.inLen.toNat ≤ s.cfg.inMemBytes)
    (hlegal : legalItems [] items = true) (hroom : (expandItems [] items).length ≤ s.cfg.outMemBytes) {it : Item}
    (hcodable : it.Codable) (hfit : (itemBits [] (items ++ [it])).length ≤ 8 * s.inLen.toNat)
    (hbits : InBeginsWith s (itemBits [] (items ++ [it])))
    (hstop : ∀ (u : State) (m : Arena) (count pos : Nat), Decoding s m count pos (expandItems [] items) u →
      u.seq = afterDecode it.symbol → u.inBitpos.toNat = pos → it.fieldPart <+: u.bitsAhead →
      decompressStep u = .abort e info { u with inBitpos := BitVec.ofNat 32 (pos + it.fieldPart.length) }) :
    ∃ u, exec .decompress s = .next (u.raise e info)
      ∧ Decoding s (itemsModel [] (items ++ [it])) (items.length + 1) (itemBits [] (items ++ [it])).length
          (expandItems [] items) u := by
  obtain ⟨-, hmem, -⟩ := id hwf
  rw [itemBits_concat, ← List.append_assoc] at hfit hbits ⊢
  have hcode := List.prefix_append (itemBits [] items ++ (itemsModel [] items).codeOf it.symbol) it.fieldPart
  rw [List.length_append]
  refine exec_decompress_of_item_abort hwf hin hlegal hroom hcodable (hcode.length_le.trans hfit)
    (hbits.of_prefix hcode) fun u hseq h => ?_
  obtain ⟨hpos, hahead⟩ := h.ahead (hin.trans hmem) hfit hbits
  exact hstop u _ _ _ h hseq hpos hahead

/-- A DECOMPRESS that ends in an abort at a point of the decoding, in the words of the claims. -/
theorem Decoding.aborted {m : Arena} {count pos : Nat} {out : List Byte} {u : State}
    (h : Decoding s m count pos out u) (hexec : exec .decompress s = .next (u.raise e info)) :
    ∃ t, exec .decompress s = .next t
      ∧ t = { s with
          nodes := m
          head := t.head
          next := t.next
          prev := t.prev
          outMem := t.outMem
          outBitpos := BitVec.ofNat 32 (8 * out.length)
          inBitpos := BitVec.ofNat 32 pos
          mode := { bin := false, dict := false }
          symcount := BitVec.ofNat 32 count
          bytesRead := 0 }.afterAbort e info
      ∧ HoldsBytes s t out ∧ ∀ key, t.headAt key = none :=
  ⟨_, hexec, h.raise_eq e info, h.holds, h.headAt⟩

end Command

/-- Settles O34: the copy's code and field are ahead after the items, and the distance check fails. -/
theorem decompressStopsOnBadDistance : Obligations.DecompressStopsOnBadDistance := by
  unfold Obligations.DecompressStopsOnBadDistance
  intro s items range len field hwf hin hlegal hrange hmin hmax hfield
  dsimp only
  intro hfar hfit hbits hroom
  obtain ⟨-, hmem, -⟩ := id hwf
  have hcodable : (Item.copy range len field).Codable := ⟨hrange, hmin, hmax, hfield⟩
  obtain ⟨u, hexec, h⟩ := exec_decompress_of_whole_item_abort hwf hin hlegal hroom hcodable hfit hbits
    fun u m count pos h hseq hpos hahead =>
      (h.step_copyBackref_abort (hin.trans hmem) hcodable hseq hpos hahead).1 hfar
  exact h.aborted hexec

/-- Settles O36: the item's code and field are ahead after the items before it, and its first byte, or all of a copy's, find
no room. -/
theorem decompressStopsAtFullOutput : Obligations.DecompressStopsAtFullOutput := by
  unfold Obligations.DecompressStopsAtFullOutput
  intro s items last hwf hin hlegal
  dsimp only
  intro hfit hbits hroom hfull
  obtain ⟨-, hmem, -⟩ := id hwf
  rw [legalItems_append] at hlegal
  obtain ⟨hbefore, hlast⟩ := Bool.and_eq_true_iff.1 hlegal
  obtain ⟨hlast, -⟩ := Bool.and_eq_true_iff.1 hlast
  rw [expandItems_concat] at hfull
  obtain ⟨u, hexec, h⟩ := exec_decompress_of_whole_item_abort hwf hin hbefore hroom (Item.codable_of_legal hlast) hfit
    hbits fun u m count pos h hseq => h.step_afterDecode_full (hin.trans hmem) hseq hlast hfull
  exact h.aborted hexec

/-! ### A stream that is cut -/

/-- What comes next is coded by a symbol of the alphabet (R118). -/
theorem exists_symbol_nextCode (m : Arena) {next : Option Item} (hcodable : ∀ it, next = some it → it.Codable) :
    ∃ code, code ≤ Config.maxChar ∧ nextCode m next = m.codeOf code := by
  cases next with
  | none => exact ⟨256, by decide, rfl⟩
  | some it => exact ⟨it.symbol, (hcodable it rfl).symbol_le, rfl⟩

theorem nextCode_prefix_nextBits (m : Arena) (next : Option Item) : nextCode m next <+: nextBits m next := by
  cases next with
  | none => exact List.prefix_rfl
  | some it => exact List.prefix_append _ _

/-- DECOMPRESS of a stream that ends inside a code aborts at its end; the symbol is not counted (R143, R297). -/
theorem exec_decompress_of_code_end {s : State} {items : List Item} (hwf : s.cfg.wf)
    (hin : s.inLen.toNat ≤ s.cfg.inMemBytes) (hlegal : legalItems [] items = true)
    (hroom : (expandItems [] items).length ≤ s.cfg.outMemBytes) {code : Nat} (hc : code ≤ Config.maxChar)
    {vs : List Bool} (hprefix : vs <+: (itemsModel [] items).codeOf code)
    (hshort : vs.length < ((itemsModel [] items).codeOf code).length)
    (hend : (itemBits [] items ++ vs).length = 8 * s.inLen.toNat) (hbits : InBeginsWith s (itemBits [] items ++ vs)) :
    ∃ u, exec .decompress s = .next (u.raise .streamCorruptionEof (BitVec.ofNat 32 (8 * s.inLen.toNat)))
      ∧ Decoding s (itemsModel [] items) items.length (8 * s.inLen.toNat) (expandItems [] items) u := by
  obtain ⟨-, hmem, -⟩ := id hwf
  have hpart : itemBits [] items <+: itemBits [] items ++ vs := List.prefix_append _ _
  refine exec_decompress_of_abort hwf hin hlegal hroom (hpart.length_le.trans hend.le) (hbits.of_prefix hpart)
    fun u fuel hseq h => ?_
  exact ⟨_, decompressLoop_of_abort (h.step_decodeCode_end (hin.trans hmem)
    (initialTree_shape.itemsModel_of_legal hlegal) hc hseq hprefix hshort hend hbits) _, h.setInBitpos rfl⟩

/-- DECOMPRESS of a stream that ends inside a copy's field aborts at its end; the copy's symbol is counted (R143, R297). -/
theorem exec_decompress_of_field_end {s : State} {items : List Item} (hwf : s.cfg.wf)
    (hin : s.inLen.toNat ≤ s.cfg.inMemBytes) (hlegal : legalItems [] items = true)
    (hroom : (expandItems [] items).length ≤ s.cfg.outMemBytes) {it : Item} (hcodable : it.Codable)
    (hfit : (itemBits [] items ++ (itemsModel [] items).codeOf it.symbol).length ≤ 8 * s.inLen.toNat)
    (hbits : InBeginsWith s (itemBits [] items ++ (itemsModel [] items).codeOf it.symbol))
    (hend : 8 * s.inLen.toNat
      < (itemBits [] items ++ (itemsModel [] items).codeOf it.symbol).length + it.fieldPart.length) :
    ∃ u, exec .decompress s = .next (u.raise .streamCorruptionEof (BitVec.ofNat 32 (8 * s.inLen.toNat)))
      ∧ Decoding s (itemsModel [] (items ++ [it])) (items.length + 1) (8 * s.inLen.toNat) (expandItems [] items) u := by
  obtain ⟨-, hmem, -⟩ := id hwf
  have hlen := hin.trans hmem
  refine exec_decompress_of_item_abort hwf hin hlegal hroom hcodable hfit hbits fun u hseq h => ?_
  cases it with
  | literal b => exact absurd hfit (not_le.2 hend)
  | copy range len field =>
    have hpos : u.inBitpos.toNat
        = (itemBits [] items ++ (itemsModel [] items).codeOf (Item.copy range len field).symbol).length := by
      rw [h.inBitpos, BitVec.toNat_ofNat, Nat.mod_eq_of_lt (by omega)]
    exact h.step_copyBackref_end hlen hcodable hseq hpos hfit hend

/-- Settles O35: the stop lies in the code of what comes next, whose bits then lead to no leaf, or past it, in the field of
a copy. -/
theorem decompressStopsAtEndOfStream : Obligations.DecompressStopsAtEndOfStream := by
  unfold Obligations.DecompressStopsAtEndOfStream
  intro s items next hwf hin hlegal hcodable
  dsimp only
  intro hbefore hcut hbits hroom
  rw [← inBeginsWith_take hcut.le] at hbits
  rw [List.length_append] at hcut
  rw [countedItems]
  split_ifs with hfield
  · cases next with
    | none => exact absurd hcut (not_lt.2 hfield)
    | some it =>
      rw [nextBits, ← List.append_assoc] at hbits
      rw [nextBits, List.length_append, ← Nat.add_assoc] at hcut
      rw [nextCode, ← List.length_append] at hfield hcut
      obtain ⟨u, hexec, h⟩ := exec_decompress_of_field_end hwf hin hlegal hroom (hcodable it rfl) hfield
        (hbits.of_prefix (List.prefix_take_iff.2 ⟨List.prefix_append _ _, hfield⟩)) hcut
      rw [Option.toList_some, List.length_append, List.length_singleton]
      exact h.aborted hexec
  · obtain ⟨code, hc, hnext⟩ := exists_symbol_nextCode (itemsModel [] items) hcodable
    obtain ⟨rest, hrest⟩ := nextCode_prefix_nextBits (itemsModel [] items) next
    rw [hnext] at hfield hrest
    have hshort : (((itemsModel [] items).codeOf code).take (8 * s.inLen.toNat - (itemBits [] items).length)).length
        = 8 * s.inLen.toNat - (itemBits [] items).length := List.length_take_of_le (by omega)
    rw [← hrest, List.take_append, List.take_of_length_le hbefore, List.take_append_of_le_length (by omega)] at hbits
    obtain ⟨u, hexec, h⟩ := exec_decompress_of_code_end hwf hin hlegal hroom hc (List.take_prefix _ _)
      (by omega) (by rw [List.length_append]; omega) hbits
    exact h.aborted hexec

end Sys2Proof.Machine
end

section
/-! PROOFS. The control commands (45_control): NOP from the write of its word to its end, and the state that INIT leaves. -/

namespace Sys2Proof.Machine

/-! ### NOP (R320) -/

theorem encode_nop : encode .nop = 0x00000000 := by decide

theorem exec_nop (s : State) : exec .nop s = .next s.afterCompletion := rfl

/-- The start actions of R113 reach a command's end only in the report: its end sets `seq`, BUSY and DONE again. -/
theorem State.startCommand_afterCompletion (s : State) (w : Word) : (s.startCommand w).afterCompletion
    = { s with errinfo := 0, status := { s.status with err := false, errcode := .none } }.afterCompletion := rfl

theorem engineStep_startCommand_nop (s : State) : engineStep (s.startCommand 0x00000000) = .next
    { s with errinfo := 0, status := { s.status with err := false, errcode := .none } }.afterCompletion := by
  have hdecode : decode 0x00000000 = .ok .nop := encode_nop ▸ decode_encode .nop
  rw [engineStep_of_decode (s.startCommand_seq _) hdecode, exec_nop, s.startCommand_afterCompletion]

/-- A completed command has set DONE, so that IRQ is CTRL.IE (R350). -/
theorem State.afterCompletion_irq (s : State) : s.afterCompletion.irq = s.ctrl.ie := Bool.and_true _

/-- STATUS after a completion with no error reported and BWI 0: DONE alone (R34). -/
theorem State.afterCompletion_status {s : State} (herr : s.status.err = false) (hcode : s.status.errcode = .none)
    (hbwi : s.status.bwi = false) : s.afterCompletion.readReg .status = 0x00000002 := by
  rw [readReg_eq_registerValue]
  simp [registerValue, State.afterCompletion, herr, hcode, hbwi, errorNumber]

/-- With OPC 0, only the word of NOP is well formed (R110). -/
theorem wordWellFormed_of_opcode_zero {w : Word} (hopc : w.toNat % 256 = 0) (hw : w ≠ 0) : wordWellFormed w = false := by
  refine Bool.eq_false_iff.2 fun hlegal => hw (BitVec.eq_of_toNat_eq ?_)
  obtain ⟨hrsvd, -⟩ := (wordWellFormed_iff_toNat w).1 hlegal
  rwa [Nat.mod_eq_of_lt hrsvd] at hopc

/-- Settles O6: the end of NOP is the completion of the started state, and a word with OPC 0 and RSVD not 0 is illegal. -/
theorem nopCompletes : Obligations.NopCompletes := by
  unfold Obligations.NopCompletes
  refine ⟨encode_nop, exec_nop, engineStep_startCommand_nop, fun s t ht => ?_, fun s w hopc hw => ?_⟩
  · rw [engineStep_startCommand_nop] at ht
    cases ht
    exact ⟨State.afterCompletion_irq _, fun hbwi => State.afterCompletion_status rfl rfl hbwi⟩
  · exact engineStep_of_illegal rfl (wordWellFormed_of_opcode_zero hopc hw)

/-! ### INIT (R321) -/

/-- The state that INIT leaves: `InitState()`, both results 0, and the completion. -/
def State.afterInit (s : State) : State := { s.initState with res0 := 0, res1 := 0 }.afterCompletion

theorem exec_init (s : State) : exec .init s = .next s.afterInit := rfl

theorem State.afterInit_nodes (s : State) (k : NodeId) : s.afterInit.nodes.get k = initNode k.toNat :=
  Arena.get_nil k

theorem State.afterInit_headAt (s : State) (key : Key) : s.afterInit.headAt key = none :=
  sparseGet_nil none key.toNat

/-- All that INIT writes it writes whatever was there, and it moves no link (log 3). -/
theorem State.afterInit_afterInit (s : State) : s.afterInit.afterInit = s.afterInit := rfl

/-- Settles O7: INIT leaves both tables empty, which read as their initial values, and all else it writes is constant. -/
theorem initReinitialises : Obligations.InitReinitialises := by
  unfold Obligations.InitReinitialises
  refine ⟨by decide, fun s => ⟨s.afterInit, exec_init s, rfl, fun k _ _ => s.afterInit_nodes k, s.afterInit_headAt, ?_⟩⟩
  rw [exec_init, s.afterInit_afterInit]

end Sys2Proof.Machine
end

section
/-! PROOFS. The errors of the commands (60_exceptions R340 to R344): what a failed IN_LEN check leaves, and which codes each
command can report. A sub-step's code is carried through a command by `CmdRes.Reports`, together with what the state
satisfies where the sub-step goes on, for it is the tree's shape that keeps code 3 out (41_huffman R181). -/

namespace Sys2Proof.Machine

/-! ### The IN_LEN check (R37, R344) -/

/-- The body of a command that reads `IN` begins with the IN_LEN check. -/
theorem exec_begins_with_checkInLen {i : Instr}
    (hi : i ∈ [Instr.compress, .decompress, .mscan, .hdec, .getf, .hins, .fmat]) (s : State) :
    ∃ f, exec i s = finish ((checkInLen s).bind f) := by
  cases i with
  | compress | decompress | mscan | hdec | getf | hins | fmat => exact ⟨_, rfl⟩
  | _ => exact absurd hi (by decide)

/-- Settles O39: the check is the first sub-step of each of the seven commands, and it looks at no operand. -/
theorem inputLengthChecked : Obligations.InputLengthChecked := by
  unfold Obligations.InputLengthChecked
  intro s hlen i hi
  obtain ⟨f, hexec⟩ := exec_begins_with_checkInLen hi s
  rw [hexec]
  exact finish_require_bind_of_fail (not_le.2 hlen)

/-! ### The codes that a sub-step can report -/

/-- A sub-step goes on in a state that satisfies `P`, or aborts with one of the codes `es`. -/
inductive CmdRes.Reports {α : Type} (P : State → Prop) (es : List ErrCode) : CmdRes α → Prop
  | ok {a : α} {s : State} (h : P s) : Reports P es (.ok a s)
  | abort {e : ErrCode} {i : Word} {s : State} (he : e ∈ es) : Reports P es (.abort e i s)

section Reports

variable {α β : Type} {P Q : State → Prop} {es : List ErrCode} {s t : State}

theorem CmdRes.Reports.bind {r : CmdRes α} {f : α → State → CmdRes β} (hr : r.Reports P es)
    (hf : ∀ a u, P u → (f a u).Reports Q es) : (r.bind f).Reports Q es := by
  cases hr with
  | ok h => exact hf _ _ h
  | abort he => exact .abort he

/-- A sub-step that keeps `P` wherever it ends, and whose aborts are known. -/
theorem CmdRes.Keeps.reports {r : CmdRes α} (hr : r.Keeps P) (hcodes : ∀ e i u, r = .abort e i u → e ∈ es) :
    r.Reports P es := by
  cases hr with
  | ok h => exact .ok h
  | abort _ _ => exact .abort (hcodes _ _ _ rfl)

/-- What follows a check runs in the same state and may use that the check has passed. -/
theorem require_bind_reports {p : Prop} [Decidable p] {e : ErrCode} {i : Word} {f : Unit → State → CmdRes α}
    (he : e ∈ es) (hf : p → (f () s).Reports P es) : ((require (decide p) e i s).bind f).Reports P es := by
  by_cases hp : p
  · rw [require_bind_of_pass hp]
    exact hf hp
  · rw [decide_eq_false hp, require_false, CmdRes.bind_abort]
    exact .abort he

/-- A command that sets ERR has aborted, with a code of its body (R340). -/
theorem finish_reports {r : CmdRes Results} (hr : r.Reports P es) (hP : ∀ u, P u → u.status.err = false)
    (ht : finish r = .next t) (herr : t.status.err = true) : t.status.errcode ∈ es := by
  cases hr with
  | ok hu =>
    obtain rfl := Host.Outcome.next.inj ht
    exact absurd herr (Bool.eq_false_iff.1 (hP _ hu :))
  | abort he =>
    obtain rfl := Host.Outcome.next.inj ht
    exact he

end Reports

/-! ### Bits and symbols -/

/-- What a command that started in `s` on a tree of the shape of R41 keeps while it runs. -/
structure ShapedFrame (s u : State) : Prop where
  frame : BodyFrame s u
  shape : TreeShape u.nodes

section Codes

variable {s u : State} {es : List ErrCode}

theorem ShapedFrame.inLen (h : ShapedFrame s u) : u.inLen = s.inLen := h.frame.sameInput.1

/-- Of a command's moves only the update and InitState rewrite nodes (R176, R321). -/
theorem ShapedFrame.keptByMoves (s : State) : KeptByMoves (ShapedFrame s) where
  scratch _ _ _ _ _ _ _ _ _ h := ⟨(BodyFrame.keptByMoves s).scratch _ _ _ _ _ _ _ _ _ h.frame, h.shape⟩
  update u code hc h := ⟨(BodyFrame.keptByMoves s).update u code hc h.frame, by dsimp only; exact h.shape.update hc⟩
  link u p h := ⟨(BodyFrame.keptByMoves s).link u p h.frame, h.shape⟩
  initState u h := ⟨(BodyFrame.keptByMoves s).initState u h.frame, initialTree_shape⟩

theorem ShapedFrame.setSeq (h : ShapedFrame s u) (seq : Seq) : ShapedFrame s { u with seq := seq } :=
  setSeq_keeps (ShapedFrame.keptByMoves s) seq h

theorem putBits_reports (vs : List Bool) (h : ShapedFrame s u) (he : .outputOverflow ∈ es) :
    (putBits vs u).Reports (ShapedFrame s) es := by
  refine (putBits_keeps (ShapedFrame.keptByMoves s) vs h).reports fun e i v habort => ?_
  rcases putBits_cases vs u with ⟨m, b, hput⟩ | ⟨m, b, hput⟩
  · cases hput.symm.trans habort
  · cases hput.symm.trans habort
    exact he

theorem getField_reports (w : Nat) (h : ShapedFrame s u) (he : .streamCorruptionEof ∈ es) :
    (getField w u).Reports (ShapedFrame s) es := by
  refine (getField_keeps (ShapedFrame.keptByMoves s) w h).reports fun e i v habort => ?_
  rcases getField_cases w u with ⟨_, b, hget⟩ | ⟨b, hget⟩
  · cases hget.symm.trans habort
  · cases hget.symm.trans habort
    exact he

/-- Once the symbol is one, only the writer can stop `EncodeSym` (R253). -/
theorem encodeSym_reports {code : Nat} (hc : code ≤ Config.maxChar) (h : ShapedFrame s u) (he : .outputOverflow ∈ es) :
    (encodeSym code u).Reports (ShapedFrame s) es := by
  refine (encodeSym_keeps (ShapedFrame.keptByMoves s) code h).reports fun e i v habort => ?_
  rcases encodeSym_cases hc u with ⟨m, b, hput⟩ | ⟨m, b, hput⟩
  · cases hput.symm.trans habort
  · cases hput.symm.trans habort
    exact he

/-- On a tree of the shape of R41 the walk down meets no null child and ends on a symbol: only the end of the stream stops
it (R181). -/
theorem decodeSym_reports (hlen : s.inLen.toNat ≤ 2 ^ 28) (h : ShapedFrame s u) (he : .streamCorruptionEof ∈ es) :
    (decodeSym u).Reports (ShapedFrame s) es := by
  refine (decodeSym_keeps (ShapedFrame.keptByMoves s) h).reports fun e i v habort => ?_
  rw [← h.inLen] at hlen
  rcases h.shape.codeOf_prefix_or_internal u.bitsAhead with ⟨code, hc, hprefix⟩ | ⟨l, hl, hpath⟩
  · cases (decodeSym_of_code hlen h.shape hc hprefix).symm.trans habort
  · rw [decodeSym, walkDown_end h.shape hlen 0 hpath hl, CmdRes.bind_abort] at habort
    cases habort
    exact he

/-! ### DECOMPRESS -/

theorem copyBytes_reports (n : Nat) (r : Backref) (h : ShapedFrame s u) :
    (copyBytes n r u).Reports (ShapedFrame s) (possibleErrors .decompress) := by
  induction n generalizing r u with
  | zero => exact .ok h
  | succ n ih => exact (putBits_reports _ h (by decide)).bind fun _ _ h1 => ih _ (h1.setSeq _)

theorem copyBackrefStep_reports (r : Backref) (h : ShapedFrame s u) :
    (copyBackrefStep r u).Reports (ShapedFrame s) (possibleErrors .decompress) := by
  unfold copyBackrefStep
  refine (getField_reports _ h (by decide)).bind fun _ u1 h1 => ?_
  refine require_bind_reports (by decide) fun _ => require_bind_reports (by decide) fun _ => ?_
  exact (copyBytes_reports _ _ (h1.setSeq _)).bind fun _ _ h2 => .ok (h2.setSeq _)

theorem decompressStep_reports (hlen : s.inLen.toNat ≤ 2 ^ 28) (h : ShapedFrame s u) :
    (decompressStep u).Reports (ShapedFrame s) (possibleErrors .decompress) := by
  unfold decompressStep
  cases u.seq with
  | decodeCode => exact (decodeSym_reports hlen h (by decide)).bind fun _ _ h1 => .ok (h1.setSeq _)
  | emitLiteral code => exact (putBits_reports _ h (by decide)).bind fun _ _ h1 => .ok (h1.setSeq _)
  | copyBackref r => exact copyBackrefStep_reports r h
  | _ => exact .ok h

theorem decompressLoop_reports (hlen : s.inLen.toNat ≤ 2 ^ 28) (n : Nat) (h : ShapedFrame s u) :
    (decompressLoop n u).Reports (ShapedFrame s) (possibleErrors .decompress) := by
  induction n generalizing u with
  | zero => exact .ok h
  | succ n ih =>
    unfold decompressLoop
    split
    · exact .ok h
    · exact (decompressStep_reports hlen h).bind fun _ _ h1 => ih h1

theorem runDecompress_reports (hlen : s.inLen.toNat ≤ 2 ^ 28) (h : ShapedFrame s u) :
    (runDecompress u).Reports (BodyFrame s) (possibleErrors .decompress) :=
  (decompressLoop_reports hlen _ h).bind fun _ _ h1 => .ok h1.frame

/-! ### The commands -/

/-- COMPRESS fails its check or is cut where `OUT` ends: its choices are symbols (R251, R343). -/
theorem exec_compress_reports (hwf : s.cfg.wf) :
    ∃ r, exec .compress s = finish r ∧ r.Reports (BodyFrame s) (possibleErrors .compress) := by
  by_cases hlen : s.inLen.toNat ≤ s.cfg.inMemBytes
  · obtain ⟨_, _, -, ⟨u, -, hu, he⟩ | ⟨u, _, _, _, -, -, -, -, he⟩⟩ := exec_compress_cases hwf hlen
    · exact ⟨.ok _ u, he, .ok hu.frame⟩
    · exact ⟨.abort _ _ u, he, .abort (by decide)⟩
  · exact ⟨_, rfl, require_bind_reports (by decide) fun hpass => absurd hpass hlen⟩

/-- A cursor inside `OUT` leaves room for the pad bits, so FLSH reports nothing (R142, R147). -/
theorem flush_reports (hwf : s.cfg.wf) (hcursor : s.outBitpos.toNat ≤ 8 * s.cfg.outMemBytes) :
    (flush s).Reports (BodyFrame s) [] := by
  have hroom : s.outBitpos.toNat + (List.replicate (padCount s) false).length ≤ 8 * s.cfg.outMemBytes := by
    rw [List.length_replicate]
    exact padCount_fits hcursor
  obtain ⟨m, b, hput, -⟩ := putBits_writesBits _ hwf (.inr hroom)
  rw [flush, hput]
  exact .ok (BodyFrame.refl s)

/-- The body of every command reports only the codes of its row of R342. -/
theorem exec_body_reports (i : Instr) (hcursors : CursorsBounded s) (hshape : TreeShape s.nodes) :
    ∃ r, exec i s = finish r ∧ r.Reports (BodyFrame s) (possibleErrors i) := by
  obtain ⟨hwf, -, hcursor, -⟩ := hcursors
  have hsize : s.cfg.inMemBytes ≤ 2 ^ 28 := hwf.2.1
  have hstart := BodyFrame.refl s
  cases i with
  | nop => exact ⟨_, rfl, .ok hstart⟩
  | init => exact ⟨_, rfl, .ok ((BodyFrame.keptByMoves s).initState s hstart)⟩
  | compress => exact exec_compress_reports hwf
  | decompress =>
    refine ⟨_, rfl, require_bind_reports (by decide) fun hlen => ?_⟩
    exact runDecompress_reports (hlen.trans hsize) ⟨hstart, initialTree_shape⟩
  | mupd =>
    refine ⟨_, rfl, require_bind_reports (by decide) fun hc => ?_⟩
    rcases updateModel_cases s.arg0.toNat s with ⟨-, hupdate⟩ | ⟨hbad, -⟩
    · rw [hupdate]
      exact .ok hstart
    · exact absurd hbad (not_lt.2 hc)
  | henc =>
    refine ⟨_, rfl, require_bind_reports (by decide) fun hc => ?_⟩
    exact (encodeSym_reports hc ⟨hstart, hshape⟩ (by decide)).bind fun _ _ h => .ok h.frame
  | hdec =>
    refine ⟨_, rfl, require_bind_reports (by decide) fun hlen => ?_⟩
    exact (decodeSym_reports (hlen.trans hsize) ⟨hstart, hshape⟩ (by decide)).bind fun _ _ h => .ok h.frame
  | putf =>
    refine ⟨_, rfl, require_bind_reports (by decide) fun _ => ?_⟩
    exact (putBits_reports _ ⟨hstart, hshape⟩ (by decide)).bind fun _ _ h => .ok h.frame
  | getf =>
    refine ⟨_, rfl, require_bind_reports (by decide) fun _ => require_bind_reports (by decide) fun _ => ?_⟩
    exact (getField_reports _ ⟨hstart, hshape⟩ (by decide)).bind fun _ _ h => .ok h.frame
  | flsh => exact ⟨_, rfl, (flush_reports hwf hcursor).bind fun _ _ h => .ok h⟩
  | hins =>
    refine ⟨_, rfl, require_bind_reports (by decide) fun _ => require_bind_reports (by decide) fun _ => ?_⟩
    exact .ok (insertPosition_keeps (BodyFrame.keptByMoves s) _ hstart)
  | fmat =>
    exact ⟨_, rfl, require_bind_reports (by decide) fun _ => require_bind_reports (by decide) fun _ => .ok hstart⟩
  | nread | rfnd | rrd | mscan => exact ⟨_, rfl, require_bind_reports (by decide) fun _ => .ok hstart⟩

end Codes

/-- Settles O43: the body leaves ERR as it was, so an error is an abort of the body, and its codes are those of R342. -/
theorem errorCodesPerCommand : Obligations.ErrorCodesPerCommand := by
  unfold Obligations.ErrorCodesPerCommand
  intro i s t hcursors hshape hnone ht herr
  obtain ⟨r, he, hr⟩ := exec_body_reports i hcursors hshape
  have hkept : ∀ u, BodyFrame s u → u.status.err = false := fun u ⟨_, _, hstatus, _⟩ => by rwa [hstatus]
  exact finish_reports hr hkept (he.symm.trans ht) herr

end Sys2Proof.Machine
end

section
/-! PROOFS. Reset (70_reset R370, R371): the state after it, on every platform and in the middle of a command, and the bytes
of `OUT` that a reset during a command leaves alone. -/

namespace Sys2Proof.Machine

/-! ### The state after reset meets the invariants -/

section Platform

variable (cfg : Config.Platform)

/-- The memories and tables of the state after reset list nothing (logs 2 and 3). -/
theorem canonicalStores_resetOn : CanonicalStores (State.resetOn cfg) := by
  rw [canonicalStores_iff]
  have hempty : ∀ n, Memory.StoredBelow [] n := fun _ => ⟨rfl, by simp⟩
  exact ⟨hempty _, hempty _, rfl, rfl, rfl, rfl⟩

theorem controlConsistent_resetOn : ControlConsistent (State.resetOn cfg) := by
  simp [ControlConsistent, State.resetOn]

theorem cursorsBounded_resetOn (hwf : cfg.wf) : CursorsBounded (State.resetOn cfg) :=
  ⟨hwf, Or.inl rfl, Nat.zero_le _, Nat.zero_le _⟩

/-- No head and no link is listed, so no chain reaches a position (log 3). -/
theorem linksWritten_resetOn : LinksWritten (State.resetOn cfg) := by
  constructor
  · intro k c hc
    simp [State.headAt, State.resetOn] at hc
  · intro a c hc
    simp [State.resetOn] at hc

end Platform

/-- Settles O57, invariant by invariant; the tree after reset is the initial one. -/
theorem resetMeetsInvariants : Obligations.ResetMeetsInvariants := by
  unfold Obligations.ResetMeetsInvariants
  refine ⟨fun cfg hwf => ?_, Config.defaultPlatform, by decide, rfl⟩
  exact ⟨canonicalStores_resetOn cfg, controlConsistent_resetOn cfg, initialTree_shape, initialTree_frequency,
    cursorsBounded_resetOn cfg hwf, linksWritten_resetOn cfg⟩

/-! ### The bytes of `OUT` that a reset leaves alone (R371, log 8) -/

/-- Only the bytes of its range become free values. -/
theorem memGet_tearOut (draw first count : Nat) (m : Memory) {a : Nat} (ha : a < first ∨ first + count ≤ a) :
    memGet (tearOut draw first count m) a = memGet m a := by
  induction count generalizing first m with
  | zero => rfl
  | succ count ih =>
    rw [tearOut, ih _ _ (by omega), memGet_memPut_other _ _ (by omega)]

/-- The bytes before the writer's start and those from the command's end on read as before. -/
theorem memGet_outAfterReset (s : State) {a : Nat}
    (ha : a < writerStart s / 8 ∨ ((afterEngine s).outBitpos.toNat + 7) / 8 ≤ a) :
    memGet (outAfterReset s) a = memGet s.outMem a := by
  unfold outAfterReset
  dsimp only
  split
  · split
    · exact memGet_tearOut _ _ _ _ (by omega)
    · rfl
  · rfl

/-- With no command running, a reset leaves all of `OUT` alone. -/
theorem outAfterReset_idle {s : State} (hidle : s.status.busy = false) : outAfterReset s = s.outMem :=
  if_neg (by simp [hidle])

/-! ### The reset input -/

/-- Every register reads after a reset what it reads after power-up: none of them is kept. -/
theorem State.hardwareReset_readReg (s : State) (r : Reg) : s.hardwareReset.readReg r = State.reset.readReg r := by
  cases r <;> rfl

/-- Settles O10: apart from the memories, what a reset gives is the state after power-up, whose values O9 lists. -/
theorem resetEventReinitialises : Obligations.ResetEventReinitialises := by
  unfold Obligations.ResetEventReinitialises
  intro s rest hagenda
  obtain ⟨hregs, -, -, -, hnodes, hheads⟩ := resetRegisterValues
  refine ⟨_, step_of_agenda hagenda, fun p hp => ?_, rfl, rfl, rfl, fun k _ _ => hnodes k, hheads, rfl, rfl, rfl, rfl,
    fun hidle => ?_, fun a ha => ?_⟩
  · rw [State.hardwareReset_readReg]
    exact hregs p hp
  · exact outAfterReset_idle (s := { s with agenda := rest }) hidle
  · exact memGet_outAfterReset { s with agenda := rest } ha

end Sys2Proof.Machine
end

section
/-! PROOFS. Register accesses while BUSY (70_reset R384, R385): what a read of a register that the command may write returns,
and the flag BWI, which a dropped write sets and only a host's write of STATUS or a reset clears. -/

namespace Sys2Proof.Machine

/-! ### Reads (R384) -/

section Reads

variable {s t : State} {rest : List Event} {p : Nat × Reg}

/-- A read of an open register returns its value before or after the engine's step, and draws the choice (log 6). -/
theorem State.readOpen_eq (r : Reg) (ht : engineStep s = .next t) :
    ∃ v, (v = registerValue s r ∨ v = registerValue t r)
      ∧ s.readOpen r = { s with readData := v, freeCount := s.freeCount + 1 } := by
  have hafter : afterEngine s = t := by simp [afterEngine, ht]
  unfold State.readOpen
  rw [hafter, readReg_eq_registerValue, readReg_eq_registerValue]
  cases Config.busyReadSeesEnd s.freeCount with
  | false => exact ⟨_, Or.inl rfl, rfl⟩
  | true => exact ⟨_, Or.inr rfl, rfl⟩

/-- An aligned read of an open register while BUSY. -/
theorem step_busRead_open (hp : p ∈ registerTable) (h : s.agenda = .busRead (s.cfg.engineBase + p.1) 4 :: rest)
    (hbusy : s.status.busy = true) (hopen : p.2.openWhileBusy = true)
    (ht : engineStep { s with agenda := rest } = .next t) :
    ∃ v, (v = registerValue s p.2 ∨ v = registerValue t p.2)
      ∧ step s = .next { s with agenda := rest, readData := v, freeCount := s.freeCount + 1 } := by
  obtain ⟨hwindow, haligned, hreg⟩ := registerTable_offsets p hp
  have hread : step s = .next ({ s with agenda := rest }.readOpen p.2) := by
    simp [step, h, takeEvent, hostBusRead, windowOffset_base_add s.cfg hwindow, alignedWord, haligned, hreg,
      State.hostReadReg, hbusy, hopen]
  obtain ⟨v, hv, heq⟩ := State.readOpen_eq p.2 ht
  rw [registerValue_agenda] at hv
  exact ⟨v, hv, by rw [hread, heq]⟩

end Reads

/-- Settles O48: the registers of the first list are those left open while BUSY, and STATUS reads with bit 0 at 1. -/
theorem busyReads : Obligations.BusyReads := by
  unfold Obligations.BusyReads
  intro s t rest hbusy p hp h ht
  have hopen : ∀ r ∈ [Reg.res0, .res1, .errinfo, .outLen, .outBitpos, .inBitpos, .mode, .symcount, .bytesRead],
      r.openWhileBusy = true := by decide
  have hclosed : ∀ r ∈ [Reg.id, .ctrl, .cmd, .arg0, .arg1, .inLen], r.openWhileBusy = false := by decide
  refine ⟨fun hr => step_busRead_open hp h hbusy (hopen _ hr) ht, fun hr => step_busRead hp h (Or.inr (hclosed _ hr)),
    fun hr => ?_⟩
  rw [step_busRead hp h (Or.inr (by rw [hr]; rfl)), hr, registerValue, hbusy]
  rfl

/-! ### Writes and BWI (R34, R385) -/

theorem status_mem_registerTable : (0x0C, Reg.status) ∈ registerTable := by decide

/-- A register stands at its own offset of R30 and at no other. -/
theorem offset_of_regAt {offset : Nat} {r : Reg} (h : regAt offset = some r) : offset = r.offset := by
  unfold regAt at h
  split at h <;> cases h
  all_goals rfl

section Bwi

variable {s t : State}

/-- Of the idle register writes only one of STATUS with bit 3 set clears BWI (R34). -/
theorem State.writeReg_bwi (r : Reg) (v : Word) (hbwi : s.status.bwi = true) :
    (s.writeReg r v).status.bwi = true ∨ r = .status ∧ v.getLsbD 3 = true := by
  cases r with
  | status =>
    cases hbit : v.getLsbD 3 with
    | false =>
      left
      dsimp only [State.writeReg, Status.clearWritten]
      rw [hbit, hbwi]
      rfl
    | true => exact Or.inr ⟨rfl, rfl⟩
  | _ => exact Or.inl hbwi

/-- A write while BUSY sets BWI; an idle one clears it at STATUS only. -/
theorem State.hostWriteOffset_bwi (offset : Nat) (v : Word) (hbwi : s.status.bwi = true) :
    (s.hostWriteOffset offset v).status.bwi = true
      ∨ s.status.busy = false ∧ offset = 0x0C ∧ v.getLsbD 3 = true := by
  unfold State.hostWriteOffset
  split
  · exact Or.inl rfl
  · rename_i hidle
    split
    · rename_i r hreg
      refine (State.writeReg_bwi r v hbwi).imp_right fun ⟨hr, hbit⟩ => ?_
      rw [hr] at hreg
      exact ⟨Bool.eq_false_iff.2 hidle, offset_of_regAt hreg, hbit⟩
    · exact Or.inl hbwi

/-- A bus write that clears BWI is an aligned word at STATUS with bit 3 set, to an idle engine. -/
theorem hostBusWrite_bwi {addr size : Nat} {v : Word} (hbwi : s.status.bwi = true)
    (ht : hostBusWrite addr size v s = .next t) : t.status.bwi = true
      ∨ s.status.busy = false ∧ addr = s.cfg.engineBase + 0x0C ∧ size = 4 ∧ v.getLsbD 3 = true := by
  unfold hostBusWrite windowOffset at ht
  split at ht
  · cases ht
  · rename_i offset hwindow
    split at hwindow <;> cases hwindow
    split at ht <;> cases ht
    · rename_i haligned
      refine (State.hostWriteOffset_bwi _ v hbwi).imp_right fun ⟨hidle, hoffset, hbit⟩ => ?_
      obtain ⟨hsize, -⟩ : size = 4 ∧ (addr - s.cfg.engineBase) % 4 = 0 := by simpa [alignedWord] using haligned
      exact ⟨hidle, by omega, hsize, hbit⟩
    · exact Or.inl hbwi

/-- The engine's turn leaves BWI as it is (R113 to R115, R340). -/
theorem engineStep_bwi (ht : engineStep s = .next t) : t.status.bwi = s.status.bwi := by
  rcases engineStep_keeps (BodyFrame.keptByMoves s) (BodyFrame.refl s) with ⟨_, he⟩ | ⟨_, r, he, hr⟩
  · cases he.symm.trans ht
    rfl
  · obtain ⟨u, ⟨-, -, hstatus, -⟩, ⟨x, rfl⟩ | ⟨e, info, -, rfl⟩⟩ := finish_keeps hr (he.symm.trans ht)
    · exact (congrArg Status.bwi hstatus :)
    · exact (congrArg Status.bwi hstatus :)

/-- An event that clears BWI is a reset or the write of STATUS. -/
theorem takeEvent_bwi {e : Event} (hbwi : s.status.bwi = true) (ht : takeEvent e s = .next t) :
    t.status.bwi = true ∨ e = .reset ∨ s.status.busy = false
      ∧ ∃ v, v.getLsbD 3 = true ∧ e = .busWrite (s.cfg.engineBase + 0x0C) 4 v := by
  cases e with
  | engine => exact Or.inl ((engineStep_bwi ht).trans hbwi)
  | reset => exact Or.inr (Or.inl rfl)
  | busRead addr size =>
    obtain ⟨v, k, rfl⟩ := hostBusRead_next ht
    exact Or.inl hbwi
  | busWrite addr size v =>
    refine (hostBusWrite_bwi hbwi ht).imp_right fun ⟨hidle, haddr, hsize, hbit⟩ => Or.inr ⟨hidle, v, hbit, ?_⟩
    rw [haddr, hsize]
  | inRead a =>
    obtain ⟨v, k, rfl⟩ := hostInRead_next ht
    exact Or.inl hbwi
  | inWrite a b =>
    obtain rfl := hostInWrite_next ht
    exact Or.inl hbwi
  | outRead a =>
    obtain ⟨v, k, rfl⟩ := hostOutRead_next ht
    exact Or.inl hbwi
  | outWrite a b =>
    obtain rfl := hostOutWrite_next ht
    exact Or.inl hbwi

/-- A write while BUSY at an aligned offset of the window, a reserved one too, changes BWI alone (R385). -/
theorem hostBusWrite_busy {offset : Nat} (v : Word) (hbusy : s.status.busy = true) (hwindow : offset < 256)
    (haligned : offset % 4 = 0) : hostBusWrite (s.cfg.engineBase + offset) 4 v s
      = .next { s with status := { s.status with bwi := true } } := by
  simp [hostBusWrite, windowOffset_base_add s.cfg hwindow, alignedWord, haligned, State.hostWriteOffset, hbusy]

end Bwi

/-- Settles O44: the dropped write, then BWI event by event, then the write of STATUS as O45 gives it. -/
theorem busyWriteDroppedBwiSticky : Obligations.BusyWriteDroppedBwiSticky := by
  unfold Obligations.BusyWriteDroppedBwiSticky
  refine ⟨fun s rest offset v hbusy hwindow haligned h => ?_, fun s t hbwi ht => ?_, fun s rest v hidle hbit h => ?_⟩
  · rw [step_of_agenda h]
    exact hostBusWrite_busy (s := { s with agenda := rest }) v hbusy hwindow haligned
  · rcases step_cases s with ⟨_, he⟩ | ⟨e, rest, h, he⟩
    · exact Or.inl ((engineStep_bwi (he.symm.trans ht)).trans hbwi)
    · rcases takeEvent_bwi (s := { s with agenda := rest }) hbwi (he.symm.trans ht) with
        hkept | rfl | ⟨hidle, v, hbit, rfl⟩
      · exact Or.inl hkept
      · exact Or.inr (Or.inl ⟨rest, h⟩)
      · exact Or.inr (Or.inr ⟨hidle, v, rest, hbit, h⟩)
  · obtain ⟨t, ht, rfl, -⟩ := idleRegisterWrites s rest v hidle _ status_mem_registerTable h
    exact ⟨_, ht, if_pos hbit⟩

end Sys2Proof.Machine
end
